-- ==== Sys2Proof/Word.lean ====
section
/-! DEFINITION. The data types of one byte and one six-bit group (00_scope.md R7). -/

namespace Sys2Proof

/-- A byte: bit 7 most significant, bit 0 least significant, unsigned (00_scope.md R7). -/
abbrev Byte := BitVec 8

/-- A six-bit group of the wire text (30_encoding.md R62). -/
abbrev Sextet := BitVec 6

end Sys2Proof
end

