-- ==== Sys2Proof/Config.lean ====
section
/-! DEFINITION. The implementation parameters of 00_scope.md R6, and the free values: constants with no body, so that
nothing can be proved of what they are. -/

namespace Sys2Proof

/-- The parameters of a run (00_scope.md R6, 10_state.md R21). No operation writes them. -/
structure Config where
  /-- `N`, the chunk size in bytes. -/
  n : Nat
  /-- `ACK_OK`, the byte of the Success line. -/
  ackOk : Byte
  /-- `ACK_FAIL`, the byte of the Failure line. -/
  ackFail : Byte
  /-- `DELIM`, the byte that ends a line. -/
  delim : Byte
  /-- `WS`, the bytes that trimming removes. -/
  ws : List Byte
  /-- `RETRY_IDX0`, whether a Failure at index 0 retransmits chunk 0. -/
  retryIdx0 : Bool
  /-- `ADDRW`, the width of a payload address. -/
  addrW : Nat
  /-- `IDXW`, the width of the cursor registers `idx` and `max`. -/
  idxW : Nat
  /-- `LINE_MAX`, how many bytes of a line `lbuf` keeps. `none` is the infinite value that
  42_ack_classifier.md R143 admits. -/
  lineMax : Option Nat
  deriving DecidableEq, Repr

/-- The values of 00_scope.md R6. `ADDRW` and `IDXW` are OPEN there: the 32 is a DESIGN CHOICE (log 3), as is the
infinite `LINE_MAX`. No statement rests on these three. -/
def Config.reference : Config where
  n := 8
  ackOk := 0x6B
  ackFail := 0x66
  delim := 0x0A
  ws := [0x09, 0x0A, 0x0B, 0x0C, 0x0D, 0x20]
  retryIdx0 := true
  addrW := 32
  idxW := 32
  lineMax := none

/-- What a binding of the parameters must satisfy: `N` in `1..8` (R6, D3), neither acknowledgment byte in `WS`
(30_encoding.md R63). That the two acknowledgment bytes and the delimiter differ pairwise is DEDUCED (log 3): with two
of them equal a row of R63 could never match. -/
abbrev Config.Wf (c : Config) : Prop :=
  1 ≤ c.n ∧ c.n ≤ 8 ∧ c.ackOk ∉ c.ws ∧ c.ackFail ∉ c.ws ∧
    c.ackOk ≠ c.ackFail ∧ c.delim ≠ c.ackOk ∧ c.delim ≠ c.ackFail

/-- Free value: the contents of `max` where the spec leaves them unspecified (10_state.md R22), or where
`chunkCount - 1` does not fit the register (log 13). Read modulo the register's range. -/
opaque Config.freeMax : Nat → Nat

/-- Free value: the contents of `L` after `RESET` (10_state.md R22), read modulo the register's range; and the length that
`START` latches from a `cfg_len` that is no legal level (log 37), read modulo the legal lengths. -/
opaque Config.freeLen : Nat → Nat

/-- Free value: the contents of `acc` after `RESET` (10_state.md R22). -/
opaque Config.freeAcc : Nat → Byte

/-- Free value: the contents of each register of `FB` after `RESET` (10_state.md R22); the second argument is the
register's number. -/
opaque Config.freeFB : Nat → Nat → Byte

end Sys2Proof
end

