-- ==== Sys2Proof/Syntax.lean ====
section
/-! DEFINITION. The operations of 30_encoding.md R75 as syntax, and the names they are made of: states, signals, events. -/

namespace Sys2Proof

/-- The sequencer's state `st` (10_state.md R15). -/
inductive St where
  | idle | sending | await | done
  deriving DecidableEq, Repr

/-- The classifier's state `cls` (10_state.md R18). -/
inductive Cls where
  | E | K | F | X
  deriving DecidableEq, Repr

/-- The five classes of an inbound byte (30_encoding.md R63). -/
inductive ByteClass where
  | delim | ws | k | f | other
  deriving DecidableEq, Repr

/-- The verdict on a completed line that the classifier hands to the sequencer (30_encoding.md R65). -/
inductive Signal where
  | success
  | failure
  | diag (text : List Byte)
  deriving DecidableEq, Repr

/-- The five input events of the block (43_transfer_sequencer.md R160). -/
inductive BlockEvent where
  | reset
  | start
  | rxByte (b : Byte)
  | wrErr
  | txDone
  deriving DecidableEq, Repr

/-- What a sequencer operation is selected by, beside the state and the condition (30_encoding.md R76): an input event,
or a signal of the classifier. -/
inductive SeqEvent where
  | input (e : BlockEvent)
  | signal (g : Signal)
  deriving DecidableEq, Repr

/-- The `TxFrame(i, f, r)` event (20_memory.md R51): chunk index, frame bytes, repeat bit. -/
structure TxFrame where
  idx : Nat
  bytes : List Byte
  isRepeat : Bool
  deriving DecidableEq, Repr

/-- The acts of the TX pacer (41_transport_encoder.md R112, R113): it takes over a frame; it writes the next character
of a transmission it owns; that write fails. `job` counts the unfinished transmissions, oldest first; `delay` is how many
inputs arrive before the act's report (`tx_done` or `wr_err`) does. -/
inductive TxAct where
  | accept (x : TxFrame)
  | write (job delay : Nat)
  | fail (job delay : Nat)
  deriving DecidableEq, Repr

/-- The 28 operations (30_encoding.md R75), each with the operands its rule gives it. -/
inductive Instr where
  /-- `CHUNK`, R90: slice chunk `i` out of the payload. -/
  | chunk (i : Nat)
  /-- `PAD`, R91: right-pad a chunk with zero bytes. -/
  | pad (c : List Byte)
  /-- `CKSUM`, R92: the checksum of a padded chunk. -/
  | cksum (p : List Byte)
  /-- `FRAME`, R93: compose the frame of a chunk. -/
  | frame (c : List Byte)
  /-- `B64`, R110: the text of a frame. -/
  | b64 (f : List Byte)
  /-- `TX`, R112: transmission of one frame's text, one act at a time. -/
  | tx (a : TxAct)
  /-- `LINE.SPLIT`, R130: cut inbound bytes into raw lines. -/
  | lineSplit (bs : List Byte)
  /-- `TRIM`, R131: remove surrounding whitespace. -/
  | trim (l : List Byte)
  /-- `ACK.K`, R132: the Success line. -/
  | ackK
  /-- `ACK.F`, R133: the Failure line. -/
  | ackF
  /-- `LINE.DIAG`, R134: every other trimmed line. -/
  | lineDiag (t : List Byte)
  /-- `RXB.DELIM`, R136: the delimiter byte. -/
  | rxbDelim
  /-- `RXB.WS`, R137: a whitespace byte other than the delimiter. -/
  | rxbWs (b : Byte)
  /-- `RXB.K`, R138: the byte `ACK_OK`. -/
  | rxbK
  /-- `RXB.F`, R139: the byte `ACK_FAIL`. -/
  | rxbF
  /-- `RXB.OTHER`, R140: any other byte. -/
  | rxbOther (b : Byte)
  /-- `SEQ.START`, R161: begin the transfer. -/
  | seqStart
  /-- `SEQ.SEND`, R162: the send sub-operation with its repeat bit. -/
  | seqSend (r : Bool)
  /-- `SEQ.ADVANCE`, R163: Success with a further chunk. -/
  | seqAdvance
  /-- `SEQ.FINISH`, R164: Success on the last chunk. -/
  | seqFinish
  /-- `SEQ.RETRY`, R165: Failure, same chunk again. -/
  | seqRetry
  /-- `SEQ.NAK0`, R166: Failure at index 0 under the reference policy. -/
  | seqNak0
  /-- `SEQ.DIAG`, R167: a diagnostic line. -/
  | seqDiag (t : List Byte)
  /-- `SEQ.IGNORE`, R168: every (state, event) pair with no other rule. -/
  | seqIgnore
  /-- `CUR.GET`, R200: read the cursor. -/
  | curGet
  /-- `CUR.INC`, R201: bounded increment. -/
  | curInc
  /-- `WRERR`, R216: a reported write failure. -/
  | wrErr
  /-- `RESET`, R250: return the block to its initial state. -/
  | reset
  deriving DecidableEq, Repr

end Sys2Proof
end

