-- ==== Sys2Proof/WellFormed.lean ====
section
/-! DEFINITION. Which terms of `Instr` the spec admits, for a binding of the parameters: the domains of the composer
(40_frame_composer.md R97), the byte of a byte class (30_encoding.md R63), the text of a diagnostic line (R64). -/

namespace Sys2Proof

/-- No byte of `WS` at either end (the result of `TRIM`, 42_ack_classifier.md R131) and no delimiter inside
(30_encoding.md R64). -/
def isTrimmedLine (c : Config) (t : List Byte) : Bool :=
  !(t.head?.any (· ∈ c.ws)) && !(t.getLast?.any (· ∈ c.ws)) && !(t.contains c.delim)

/-- The chunk size is in the range the composer is defined for (R97). -/
def chunkSizeOk (c : Config) : Bool := 1 ≤ c.n && c.n ≤ 8

/-- The operands are ones the operation's rule admits. -/
def wellFormed (c : Config) : Instr → Bool
  | .chunk _ => chunkSizeOk c
  | .pad l => chunkSizeOk c && 1 ≤ l.length && l.length ≤ c.n
  | .cksum p => chunkSizeOk c && p.length = c.n
  | .frame l => chunkSizeOk c && 1 ≤ l.length && l.length ≤ c.n
  | .b64 _ => true
  | .tx (.accept x) => x.bytes.length = c.n + 1
  | .tx (.write _ _) => true
  | .tx (.fail _ _) => true
  | .lineSplit _ => true
  | .trim l => !(l.contains c.delim)
  | .ackK => true
  | .ackF => true
  | .lineDiag t => isTrimmedLine c t && t ≠ [c.ackOk] && t ≠ [c.ackFail]
  | .rxbDelim => true
  | .rxbWs b => b ∈ c.ws && b ≠ c.delim
  | .rxbK => true
  | .rxbF => true
  | .rxbOther b => !(b ∈ c.ws) && b ≠ c.delim && b ≠ c.ackOk && b ≠ c.ackFail
  | .seqStart => true
  | .seqSend _ => true
  | .seqAdvance => true
  | .seqFinish => true
  | .seqRetry => true
  | .seqNak0 => !c.retryIdx0
  | .seqDiag _ => true
  | .seqIgnore => true
  | .curGet => true
  | .curInc => true
  | .wrErr => true
  | .reset => true

end Sys2Proof
end

