-- ==== Sys2Proof/Decode.lean ====
section
/-! DEFINITION. Selecting an operation (30_encoding.md R60, R63, R64, R76) and, after it, the encoder: the selector of an
operation. What the block decodes is not an instruction word: it is an inbound byte, a trimmed line, or the triple of the
state, the event and the condition. -/

namespace Sys2Proof

/-- Why a selector selects no operation. -/
inductive DecodeError where
  /-- No byte to decode. -/
  | noByte
  /-- The line has whitespace at an end: it is no trimmed line (R64). -/
  | notTrimmed
  /-- The line holds the delimiter: it is no line (R64). -/
  | delimiterInLine
  /-- `SENDING` has no row in the transition table (43_transfer_sequencer.md R171). -/
  | noRowForSending
  /-- The table's entry for a signal outside `AWAIT` is "cannot occur" (43_transfer_sequencer.md R171). -/
  | signalOutsideAwait
  /-- Success with `idx > max`: neither `SEQ.ADVANCE` nor `SEQ.FINISH` is selected (log 17). -/
  | cursorBeyondMax
  deriving DecidableEq, Repr

/-! ## RXB: an inbound byte -/

/-- A row of the byte table of R63: a byte is in the row when `(b & mask) == pat`. -/
structure RxbRow where
  pat : Byte
  mask : Byte
  cls : ByteClass
  deriving DecidableEq, Repr

/-- The rows of R63 in their order, for a binding of the parameters; the default row matches every byte. -/
def rxbRows (c : Config) : List RxbRow :=
  [⟨c.delim, 0xFF, .delim⟩] ++
  (c.ws.filter (· ≠ c.delim)).map (⟨·, 0xFF, .ws⟩) ++
  [⟨c.ackOk, 0xFF, .k⟩, ⟨c.ackFail, 0xFF, .f⟩, ⟨0x00, 0x00, .other⟩]

/-- The class of a byte: that of the first matching row (R63). -/
def byteClass (c : Config) (b : Byte) : ByteClass :=
  match (rxbRows c).find? (fun r => b &&& r.mask == r.pat) with
  | some r => r.cls
  | none => .other

/-- The operation of an inbound byte (R63). -/
def decodeRxb (c : Config) (b : Byte) : Instr :=
  match byteClass c b with
  | .delim => .rxbDelim
  | .ws => .rxbWs b
  | .k => .rxbK
  | .f => .rxbF
  | .other => .rxbOther b

/-- The first operation of a byte sequence, and the bytes after it. -/
def decodeBytes (c : Config) : List Byte → Except DecodeError (Instr × List Byte)
  | [] => .error .noByte
  | b :: rest => .ok (decodeRxb c b, rest)

/-! ## LINE: a trimmed line -/

/-- The operation of a trimmed line (R64). -/
def decodeLine (c : Config) (t : List Byte) : Except DecodeError Instr :=
  if t.contains c.delim then .error .delimiterInLine
  else if !isTrimmedLine c t then .error .notTrimmed
  else if t = [c.ackOk] then .ok .ackK
  else if t = [c.ackFail] then .ok .ackF
  else .ok (.lineDiag t)

/-! ## SEQ: state, event, condition -/

/-- Where `idx` stands against `max`. -/
inductive CursorPos where
  | below | atMax | beyond
  deriving DecidableEq, Repr

/-- The state and the condition that select a sequencer operation (R76): `st`, whether `fault != 0`, `idx` against `max`,
whether `idx == 0`. -/
structure SeqView where
  st : St
  faulted : Bool
  cursor : CursorPos
  idxZero : Bool
  deriving DecidableEq, Repr

/-- The sequencer's reactions to a signal (43_transfer_sequencer.md R163 to R168). -/
inductive Reaction where
  | advance | finish | retry | nak0
  | diag (text : List Byte)
  | ignore
  deriving DecidableEq, Repr

/-- The signal columns of the transition table (43_transfer_sequencer.md R171). A faulted block ignores every event but
`reset` (R168 e). -/
def reaction (c : Config) (v : SeqView) (g : Signal) : Except DecodeError Reaction :=
  if v.faulted then .ok .ignore
  else if v.st ≠ .await then .error .signalOutsideAwait
  else
    match g with
    | .success =>
      match v.cursor with
      | .below => .ok .advance
      | .atMax => .ok .finish
      | .beyond => .error .cursorBeyondMax
    | .failure => if !v.idxZero || c.retryIdx0 then .ok .retry else .ok .nak0
    | .diag t => .ok (.diag t)

/-- The operation that is a reaction. -/
def Reaction.instr : Reaction → Instr
  | .advance => .seqAdvance
  | .finish => .seqFinish
  | .retry => .seqRetry
  | .nak0 => .seqNak0
  | .diag t => .seqDiag t
  | .ignore => .seqIgnore

/-- The event columns of the transition table for a block that is not faulted (43_transfer_sequencer.md R171), but for
`reset`, which every state accepts. -/
def decodeTableCell (c : Config) (st : St) (e : BlockEvent) : Except DecodeError Instr :=
  match st, e with
  | _, .reset => .ok .reset
  | .idle, .start => .ok .seqStart
  | .idle, .rxByte _ => .ok .seqIgnore
  | .idle, .wrErr => .ok .wrErr
  | .idle, .txDone => .ok .seqIgnore
  | .await, .start => .ok .seqIgnore
  | .await, .rxByte b => .ok (decodeRxb c b)
  | .await, .wrErr => .ok .wrErr
  | .await, .txDone => .ok .seqIgnore
  | .done, .start => .ok .seqIgnore
  | .done, .rxByte _ => .ok .seqIgnore
  | .done, .wrErr => .ok .seqIgnore
  | .done, .txDone => .ok .seqIgnore
  | .sending, .start => .error .noRowForSending
  | .sending, .rxByte _ => .error .noRowForSending
  | .sending, .wrErr => .error .noRowForSending
  | .sending, .txDone => .error .noRowForSending

/-- The operation selected by a state, an event and a condition (R76): `reset` overrides everything, a faulted block
ignores everything else (43_transfer_sequencer.md R168 e), and otherwise the table of R171. -/
def decodeSeq (c : Config) (v : SeqView) : SeqEvent → Except DecodeError Instr
  | .input .reset => .ok .reset
  | .input e => if v.faulted then .ok .seqIgnore else decodeTableCell c v.st e
  | .signal g => (reaction c v g).map Reaction.instr

/-! ## All formats -/

/-- The value that selects an operation (00_scope.md R4), by format (R60). -/
inductive Selector where
  | rxb (b : Byte)
  | line (t : List Byte)
  | seq (v : SeqView) (e : SeqEvent)
  deriving DecidableEq, Repr

/-- The decoder: total, and rejecting by name. -/
def decode (c : Config) : Selector → Except DecodeError Instr
  | .rxb b => .ok (decodeRxb c b)
  | .line t => decodeLine c t
  | .seq v e => decodeSeq c v e

/-- The host's question about a table word: the table gives a selecting bit pattern of one byte only, and a byte is an
inbound byte (R63); the `LINE` rows repeat two of those words (log 18). Any other width is no selector. -/
def decodeTableWord (nbits w : Nat) : Option Instr :=
  if nbits = 8 then some (decodeRxb Config.reference (BitVec.ofNat 8 w)) else none

/-! ## The encoder -/

/-- The waiting state that selects the sequencer operations of `AWAIT`; `atMax` and `idxZero` choose among them. -/
def awaitView (cursor : CursorPos) (idxZero : Bool) : SeqView :=
  { st := .await, faulted := false, cursor := cursor, idxZero := idxZero }

/-- A selector of an operation, written from R63, R64, R76 and the table of 43_transfer_sequencer.md R171; `none` for the
operations of format `FN` and for `SEQ.SEND`, which have no selecting pattern of their own (R60, R75). -/
def encode (c : Config) : Instr → Option Selector
  | .chunk _ => none
  | .pad _ => none
  | .cksum _ => none
  | .frame _ => none
  | .b64 _ => none
  | .tx _ => none
  | .lineSplit _ => none
  | .trim _ => none
  | .ackK => some (.line [c.ackOk])
  | .ackF => some (.line [c.ackFail])
  | .lineDiag t => some (.line t)
  | .rxbDelim => some (.rxb c.delim)
  | .rxbWs b => some (.rxb b)
  | .rxbK => some (.rxb c.ackOk)
  | .rxbF => some (.rxb c.ackFail)
  | .rxbOther b => some (.rxb b)
  | .seqStart => some (.seq ⟨.idle, false, .atMax, true⟩ (.input .start))
  | .seqSend _ => none
  | .seqAdvance => some (.seq (awaitView .below false) (.signal .success))
  | .seqFinish => some (.seq (awaitView .atMax false) (.signal .success))
  | .seqRetry => some (.seq (awaitView .below false) (.signal .failure))
  | .seqNak0 => some (.seq (awaitView .below true) (.signal .failure))
  | .seqDiag t => some (.seq (awaitView .below false) (.signal (.diag t)))
  | .seqIgnore => some (.seq (awaitView .below false) (.input .txDone))
  | .curGet => none
  | .curInc => none
  | .wrErr => some (.seq (awaitView .below false) (.input .wrErr))
  | .reset => some (.seq ⟨.done, false, .atMax, false⟩ (.input .reset))

end Sys2Proof
end

