-- ==== Sys2Proof/Machine/State.lean ====
section
/-! DEFINITION. The machine's state as plain data: the nine elements of 10_state.md R10, the ports of R17, the payload
memory and the streams of R19, the TX pacer's part of R20, the parameters of a run (R21); and what the model adds of its
own, marked so. -/

namespace Sys2Proof.Machine

/-- Why the machine stops with a fault. The block's own fault, `EmptyPayload`, is not here: the block takes it and goes on
(60_exceptions.md R212). -/
inductive Fault where
  /-- Raised by every operation that reads the payload: the payload memory does not admit the read (20_memory.md R40:
  stuck, not a value). Safe: the machine stops where the spec gives no step. -/
  | payloadReadNotAdmitted
  deriving DecidableEq, Repr

/-- Why the machine answers without a meaning. -/
inductive Refusal where
  /-- Raised by `exec` for an instruction that has no meaning. Safe: the machine stops. -/
  | notModelled (mnemonic : String)
  /-- Raised by the composer operations for a chunk size outside `1..8` (40_frame_composer.md R97). Safe. -/
  | badN
  /-- Raised by `PAD`, `CKSUM`, `FRAME` for a length outside their domain (40_frame_composer.md R97). Safe. -/
  | badChunkLen
  /-- Raised by the payload slice for an index that is no chunk's (40_frame_composer.md R90: no meaning). Safe. -/
  | chunkIndexBeyondMax
  /-- Raised by a sequencer operation in a state that does not select it (30_encoding.md R76). Safe. -/
  | notSelected
  /-- Raised where no operation is selected (43_transfer_sequencer.md R171). Safe. -/
  | rejected (e : DecodeError)
  /-- Raised by the step when no input is pending: the block takes no step (60_exceptions.md R217). Safe. -/
  | noEventPending
  /-- Raised by `TX` for a transmission that does not exist. Safe: the TX pacer takes no such step. -/
  | noSuchTransmission
  /-- Raised by the step when the host loads more bytes than the payload address has values (10_state.md R14). Safe. -/
  | payloadTooLong
  deriving DecidableEq, Repr

/-- The sticky fault register (30_encoding.md R70); its two reserved codes are never produced and not represented. -/
inductive FaultCode where
  | none | emptyPayload
  deriving DecidableEq, Repr

/-- An event of the LOG stream (30_encoding.md R69). -/
inductive LogEvent where
  | send (i : Nat)
  | repeated (i : Nat)
  | done
  | diag (text : List Byte)
  | wrErr
  deriving DecidableEq, Repr

/-- An event the block emits (10_state.md R17): on the TX stream, on the LOG stream, on `tr_close`. -/
inductive Output where
  | txFrame (x : TxFrame)
  | log (e : LogEvent)
  | trClose
  deriving DecidableEq, Repr

/-- Events a realisation observes at one instant (60_exceptions.md R215). -/
structure Together where
  reset : Bool
  start : Bool
  wrErr : Bool
  rxByte : Option Byte
  txDone : Bool
  deriving DecidableEq, Repr

/-- What comes to the machine from outside, one entry a step: an input event of the block, several at one instant, an act
of the host (30_encoding.md R73: `LEN`, `MEM`), a step of the TX pacer (41_transport_encoder.md R112). -/
inductive Input where
  | event (e : BlockEvent)
  | together (x : Together)
  | len (l : Nat)
  | mem (bs : List Byte)
  | pacerWrite (job delay : Nat)
  | pacerFail (job delay : Nat)
  deriving DecidableEq, Repr

/-- THE MODEL'S OWN (log 10): the value an internal function hands its caller. -/
inductive OpResult where
  | none
  | bytes (bs : List Byte)
  | byte (b : Byte)
  | lines (ls : List (List Byte)) (rest : List Byte)
  | index (i : Nat)
  | optIndex (o : Option Nat)
  deriving DecidableEq, Repr

/-- Payload memory: the bytes it holds, by address, strictly rising (20_memory.md R40). -/
abbrev Memory := List Host.Cell

/-- The canonical form: addresses strictly rising. An unlisted address has no value (log 8), so no entry can equal what
an unlisted address reads as. -/
abbrev Memory.wf (m : Memory) : Prop := List.Pairwise (· < ·) (m.map Prod.fst)

structure State where
  /-- The parameters of the run (00_scope.md R6). -/
  cfg : Config
  /-- Sequencer state (10_state.md R15). -/
  st : St
  /-- Index Cursor (10_state.md R13). -/
  idx : Nat
  /-- `chunkCount - 1` (10_state.md R14). -/
  max : Nat
  /-- Payload length latched at `START` (10_state.md R14). -/
  L : Nat
  /-- Classifier state (10_state.md R18). -/
  cls : Cls
  /-- The raw bytes of the line so far (10_state.md R18). -/
  lbuf : List Byte
  /-- The frame most recently composed, `FB[0..N]` (10_state.md R11). -/
  FB : List Byte
  /-- Checksum accumulator (10_state.md R12). -/
  acc : Byte
  /-- Sticky fault code (10_state.md R10). -/
  fault : FaultCode
  /-- Port `cfg_len`, a level the host holds (10_state.md R17). -/
  cfgLen : Nat
  /-- Port `exit_code`: `none` while not valid (10_state.md R17). -/
  exitCode : Option (BitVec 1)
  /-- The events emitted so far, oldest first (10_state.md R17, 20_memory.md R51). -/
  out : List Output
  /-- Payload memory (20_memory.md R40). -/
  mem : Memory
  /-- The TX pacer's unwritten characters, one list per unfinished transmission, oldest first (10_state.md R20 b). -/
  backlog : List (List Byte)
  /-- The characters written to the sink, oldest first (41_transport_encoder.md R111). -/
  sink : List Byte
  /-- What has not come to the machine yet, next first (10_state.md R20 c). -/
  inputs : List Input
  /-- THE MODEL'S OWN (log 10): the value the last internal function handed its caller. -/
  result : OpResult
  /-- THE MODEL'S OWN (log 5): how many times a free value has been drawn. -/
  fresh : Nat
  deriving DecidableEq, Repr

/-- The machine right after reset, for a binding of the parameters (10_state.md R22): `st`, `idx`, `cls`, `lbuf`, `fault`
and the ports as the spec says. The spec leaves `max`, `L`, `FB` and `acc` unspecified: their zeros are a DESIGN CHOICE
(log 4), as is `cfg_len` (log 6). It gives the TX pacer's backlog and the sink no value, and no reset reaches them
(70_reset_and_hazards.md R250): that both are empty here is a DESIGN CHOICE (log 36). -/
def State.afterReset (c : Config) : State where
  cfg := c
  st := .idle
  idx := 0
  max := 0
  L := 0
  cls := .E
  lbuf := []
  FB := List.replicate (c.n + 1) 0
  acc := 0
  fault := .none
  cfgLen := 0
  exitCode := none
  out := []
  mem := []
  backlog := []
  sink := []
  inputs := []
  result := .none
  fresh := 0

/-- The machine right after reset with the parameters of 00_scope.md R6 (log 3). -/
def State.reset : State := State.afterReset Config.reference

end Sys2Proof.Machine
end

