-- ==== Sys2Proof/Machine/Flags.lean ====
section
/-! DEFINITION. The one-bit conditions of 10_state.md R16, the status ports of R17 and the numeric codes of 30_encoding.md
R65 to R70. -/

namespace Sys2Proof.Machine

/-- `done`: `st == DONE`. -/
def State.doneFlag (s : State) : Bool := s.st = .done

/-- `busy`: `st == AWAIT`, or `SENDING` inside a step. -/
def State.busyFlag (s : State) : Bool := s.st = .await || s.st = .sending

/-- `at_max`: `idx == max`. -/
def State.atMaxFlag (s : State) : Bool := s.idx = s.max

/-- `rx_en`: `st == AWAIT`. -/
def State.rxEnFlag (s : State) : Bool := s.st = .await

/-- `faulted`: `fault != 0`. -/
def State.faultedFlag (s : State) : Bool := s.fault ≠ .none

/-- `AWAIT` and no fault: the classifier consumes an inbound byte (42_ack_classifier.md R142, 43_transfer_sequencer.md
R168 e), and a signal can exist (R171). -/
def State.waiting (s : State) : Bool := s.rxEnFlag && !s.faultedFlag

/-- The code of `st` (30_encoding.md R66). -/
def stCode : St → BitVec 2
  | .idle => 0b00#2
  | .sending => 0b01#2
  | .await => 0b10#2
  | .done => 0b11#2

/-- The code of `cls` (30_encoding.md R67). -/
def clsCode : Cls → BitVec 2
  | .E => 0b00#2
  | .K => 0b01#2
  | .F => 0b10#2
  | .X => 0b11#2

/-- The code of the verdict `SIG`; `none` when no line was completed (30_encoding.md R65). -/
def sigCode : Option Signal → BitVec 2
  | none => 0b00#2
  | some .success => 0b01#2
  | some .failure => 0b10#2
  | some (.diag _) => 0b11#2

/-- The code of `fault` (30_encoding.md R70). -/
def faultCode : FaultCode → BitVec 2
  | .none => 0b00#2
  | .emptyPayload => 0b01#2

/-- The kind of a LOG event (30_encoding.md R69). -/
def logKind : LogEvent → BitVec 3
  | .send _ => 0b000#3
  | .repeated _ => 0b001#3
  | .done => 0b010#3
  | .diag _ => 0b011#3
  | .wrErr => 0b100#3

/-- Port `st_out` (10_state.md R17). -/
def State.stOut (s : State) : BitVec 2 := stCode s.st

/-- Port `idx_out` (10_state.md R17). -/
def State.idxOut (s : State) : Nat := s.idx

/-- Port `fault_out` (10_state.md R17). -/
def State.faultOut (s : State) : BitVec 2 := faultCode s.fault

/-- The TX stream at the block's boundary: the frames handed over, oldest first (20_memory.md R51). -/
def State.txStream (s : State) : List TxFrame :=
  s.out.filterMap fun o => match o with
    | .txFrame x => some x
    | .log _ => none
    | .trClose => none

/-- The LOG stream, oldest first (20_memory.md R51). -/
def State.logStream (s : State) : List LogEvent :=
  s.out.filterMap fun o => match o with
    | .txFrame _ => none
    | .log e => some e
    | .trClose => none

/-- How many times `tr_close` was emitted (10_state.md R23). -/
def State.closeCount (s : State) : Nat := s.out.count .trClose

end Sys2Proof.Machine
end

