-- ==== Sys2Proof/Machine/Operands.lean ====
section
/-! DEFINITION. How operands are assembled (30_encoding.md R74): chunk addresses and lengths, the padded chunk, the
checksum bits, the six-bit groups, the trimmed line, the selecting view of the state. Pure functions. -/

namespace Sys2Proof.Machine

/-! ## Chunks -/

/-- `chunkCount = ceil(L / N)` (40_frame_composer.md R94 d). -/
def chunkCount (n l : Nat) : Nat := (l + n - 1) / n

/-- The payload address of byte 0 of chunk `i` (20_memory.md R41). -/
def chunkBase (n i : Nat) : Nat := i * n

/-- `len_i = min(N, L - i*N)` (20_memory.md R41). -/
def chunkLen (n l i : Nat) : Nat := min n (l - chunkBase n i)

/-- `pad(c) = c ++ zeros(N - len(c))` (40_frame_composer.md R91). -/
def padBytes (n : Nat) (c : List Byte) : List Byte := c ++ List.replicate (n - c.length) 0

/-- One iteration of the checksum: `acc <- (acc << 1) + b[0]`, eight bits wide (40_frame_composer.md R92). -/
def cksumStep (acc b : Byte) : Byte := (acc <<< 1) + (b &&& 1)

/-- `cksum(p)`: the accumulator starts at zero (40_frame_composer.md R92). -/
def cksumByte (p : List Byte) : Byte := p.foldl cksumStep 0

/-- `frame(c) = p ++ [cksum(p)]` with `p = pad(c)` (40_frame_composer.md R93). -/
def frameBytes (n : Nat) (c : List Byte) : List Byte := padBytes n c ++ [cksumByte (padBytes n c)]

/-! ## Base64 (41_transport_encoder.md R110; its alphabet is PRESUMED, log 19) -/

/-- The character of a six-bit group: `A-Z`, `a-z`, `0-9`, `+`, `/` in ASCII (30_encoding.md R62). -/
def sextetChar (x : Sextet) : Byte :=
  let v := x.toNat
  BitVec.ofNat 8 <|
    if v < 26 then 0x41 + v
    else if v < 52 then 0x61 + (v - 26)
    else if v < 62 then 0x30 + (v - 52)
    else if v = 62 then 0x2B
    else 0x2F

/-- The padding character `=`. -/
def padChar : Byte := 0x3D

/-- The 24 bits of a group of three bytes, the first byte highest. -/
def groupWord (b0 b1 b2 : Byte) : BitVec 24 := b0 ++ b1 ++ b2

/-- Six-bit group `m` of a 24-bit word, counted from the front. -/
def groupSextet (w : BitVec 24) (m : Nat) : Sextet := w.extractLsb' (18 - 6 * m) 6

/-- `b64(f)`: three bytes to four characters, padded with `=` at the end (41_transport_encoder.md R110). -/
def b64Chars : List Byte → List Byte
  | [] => []
  | [b0] =>
    let w := groupWord b0 0 0
    [sextetChar (groupSextet w 0), sextetChar (groupSextet w 1), padChar, padChar]
  | [b0, b1] =>
    let w := groupWord b0 b1 0
    [sextetChar (groupSextet w 0), sextetChar (groupSextet w 1), sextetChar (groupSextet w 2), padChar]
  | b0 :: b1 :: b2 :: rest =>
    let w := groupWord b0 b1 b2
    sextetChar (groupSextet w 0) :: sextetChar (groupSextet w 1) ::
      sextetChar (groupSextet w 2) :: sextetChar (groupSextet w 3) :: b64Chars rest

/-! ## Lines -/

/-- The byte is in `WS`. -/
def isWs (c : Config) (b : Byte) : Bool := b ∈ c.ws

/-- `trim(s)`: the bytes from the first to the last that is not in `WS` (42_ack_classifier.md R131). -/
def trimBytes (c : Config) (l : List Byte) : List Byte :=
  ((l.dropWhile (isWs c)).reverse.dropWhile (isWs c)).reverse

/-- `classify(line)`: exact match of the trimmed line (42_ack_classifier.md R132 to R134). -/
def classifyLine (c : Config) (line : List Byte) : Signal :=
  if trimBytes c line = [c.ackOk] then .success
  else if trimBytes c line = [c.ackFail] then .failure
  else .diag (trimBytes c line)

/-- `LINE.SPLIT`: the completed raw lines, and the incomplete one; `cur` is the line so far (42_ack_classifier.md R130). -/
def splitLines (c : Config) (cur : List Byte) : List Byte → List (List Byte) × List Byte
  | [] => ([], cur)
  | b :: bs =>
    if b = c.delim then
      let r := splitLines c [] bs
      (cur :: r.1, r.2)
    else splitLines c (cur ++ [b]) bs

/-- The classifier's transition (42_ack_classifier.md R135), the next `cls`. -/
def clsNext : Cls → ByteClass → Cls
  | .E, .ws => .E
  | .E, .k => .K
  | .E, .f => .F
  | .E, .other => .X
  | .K, .ws => .K
  | .K, .k => .X
  | .K, .f => .X
  | .K, .other => .X
  | .F, .ws => .F
  | .F, .k => .X
  | .F, .f => .X
  | .F, .other => .X
  | .X, .ws => .X
  | .X, .k => .X
  | .X, .f => .X
  | .X, .other => .X
  | _, .delim => .E

/-- The signal of a completed line (42_ack_classifier.md R136). -/
def lineSignal (c : Config) (cls : Cls) (lbuf : List Byte) : Signal :=
  match cls with
  | .E => .diag []
  | .K => .success
  | .F => .failure
  | .X => .diag (trimBytes c lbuf)

/-- `append(lbuf, b)`: dropped once `LINE_MAX` bytes are held (42_ack_classifier.md R143). -/
def appendLbuf (c : Config) (lbuf : List Byte) (b : Byte) : List Byte :=
  match c.lineMax with
  | none => lbuf ++ [b]
  | some m => if lbuf.length < m then lbuf ++ [b] else lbuf

/-! ## Selection -/

/-- `idx` against `max`. -/
def cursorPos (idx mx : Nat) : CursorPos :=
  if idx < mx then .below else if idx = mx then .atMax else .beyond

/-- The state and the condition that select an operation (30_encoding.md R76). -/
def State.view (s : State) : SeqView where
  st := s.st
  faulted := s.fault ≠ .none
  cursor := cursorPos s.idx s.max
  idxZero := s.idx = 0

/-- The order in which events seen at one instant are taken; `reset` discards the others (60_exceptions.md R215). -/
def serialise (x : Together) : List BlockEvent :=
  if x.reset then [.reset]
  else
    (if x.start then [.start] else []) ++ (if x.wrErr then [.wrErr] else []) ++
      (match x.rxByte with
        | some b => [.rxByte b]
        | none => []) ++
      (if x.txDone then [.txDone] else [])

end Sys2Proof.Machine
end

