-- ==== Sys2Proof/Machine/Ops.lean ====
section
/-! DEFINITION. The named operations over memory, streams and registers that the meanings are written with: payload reads,
the composer's registers, the send and the finish of the sequencer, the cursor, fault entry and reset, the TX pacer. -/

namespace Sys2Proof.Machine

/-- A computation that ends in a value, a fault or a refusal. -/
abbrev Run (α : Type) := Host.Outcome α Fault Refusal

/-- One computation after another. -/
def bindRun {α β : Type} (m : Run α) (k : α → Run β) : Run β :=
  match m with
  | .next a => k a
  | .fault r => .fault r
  | .refused r => .refused r

/-! ## Payload memory (20_memory.md R40) -/

/-- The byte at an address; `none` where the memory holds none. -/
def Memory.read (m : Memory) (a : Nat) : Option Byte :=
  match m with
  | [] => none
  | c :: rest => if c.1 = a then some c.2 else Memory.read rest a

/-- The cells of bytes that lie one after another. -/
def Memory.cellsFrom (a : Nat) : List Byte → Memory
  | [] => []
  | b :: bs => (a, b) :: Memory.cellsFrom (a + 1) bs

/-- The payload memory that holds these bytes from address 0 (30_encoding.md R73, `MEM`). -/
def Memory.load (bs : List Byte) : Memory := Memory.cellsFrom 0 bs

/-- `MemRead(a, 1)`: defined for `a < L`; a read the memory does not admit is stuck (20_memory.md R40). -/
def memRead (s : State) (a : Nat) : Run Byte :=
  if a < s.L then
    match s.mem.read a with
    | some b => .next b
    | none => .fault .payloadReadNotAdmitted
  else .fault .payloadReadNotAdmitted

/-- As many bytes from address `a`, read one at a time in rising order (40_frame_composer.md R90). -/
def readBytes (s : State) (a : Nat) : Nat → Run (List Byte)
  | 0 => .next []
  | m + 1 =>
    bindRun (memRead s a) fun b =>
    bindRun (readBytes s (a + 1) m) fun bs => .next (b :: bs)

/-! ## Composer (40_frame_composer.md) -/

/-- `chunk(i)` (R90), for `0 <= i <= max` with a byte of the payload in it; otherwise refused (R90, R97; log 20). -/
def chunkAt (s : State) (i : Nat) : Run (List Byte) :=
  if !chunkSizeOk s.cfg then .refused .badN
  else if i ≤ s.max ∧ chunkBase s.cfg.n i < s.L then
    readBytes s (chunkBase s.cfg.n i) (chunkLen s.cfg.n s.L i)
  else .refused .chunkIndexBeyondMax

/-- The domain of `PAD` and `FRAME` (R97). -/
def inComposerDomain (c : Config) (l : List Byte) : Run Unit :=
  if !chunkSizeOk c then .refused .badN
  else if 1 ≤ l.length ∧ l.length ≤ c.n then .next ()
  else .refused .badChunkLen

/-- `pad(c)` inside its domain (R91). -/
def padRun (c : Config) (l : List Byte) : Run (List Byte) :=
  bindRun (inComposerDomain c l) fun _ => .next (padBytes c.n l)

/-- `cksum(p)`, which leaves the checksum in `acc` (R92, 10_state.md R12). -/
def cksumRun (p : List Byte) (s : State) : Run (Byte × State) :=
  if !chunkSizeOk s.cfg then .refused .badN
  else if p.length = s.cfg.n then .next (cksumByte p, { s with acc := cksumByte p })
  else .refused .badChunkLen

/-- `frame(c)`, which writes `FB[0..N]` (R93). -/
def frameRun (l : List Byte) (s : State) : Run (List Byte × State) :=
  bindRun (padRun s.cfg l) fun p =>
  bindRun (cksumRun p s) fun r =>
  .next (p ++ [r.1], { r.2 with FB := p ++ [r.1] })

/-! ## Streams (20_memory.md R51) -/

/-- `emit`: one event after those emitted so far (00_scope.md R8). -/
def emit (o : Output) (s : State) : State := { s with out := s.out ++ [o] }

/-- The TX pacer takes over a frame: from here on it owns its characters (41_transport_encoder.md R112). -/
def pacerAccept (x : TxFrame) (s : State) : State :=
  { s with backlog := s.backlog ++ [b64Chars x.bytes] }

/-- `emit TxFrame(i, f, r)`: the event, and its hand-over to the TX pacer, which is atomic (20_memory.md R46). -/
def handOver (x : TxFrame) (s : State) : State := pacerAccept x (emit (.txFrame x) s)

/-! ## Sequencer sub-operations (43_transfer_sequencer.md) -/

/-- The log event of a send (R162). -/
def sendLog (r : Bool) (i : Nat) : LogEvent := if r then .repeated i else .send i

/-- `send(r)` (R162): `SENDING`, slice, compose, hand over, log, `AWAIT`. -/
def send (r : Bool) (s : State) : Run State :=
  bindRun (chunkAt { s with st := .sending } s.idx) fun c =>
  bindRun (frameRun c { s with st := .sending }) fun q =>
  .next { emit (.log (sendLog r s.idx)) (handOver ⟨s.idx, q.1, r⟩ q.2) with st := .await }

/-- `finish()` (R172): log completion, close the transport, exit status 0, `DONE`. -/
def finish (s : State) : State :=
  { emit .trClose (emit (.log .done) s) with exitCode := some 0, st := .done }

/-- `L <- cfg_len` (R161). For a `cfg_len` above `2^ADDRW`, no legal level of the port (10_state.md R17), the spec states no
result: `L` takes a free value of the lengths that 10_state.md R14 admits, and not 0, which is the length of an empty payload
only (60_exceptions.md R211); a DESIGN CHOICE (log 37). -/
def latchLen (s : State) : State :=
  if s.cfgLen ≤ 2 ^ s.cfg.addrW then { s with L := s.cfgLen }
  else { s with L := 1 + Config.freeLen s.fresh % 2 ^ s.cfg.addrW, fresh := s.fresh + 1 }

/-- `max <- ceil(L / N) - 1` (R161). Where `chunkCount` does not fit the register's range the spec states no value, and
`max` takes a free one (log 13). -/
def latchMax (s : State) : State :=
  if chunkCount s.cfg.n s.L ≤ 2 ^ s.cfg.idxW then { s with max := chunkCount s.cfg.n s.L - 1 }
  else { s with max := Config.freeMax s.fresh % 2 ^ s.cfg.idxW, fresh := s.fresh + 1 }

/-! ## Index Cursor (44_index_cursor.md) -/

/-- `get()` (R200). -/
def cursorGet (s : State) : Nat := s.idx

/-- `increase()` (R201): `None` at `max`, else the new index. -/
def cursorIncrease (s : State) : Option Nat × State :=
  if s.idx = s.max then (none, s) else (some (s.idx + 1), { s with idx := s.idx + 1 })

/-! ## Fault entry, and the way back (60_exceptions.md) -/

/-- `raise <Fault>()`: the sticky code and nothing else; what the step assigned before is kept (R212). -/
def raiseFault (f : FaultCode) (s : State) : State := { s with fault := f }

/-- `RESET` (70_reset_and_hazards.md R250), the only way out of a fault and of `DONE` (60_exceptions.md R228). `max`, `L`,
`FB` and `acc` are unspecified afterwards: free values (log 5). The streams, the payload memory, `cfg_len` and the TX pacer
are outside its reach. -/
def resetBlock (s : State) : State :=
  { s with
    st := .idle
    idx := 0
    cls := .E
    lbuf := []
    fault := .none
    exitCode := none
    max := Config.freeMax s.fresh % 2 ^ s.cfg.idxW
    L := Config.freeLen s.fresh % 2 ^ (s.cfg.addrW + 1)
    FB := (List.range (s.cfg.n + 1)).map (Config.freeFB s.fresh)
    acc := Config.freeAcc s.fresh
    fresh := s.fresh + 1 }

/-! ## Classifier (42_ack_classifier.md) -/

/-- A byte of a class other than the delimiter's (R137 to R140), under the gate of R142. -/
def takeByte (q : ByteClass) (b : Byte) (s : State) : State :=
  if s.waiting then { s with cls := clsNext s.cls q, lbuf := appendLbuf s.cfg s.lbuf b } else s

/-- The line is over: `cls <- E`, `lbuf <- []` (R136). -/
def clearLine (s : State) : State := { s with cls := .E, lbuf := [] }

/-! ## TX pacer (41_transport_encoder.md) -/

/-- The backlog after one character of a transmission is off; a transmission with no character left is over. -/
def advanceJob (backlog : List (List Byte)) (job : Nat) (rest : List Byte) : List (List Byte) :=
  match rest with
  | [] => backlog.eraseIdx job
  | _ :: _ => backlog.set job rest

/-- A report of the pacer comes to the block after `delay` more inputs (log 9). -/
def report (delay : Nat) (e : BlockEvent) (inputs : List Input) : List Input :=
  inputs.take delay ++ .event e :: inputs.drop delay

/-- The pacer writes the next character of a transmission; the last one is reported on `tx_done` (R112, R114). -/
def pacerWrite (job delay : Nat) (s : State) : Run State :=
  match s.backlog[job]? with
  | some (ch :: rest) =>
    .next { s with
      sink := s.sink ++ [ch]
      backlog := advanceJob s.backlog job rest
      inputs := if rest = [] then report delay .txDone s.inputs else s.inputs }
  | some [] => .refused .noSuchTransmission
  | none => .refused .noSuchTransmission

/-- A write fails: it is reported on `wr_err`, the character is not written again, the pacer goes on with the next (R113). -/
def pacerFail (job delay : Nat) (s : State) : Run State :=
  match s.backlog[job]? with
  | some (_ :: rest) =>
    .next { s with
      backlog := advanceJob s.backlog job rest
      inputs := report delay .wrErr s.inputs }
  | some [] => .refused .noSuchTransmission
  | none => .refused .noSuchTransmission

end Sys2Proof.Machine
end

