-- ==== Sys2Proof/Machine/Sequencer.lean ====
section
/-! DEFINITION. Meanings of the transfer sequencer's operations (43_transfer_sequencer.md R161 to R168), and the hand-over
of a signal to it. An operation in a state that does not select it is refused by name (log 21). -/

namespace Sys2Proof.Machine

/-- `SEQ.START` (R161). -/
def execSeqStart (s : State) : Run State :=
  if s.st = .idle ∧ s.fault = .none then
    if (latchLen s).L = 0 then .next (raiseFault .emptyPayload (latchLen s))
    else send false { latchMax (latchLen s) with idx := 0 }
  else .refused .notSelected

/-- `SEQ.SEND` (R162): a sub-operation, in any state. -/
def execSeqSend (r : Bool) (s : State) : Run State := send r s

/-- `SEQ.ADVANCE` (R163): the cursor moves before the chunk is read. -/
def execSeqAdvance (s : State) : Run State :=
  if s.waiting ∧ s.idx < s.max then send false (cursorIncrease s).2
  else .refused .notSelected

/-- `SEQ.FINISH` (R164): `increase()` answers `None` and leaves `idx`. -/
def execSeqFinish (s : State) : Run State :=
  if s.waiting ∧ s.idx = s.max then .next (finish (cursorIncrease s).2)
  else .refused .notSelected

/-- `SEQ.RETRY` (R165): chunk `get()` again, with the repeat bit. -/
def execSeqRetry (s : State) : Run State :=
  if s.waiting ∧ (cursorGet s ≠ 0 ∨ s.cfg.retryIdx0 = true) then send true s
  else .refused .notSelected

/-- `SEQ.NAK0` (R166): the reference policy reads index 0 as "no index available". -/
def execSeqNak0 (s : State) : Run State :=
  if s.waiting ∧ cursorGet s = 0 ∧ s.cfg.retryIdx0 = false then .next (finish s)
  else .refused .notSelected

/-- `SEQ.DIAG` (R167): surfaced, and nothing else. -/
def execSeqDiag (t : List Byte) (s : State) : Run State :=
  if s.waiting then .next (emit (.log (.diag t)) s) else .refused .notSelected

/-- `SEQ.IGNORE` (R168): changes no state and emits nothing. -/
def execSeqIgnore (s : State) : Run State := .next s

/-- The sequencer's reaction to a signal, inside the step that produced it (R160): exactly one of R163 to R167. -/
def handSignal (g : Signal) (s : State) : Run State :=
  match reaction s.cfg s.view g with
  | .ok .advance => execSeqAdvance s
  | .ok .finish => execSeqFinish s
  | .ok .retry => execSeqRetry s
  | .ok .nak0 => execSeqNak0 s
  | .ok (.diag t) => execSeqDiag t s
  | .ok .ignore => execSeqIgnore s
  | .error e => .refused (.rejected e)

end Sys2Proof.Machine
end

