-- ==== Sys2Proof/Machine/Classifier.lean ====
section
/-! DEFINITION. Meanings of the Ack classifier's operations (42_ack_classifier.md): the reference functions on lines, and
the machine that consumes one byte a step. A signal is handed to the sequencer in the same step (R136; log 22). -/

namespace Sys2Proof.Machine

/-- `LINE.SPLIT` (R130). -/
def execLineSplit (bs : List Byte) (s : State) : Run State :=
  .next { s with result := .lines (splitLines s.cfg [] bs).1 (splitLines s.cfg [] bs).2 }

/-- `TRIM` (R131). -/
def execTrim (l : List Byte) (s : State) : Run State :=
  .next { s with result := .bytes (trimBytes s.cfg l) }

/-- `ACK.K` (R132): Success goes to the sequencer. -/
def execAckK (s : State) : Run State := handSignal .success s

/-- `ACK.F` (R133): Failure goes to the sequencer. -/
def execAckF (s : State) : Run State := handSignal .failure s

/-- `LINE.DIAG` (R134): Diagnostic goes to the sequencer. -/
def execLineDiag (t : List Byte) (s : State) : Run State := handSignal (.diag t) s

/-- `RXB.DELIM` (R136): the signal of the line, `cls` and `lbuf` cleared before the sequencer reacts. -/
def execRxbDelim (s : State) : Run State :=
  if s.waiting then handSignal (lineSignal s.cfg s.cls s.lbuf) (clearLine s) else .next s

/-- `RXB.WS` (R137). -/
def execRxbWs (b : Byte) (s : State) : Run State := .next (takeByte .ws b s)

/-- `RXB.K` (R138). -/
def execRxbK (s : State) : Run State := .next (takeByte .k s.cfg.ackOk s)

/-- `RXB.F` (R139). -/
def execRxbF (s : State) : Run State := .next (takeByte .f s.cfg.ackFail s)

/-- `RXB.OTHER` (R140). -/
def execRxbOther (b : Byte) (s : State) : Run State := .next (takeByte .other b s)

end Sys2Proof.Machine
end

