-- ==== Sys2Proof/Machine/Composer.lean ====
section
/-! DEFINITION. Meanings of the Frame composer's operations (40_frame_composer.md): `CHUNK`, `PAD`, `CKSUM`, `FRAME`. Each
leaves its value in `result` (log 10). -/

namespace Sys2Proof.Machine

/-- `CHUNK` (R90). -/
def execChunk (i : Nat) (s : State) : Run State :=
  bindRun (chunkAt s i) fun c => .next { s with result := .bytes c }

/-- `PAD` (R91). -/
def execPad (c : List Byte) (s : State) : Run State :=
  bindRun (padRun s.cfg c) fun p => .next { s with result := .bytes p }

/-- `CKSUM` (R92): the checksum is also left in `acc`. -/
def execCksum (p : List Byte) (s : State) : Run State :=
  bindRun (cksumRun p s) fun r => .next { r.2 with result := .byte r.1 }

/-- `FRAME` (R93): the frame is also left in `FB`. -/
def execFrame (c : List Byte) (s : State) : Run State :=
  bindRun (frameRun c s) fun r => .next { r.2 with result := .bytes r.1 }

end Sys2Proof.Machine
end

