-- ==== Sys2Proof/Machine/Cursor.lean ====
section
/-! DEFINITION. Meanings of the Index Cursor's operations (44_index_cursor.md): `CUR.GET` and `CUR.INC`. -/

namespace Sys2Proof.Machine

/-- `CUR.GET` (R200): does not mutate state; 0 is a valid index. -/
def execCurGet (s : State) : Run State :=
  .next { s with result := .index (cursorGet s) }

/-- `CUR.INC` (R201). -/
def execCurInc (s : State) : Run State :=
  .next { (cursorIncrease s).2 with result := .optIndex (cursorIncrease s).1 }

end Sys2Proof.Machine
end

