-- ==== Sys2Proof/Machine/Encoder.lean ====
section
/-! DEFINITION. Meanings of the transport encoder's operations (41_transport_encoder.md): `B64` and `TX`. -/

namespace Sys2Proof.Machine

/-- `B64` (R110): total on byte sequences of any length. -/
def execB64 (f : List Byte) (s : State) : Run State :=
  .next { s with result := .bytes (b64Chars f) }

/-- `TX` (R112, R113): the pacer takes over a frame, writes a character, or fails to. -/
def execTx (a : TxAct) (s : State) : Run State :=
  match a with
  | .accept x => .next (pacerAccept x s)
  | .write job delay => pacerWrite job delay s
  | .fail job delay => pacerFail job delay s

end Sys2Proof.Machine
end

