-- ==== Sys2Proof/Machine/Platform.lean ====
section
/-! DEFINITION. Meanings of the event ports with an operation of their own: `WRERR` (60_exceptions.md R216) and `RESET`
(70_reset_and_hazards.md R250). -/

namespace Sys2Proof.Machine

/-- `WRERR` (R216): logged, unless the block is faulted or `DONE`. -/
def execWrErr (s : State) : Run State :=
  if s.fault = .none ∧ s.st ≠ .done then .next (emit (.log .wrErr) s) else .next s

/-- `RESET` (R250): accepted in every state, faulted or not. -/
def execReset (s : State) : Run State := .next (resetBlock s)

end Sys2Proof.Machine
end

