-- ==== Sys2Proof/Machine/Dispatch.lean ====
section
/-! DEFINITION. One arm per operation. -/

namespace Sys2Proof.Machine

def exec (i : Instr) (s : State) : Host.Outcome State Fault Refusal :=
  match i with
  | .chunk k => Sys2Proof.Machine.execChunk k s
  | .pad c => Sys2Proof.Machine.execPad c s
  | .cksum p => Sys2Proof.Machine.execCksum p s
  | .frame c => Sys2Proof.Machine.execFrame c s
  | .b64 f => Sys2Proof.Machine.execB64 f s
  | .tx a => Sys2Proof.Machine.execTx a s
  | .lineSplit bs => Sys2Proof.Machine.execLineSplit bs s
  | .trim l => Sys2Proof.Machine.execTrim l s
  | .ackK => Sys2Proof.Machine.execAckK s
  | .ackF => Sys2Proof.Machine.execAckF s
  | .lineDiag t => Sys2Proof.Machine.execLineDiag t s
  | .rxbDelim => Sys2Proof.Machine.execRxbDelim s
  | .rxbWs b => Sys2Proof.Machine.execRxbWs b s
  | .rxbK => Sys2Proof.Machine.execRxbK s
  | .rxbF => Sys2Proof.Machine.execRxbF s
  | .rxbOther b => Sys2Proof.Machine.execRxbOther b s
  | .seqStart => Sys2Proof.Machine.execSeqStart s
  | .seqSend r => Sys2Proof.Machine.execSeqSend r s
  | .seqAdvance => Sys2Proof.Machine.execSeqAdvance s
  | .seqFinish => Sys2Proof.Machine.execSeqFinish s
  | .seqRetry => Sys2Proof.Machine.execSeqRetry s
  | .seqNak0 => Sys2Proof.Machine.execSeqNak0 s
  | .seqDiag t => Sys2Proof.Machine.execSeqDiag t s
  | .seqIgnore => Sys2Proof.Machine.execSeqIgnore s
  | .curGet => Sys2Proof.Machine.execCurGet s
  | .curInc => Sys2Proof.Machine.execCurInc s
  | .wrErr => Sys2Proof.Machine.execWrErr s
  | .reset => Sys2Proof.Machine.execReset s

end Sys2Proof.Machine
end

