-- ==== Sys2Proof/Machine/Fetch.lean ====
section
/-! DEFINITION. Taking the next input (43_transfer_sequencer.md R160): which operation it selects, or what the host's act
leaves; and placing a table word there. -/

namespace Sys2Proof.Machine

/-- What the next input comes to: an operation and the state it runs in, a host's act that is over, or no step. -/
inductive Fetched where
  | op (i : Instr) (s : State)
  | host (s : State)
  | stop (r : Refusal)
  deriving DecidableEq, Repr

/-- An input event of the block selects an operation (30_encoding.md R76); `rest` is what comes after it. -/
def deliver (e : BlockEvent) (rest : List Input) (s : State) : Fetched :=
  match decode s.cfg (.seq s.view (.input e)) with
  | .ok i => .op i { s with inputs := rest }
  | .error d => .stop (.rejected d)

/-- Take the first input. -/
def fetch (s : State) : Fetched :=
  match s.inputs with
  | [] => .stop .noEventPending
  | .event e :: rest => deliver e rest s
  | .together x :: rest =>
    match serialise x with
    | [] => .host { s with inputs := rest }
    | e :: es => deliver e (es.map .event ++ rest) s
  | .len l :: rest => .host { s with cfgLen := l, inputs := rest }
  | .mem bs :: rest =>
    if bs.length ≤ 2 ^ s.cfg.addrW then .host { s with mem := Memory.load bs, inputs := rest }
    else .stop .payloadTooLong
  | .pacerWrite job delay :: rest => .op (.tx (.write job delay)) { s with inputs := rest }
  | .pacerFail job delay :: rest => .op (.tx (.fail job delay)) { s with inputs := rest }

/-- An inbound byte comes next, and the block is one that consumes it: `st = AWAIT`, no fault (log 23). A width that is no
selector changes nothing. -/
def placeWord (nbits w : Nat) (s : State) : State :=
  if nbits = 8 then
    { s with
      st := .await
      fault := .none
      inputs := .event (.rxByte (BitVec.ofNat 8 w)) :: s.inputs }
  else s

end Sys2Proof.Machine
end

