-- ==== Sys2Proof/Machine/Step.lean ====
section
/-! DEFINITION. One atomic step: the next input is taken and its operation runs to completion (43_transfer_sequencer.md
R160). -/

namespace Sys2Proof.Machine

/-- One step of the machine. -/
def step (s : State) : Host.Outcome State Fault Refusal :=
  match fetch s with
  | .op i t => exec i t
  | .host t => .next t
  | .stop r => .refused r

/-- The state with a table word as its next input (log 23). -/
def State.withFetchWord (s : State) (nbits w : Nat) : State := placeWord nbits w s

end Sys2Proof.Machine
end

