-- ==== Sys2Proof/Safety.lean ====
section
/-! DEFINITION. What the statements are said in: the launch premises (70_reset_and_hazards.md R253), the invariants of
10_state.md R24, the ends of a run (70_reset_and_hazards.md R266). -/

namespace Sys2Proof.Machine

/-- The payload memory holds a byte at each of the first `l` addresses (R253 L2, `payload-loaded`). -/
abbrev PayloadLoaded (s : State) (l : Nat) : Prop := ∀ a, a < l → (s.mem.read a).isSome

/-- The payload memory holds every byte of chunk `i` of a payload of `l` bytes (20_memory.md R41). -/
abbrev ChunkLoaded (s : State) (l i : Nat) : Prop :=
  ∀ j, j < chunkLen s.cfg.n l i → (s.mem.read (chunkBase s.cfg.n i + j)).isSome

/-- The byte at an address, zero where there is none; used only where there is one. -/
def payloadByte (s : State) (a : Nat) : Byte := (s.mem.read a).getD 0

/-- The bytes of chunk `i` of a payload of `l` bytes as the payload memory holds them (20_memory.md R41). -/
def chunkBytes (s : State) (l i : Nat) : List Byte :=
  (List.range (chunkLen s.cfg.n l i)).map fun j => payloadByte s (chunkBase s.cfg.n i + j)

/-- What `send(r)` leaves where the chunk at `idx` can be read (43_transfer_sequencer.md R162): the checksum in `acc`, the
frame in `FB`, the `TxFrame` event and then the log event, the frame's text in the TX pacer's hands, `AWAIT`; everything
else as it was. -/
def afterSend (r : Bool) (s : State) : State :=
  { s with
    st := .await
    acc := cksumByte (padBytes s.cfg.n (chunkBytes s s.L s.idx))
    FB := frameBytes s.cfg.n (chunkBytes s s.L s.idx)
    out := s.out ++ [.txFrame ⟨s.idx, frameBytes s.cfg.n (chunkBytes s s.L s.idx), r⟩,
      .log (if r then .repeated s.idx else .send s.idx)]
    backlog := s.backlog ++ [b64Chars (frameBytes s.cfg.n (chunkBytes s s.L s.idx))] }

/-- What `finish()` leaves (43_transfer_sequencer.md R172): `LogDone`, then `tr_close`, `exit_code` valid and 0, `DONE`;
everything else as it was. -/
def afterFinish (s : State) : State :=
  { s with st := .done, exitCode := some 0, out := s.out ++ [.log .done, .trClose] }

/-- The chunk at `idx` can be read: the chunk size is legal, `idx` is a chunk's index, the chunk is loaded. -/
abbrev CanSend (s : State) : Prop :=
  1 ≤ s.cfg.n ∧ s.cfg.n ≤ 8 ∧ s.idx ≤ s.max ∧ chunkBase s.cfg.n s.idx < s.L ∧ ChunkLoaded s s.L s.idx

/-- The session registers fit each other: `max` is the last chunk's index wherever that fits the register, and some index of
a chunk otherwise (10_state.md R24 ii; log 13). -/
abbrev MaxFits (c : Config) (l mx : Nat) : Prop :=
  if chunkCount c.n l ≤ 2 ^ c.idxW then mx = chunkCount c.n l - 1
  else mx < chunkCount c.n l ∧ mx < 2 ^ c.idxW

/-- The invariants of 10_state.md R24 that speak of one state, i to iv, and what R10, R12, R17, R22 and R212 say of the
registers they do not mention. -/
structure Inv (s : State) : Prop where
  cfgWf : s.cfg.Wf
  /-- R24 i. -/
  notSending : s.st ≠ .sending
  /-- R24 ii. -/
  session : s.st ≠ .idle → 1 ≤ s.L ∧ s.L ≤ 2 ^ s.cfg.addrW ∧ MaxFits s.cfg s.L s.max ∧ s.idx ≤ s.max
  /-- R24 iii. -/
  idleClear : s.st = .idle → s.idx = 0 ∧ s.cls = .E ∧ s.lbuf = []
  /-- R24 iv: `cls` and `lbuf` are clear in `DONE`. -/
  doneClear : s.st = .done → s.cls = .E ∧ s.lbuf = []
  /-- R212: a fault is raised in `IDLE`. -/
  faultIdle : s.fault ≠ .none → s.st = .idle
  /-- R17: `exit_code` is valid exactly when `done`, and then 0. -/
  exitValid : s.exitCode = if s.st = .done then some 0 else none
  /-- R10: the widths of the registers. -/
  maxWidth : s.max < 2 ^ s.cfg.idxW
  lenWidth : s.L < 2 ^ (s.cfg.addrW + 1)
  frameWidth : s.FB.length = s.cfg.n + 1
  /-- R143: `lbuf` holds at most `LINE_MAX` bytes. -/
  lineWidth : ∀ m, s.cfg.lineMax = some m → s.lbuf.length ≤ m
  memWf : s.mem.wf
  /-- R40: an address of the payload memory has `ADDRW` bits. -/
  memRange : ∀ a b, s.mem.read a = some b → a < 2 ^ s.cfg.addrW
  /-- An unfinished transmission has a character left. -/
  backlogOpen : [] ∉ s.backlog

/-- The block event the next step takes, if it takes one. -/
def State.nextEvent (s : State) : Option BlockEvent :=
  match s.inputs with
  | [] => none
  | .event e :: _ => some e
  | .together x :: _ => (serialise x).head?
  | .len _ :: _ => none
  | .mem _ :: _ => none
  | .pacerWrite _ _ :: _ => none
  | .pacerFail _ _ :: _ => none

/-- The signal that an input event produces in a state, if it completes a line there (42_ack_classifier.md R136, R142). -/
def State.signalOf (s : State) (e : BlockEvent) : Option Signal :=
  match e with
  | .rxByte b =>
    if s.waiting ∧ byteClass s.cfg b = .delim then some (lineSignal s.cfg s.cls s.lbuf) else none
  | .reset => none
  | .start => none
  | .wrErr => none
  | .txDone => none

/-- The bytes of a line as the inputs that deliver them. -/
def rxInputs (bs : List Byte) : List Input := bs.map fun b => .event (.rxByte b)

/-- The signals the four-state machine emits over consumed bytes, in order, from a value of `cls` and `lbuf`
(42_ack_classifier.md R135 to R140). -/
def machineSignals (c : Config) : Cls → List Byte → List Byte → List Signal
  | _, _, [] => []
  | cls, lbuf, b :: bs =>
    if byteClass c b = .delim then lineSignal c cls lbuf :: machineSignals c .E [] bs
    else machineSignals c (clsNext cls (byteClass c b)) (appendLbuf c lbuf b) bs

/-- The bytes of a line that `lbuf` keeps (42_ack_classifier.md R143). -/
def keptBytes (c : Config) (line : List Byte) : List Byte :=
  match c.lineMax with
  | none => line
  | some m => line.take m

/-- A verdict with the text that is surfaced: of a diagnostic, the trimmed bytes that were kept (42_ack_classifier.md R143);
with an infinite `LINE_MAX`, the trimmed line. -/
def surfaced (c : Config) (line : List Byte) : Signal :=
  match classifyLine c line with
  | .success => .success
  | .failure => .failure
  | .diag _ => .diag (trimBytes c (keptBytes c line))

/-- The operation of a verdict (30_encoding.md R64). -/
def signalInstr : Signal → Instr
  | .success => .ackK
  | .failure => .ackF
  | .diag t => .lineDiag t

/-! ## The ends of a run (70_reset_and_hazards.md R266) -/

/-- The block events that one input brings, in the order the steps take them. -/
def Input.events : Input → List BlockEvent
  | .event e => [e]
  | .together y => serialise y
  | .len _ => []
  | .mem _ => []
  | .pacerWrite _ _ => []
  | .pacerFail _ _ => []

/-- The block events that the inputs bring, in the order the steps take them. -/
def eventsAhead (inputs : List Input) : List BlockEvent :=
  inputs.flatMap Input.events

/-- The byte that an event brings in, where it brings one. -/
def BlockEvent.inbound : BlockEvent → Option Byte
  | .rxByte b => some b
  | .reset => none
  | .start => none
  | .wrErr => none
  | .txDone => none

/-- The inbound bytes that are still to come, up to the next `reset`. -/
def rxAhead (inputs : List Input) : List Byte :=
  ((eventsAhead inputs).takeWhile (· ≠ .reset)).filterMap BlockEvent.inbound

/-- Success or Failure. -/
def Signal.isAck : Signal → Bool
  | .success => true
  | .failure => true
  | .diag _ => false

/-- A byte sequence that completes a `k` or `f` line is still to come (R266, Stalled). -/
def State.ackAhead (s : State) : Bool :=
  (machineSignals s.cfg s.cls s.lbuf (rxAhead s.inputs)).any Signal.isAck

/-- Where a run stands, with the inputs as all that is still to come. -/
inductive RunStatus where
  | completed | faulted | stalled | waiting | notStarted | inStep
  deriving DecidableEq, Repr

/-- By `st` and `fault`; an `AWAIT` that no acknowledgment will end is a stall, any other waits. Retrying for ever is the end
of an infinite run and of no state: `RetriesForEver`. -/
def State.status (s : State) : RunStatus :=
  if s.fault ≠ .none then .faulted
  else
    match s.st with
    | .idle => .notStarted
    | .sending => .inStep
    | .await => if s.ackAhead then .waiting else .stalled
    | .done => .completed

/-- More inputs come behind those still pending. -/
def State.fed (s : State) (more : List Input) : State := { s with inputs := s.inputs ++ more }

/-- A run in an environment that never ends: before step `k`, what `env k` brings comes behind the inputs still pending. -/
def fedRun (env : Nat → List Input) : Nat → State → Run State
  | 0, s => .next s
  | k + 1, s => bindRun (fedRun env k s) fun t => step (t.fed (env k))

/-- Retrying for ever (R266, R262): an infinite run that never completes and, however far it has come, retransmits again. -/
def RetriesForEver (env : Nat → List Input) (s : State) : Prop :=
  (∀ k, ∃ t, fedRun env k s = .next t ∧ t.status ≠ .completed) ∧
  ∀ k, ∃ j t u, k ≤ j ∧ fedRun env j s = .next t ∧ fedRun env (j + 1) s = .next u ∧ t.st = .await ∧ u.st = .await ∧
    u.idx = t.idx ∧ ∃ f, u.txStream = t.txStream ++ [⟨t.idx, f, true⟩]

/-- The receiver that answers every frame with a Failure line: its bytes come before every other step. -/
def alwaysFails (c : Config) (k : Nat) : List Input :=
  if k % 2 = 0 then rxInputs [c.ackFail, c.delim] else []

/-- How many characters the text of a frame has (41_transport_encoder.md R110: `4 * ceil((N+1)/3)`). -/
def textLen (c : Config) : Nat := 4 * ((c.n + 3) / 3)

/-- The receiver that answers every frame with a Failure line once the TX pacer has written the whole text: the line, the
writes of the frame it makes the block send again, and the last one's report, `textLen c + 3` steps. -/
def failsEveryText (c : Config) (k : Nat) : List Input :=
  if k % (textLen c + 3) = 0 then
    rxInputs [c.ackFail, c.delim] ++ List.replicate (textLen c) (.pacerWrite 0 0)
  else []

/-! ## Runs -/

/-- `w` is an interleaving of the sequences `ls`: each in its own order, each element exactly once. -/
inductive Interleaves : List (List Byte) → List Byte → Prop where
  | nil {ls : List (List Byte)} (h : ∀ l ∈ ls, l = []) : Interleaves ls []
  | cons {ls : List (List Byte)} {ch : Byte} {rest w : List Byte} (j : Nat) (h : ls[j]? = some (ch :: rest))
      (t : Interleaves (ls.set j rest) w) : Interleaves ls (ch :: w)

/-- The TX pacer between two states of a run (41_transport_encoder.md R112, R113, R115): the transmissions of the first state
and of the frames handed over on the way are each a part taken and a part left; the backlog of the second state is the parts
left that are not empty; and the sink has gained an interleaving of the characters written, which are among those taken. -/
structure PacerProgress (s t : State) (written taken left : List (List Byte)) : Prop where
  split : ∃ frames, t.txStream = s.txStream ++ frames ∧ taken.length = left.length ∧
    List.zipWith (· ++ ·) taken left = s.backlog ++ frames.map fun x => b64Chars x.bytes
  backlog : t.backlog = left.filter (· ≠ [])
  sink : ∃ w, t.sink = s.sink ++ w ∧ Interleaves written w
  amongTaken : List.Forall₂ List.Sublist written taken

/-- The next step is the TX pacer's, and it takes up a character of the oldest unfinished transmission: it writes the character,
or fails to (41_transport_encoder.md R112, R113). -/
abbrev ServesOldest (s : State) : Prop :=
  ∃ d, s.inputs.head? = some (.pacerWrite 0 d) ∨ s.inputs.head? = some (.pacerFail 0 d)

/-- Weak fairness of the TX pacer, the premise `pacer-fair` (41_transport_encoder.md R112; 70_reset_and_hazards.md R253 L6,
R265): as long as a character is unwritten, a later step takes up a character of the transmission that is the oldest. Every
transmission comes to be the oldest, so every character of every frame is taken up in the end (log 39). -/
def PacerFair (env : Nat → List Input) (s : State) : Prop :=
  ∀ k t, fedRun env k s = .next t → t.backlog ≠ [] →
    ∃ j u, k ≤ j ∧ fedRun env j s = .next u ∧ ServesOldest (u.fed (env j))

/-- The sink keeps accepting writes (41_transport_encoder.md R112): no write of the run fails. -/
def SinkAccepts (env : Nat → List Input) (s : State) : Prop :=
  ∀ j d, Input.pacerFail j d ∉ s.inputs ∧ ∀ k, Input.pacerFail j d ∉ env k

/-- As many steps, stopping at the first fault or refusal. -/
def runSteps : Nat → State → Run State
  | 0, s => .next s
  | m + 1, s => bindRun (step s) (runSteps m)

/-- The `TxFrame` event of a first transmission of chunk `i` of the session in `s` (43_transfer_sequencer.md R162). -/
def firstFrame (s : State) (i : Nat) : TxFrame := ⟨i, frameBytes s.cfg.n (chunkBytes s s.L i), false⟩

/-- The part of the state that the block has: all but the TX pacer's (10_state.md R20 b), the inputs to come and the model's
own two fields. -/
structure BlockPart where
  cfg : Config
  st : St
  idx : Nat
  max : Nat
  L : Nat
  cls : Cls
  lbuf : List Byte
  FB : List Byte
  acc : Byte
  fault : FaultCode
  cfgLen : Nat
  exitCode : Option (BitVec 1)
  out : List Output
  mem : Memory
  deriving DecidableEq, Repr

/-- The block's part of a state. -/
def State.block (s : State) : BlockPart :=
  ⟨s.cfg, s.st, s.idx, s.max, s.L, s.cls, s.lbuf, s.FB, s.acc, s.fault, s.cfgLen, s.exitCode, s.out, s.mem⟩

end Sys2Proof.Machine
end

