-- ==== Sys2Proof/Certificates/Slice0/Obligations.lean ====
section
/-! DEFINITION. The statements for the provers, by file of the spec. -/

open Sys2Proof Sys2Proof.Machine

/-! ## Selection (30_encoding.md) -/

/-- A well-formed operation with a selector is the one its selector selects (R63, R64, R76), whatever its operands and the
parameters. -/
def Obligations.SelectorRoundTrip : Prop :=
  ∀ (i : Instr) (c : Config) (x : Selector), c.Wf → wellFormed c i = true → encode c i = some x →
    decode c x = .ok i

/-- Words written out from the spec's encodings decode to their operations: the byte table of R63, the lines of R64 and
R71 c, cells of the transition table (43_transfer_sequencer.md R171). -/
def Obligations.SpecWordsDecode : Prop :=
  decode Config.reference (.rxb 0b00001010) = .ok .rxbDelim ∧
  decode Config.reference (.rxb 0b00001001) = .ok (.rxbWs 0x09) ∧
  decode Config.reference (.rxb 0b00100000) = .ok (.rxbWs 0x20) ∧
  decode Config.reference (.rxb 0b01101011) = .ok .rxbK ∧
  decode Config.reference (.rxb 0b01100110) = .ok .rxbF ∧
  decode Config.reference (.rxb 0b01001011) = .ok (.rxbOther 0x4B) ∧
  decode Config.reference (.line [0b01101011]) = .ok .ackK ∧
  decode Config.reference (.line [0b01100110]) = .ok .ackF ∧
  decode Config.reference (.line [0b01101011, 0b01101011]) = .ok (.lineDiag [0x6B, 0x6B]) ∧
  decode Config.reference (.line []) = .ok (.lineDiag []) ∧
  decode Config.reference (.seq ⟨.idle, false, .atMax, true⟩ (.input .start)) = .ok .seqStart ∧
  decode Config.reference (.seq ⟨.await, false, .below, true⟩ (.signal .success)) = .ok .seqAdvance ∧
  decode Config.reference (.seq ⟨.await, false, .atMax, false⟩ (.signal .success)) = .ok .seqFinish ∧
  decode Config.reference (.seq ⟨.await, false, .below, true⟩ (.signal .failure)) = .ok .seqRetry ∧
  decode Config.reference (.seq ⟨.done, false, .atMax, false⟩ (.input .wrErr)) = .ok .seqIgnore ∧
  decode Config.reference (.seq ⟨.idle, true, .atMax, true⟩ (.input .start)) = .ok .seqIgnore ∧
  decode Config.reference (.seq ⟨.idle, true, .atMax, true⟩ (.input .reset)) = .ok .reset

/-- Every byte has the class of the first row of R63 that matches it, for every binding of the parameters. -/
def Obligations.ByteClassIsFirstMatchingRow : Prop :=
  ∀ (c : Config) (b : Byte),
    (b = c.delim → byteClass c b = .delim) ∧
    (b ≠ c.delim → b ∈ c.ws → byteClass c b = .ws) ∧
    (b ≠ c.delim → b ∉ c.ws → b = c.ackOk → byteClass c b = .k) ∧
    (b ≠ c.delim → b ∉ c.ws → b ≠ c.ackOk → b = c.ackFail → byteClass c b = .f) ∧
    (b ≠ c.delim → b ∉ c.ws → b ≠ c.ackOk → b ≠ c.ackFail → byteClass c b = .other)

/-- The trimmed line selects the operation of its classification (R64; 42_ack_classifier.md R132 to R134), for a raw line,
which holds no delimiter. -/
def Obligations.TrimmedLineSelectsItsVerdict : Prop :=
  ∀ (c : Config) (line : List Byte), c.delim ∉ line →
    decode c (.line (trimBytes c line)) = .ok (signalInstr (classifyLine c line))

/-- The complete transition table (43_transfer_sequencer.md R171, with R168 for the faulted block): the operation of every
cell that is not "cannot occur", and of every column of the faulted block. -/
def Obligations.TransitionTable : Prop :=
  ∀ (c : Config) (v : SeqView),
    decodeSeq c v (.input .reset) = .ok .reset ∧
    (v.faulted = true → (∀ e, e ≠ .reset → decodeSeq c v (.input e) = .ok .seqIgnore) ∧
      ∀ g, decodeSeq c v (.signal g) = .ok .seqIgnore) ∧
    (v.faulted = false → v.st = .idle →
      decodeSeq c v (.input .start) = .ok .seqStart ∧
      (∀ b, decodeSeq c v (.input (.rxByte b)) = .ok .seqIgnore) ∧
      decodeSeq c v (.input .wrErr) = .ok .wrErr ∧
      decodeSeq c v (.input .txDone) = .ok .seqIgnore) ∧
    (v.faulted = false → v.st = .await →
      decodeSeq c v (.input .start) = .ok .seqIgnore ∧
      (∀ b, decodeSeq c v (.input (.rxByte b)) = decode c (.rxb b)) ∧
      (v.cursor = .below → decodeSeq c v (.signal .success) = .ok .seqAdvance) ∧
      (v.cursor = .atMax → decodeSeq c v (.signal .success) = .ok .seqFinish) ∧
      (v.idxZero = false ∨ c.retryIdx0 = true → decodeSeq c v (.signal .failure) = .ok .seqRetry) ∧
      (v.idxZero = true → c.retryIdx0 = false → decodeSeq c v (.signal .failure) = .ok .seqNak0) ∧
      (∀ t, decodeSeq c v (.signal (.diag t)) = .ok (.seqDiag t)) ∧
      decodeSeq c v (.input .wrErr) = .ok .wrErr ∧
      decodeSeq c v (.input .txDone) = .ok .seqIgnore) ∧
    (v.faulted = false → v.st = .done → ∀ e, e ≠ .reset → decodeSeq c v (.input e) = .ok .seqIgnore)

/-- The numeric codes of R65, R66, R67, R69 and R70; the flags of 10_state.md R16 and the status ports of R17, as functions
of the registers. -/
def Obligations.CodesFlagsAndStatusPorts : Prop :=
  (sigCode none = 0b00#2 ∧ sigCode (some .success) = 0b01#2 ∧ sigCode (some .failure) = 0b10#2 ∧
    ∀ t, sigCode (some (.diag t)) = 0b11#2) ∧
  (stCode .idle = 0b00#2 ∧ stCode .sending = 0b01#2 ∧ stCode .await = 0b10#2 ∧ stCode .done = 0b11#2) ∧
  (clsCode .E = 0b00#2 ∧ clsCode .K = 0b01#2 ∧ clsCode .F = 0b10#2 ∧ clsCode .X = 0b11#2) ∧
  (faultCode .none = 0b00#2 ∧ faultCode .emptyPayload = 0b01#2) ∧
  (∀ i, logKind (.send i) = 0b000#3 ∧ logKind (.repeated i) = 0b001#3) ∧
  (logKind .done = 0b010#3 ∧ (∀ t, logKind (.diag t) = 0b011#3) ∧ logKind .wrErr = 0b100#3) ∧
  ∀ s : State,
    (s.doneFlag = true ↔ s.st = .done) ∧
    (s.busyFlag = true ↔ s.st = .await ∨ s.st = .sending) ∧
    (s.atMaxFlag = true ↔ s.idx = s.max) ∧
    (s.rxEnFlag = true ↔ s.st = .await) ∧
    (s.faultedFlag = true ↔ s.fault ≠ .none) ∧
    s.stOut = stCode s.st ∧ s.idxOut = s.idx ∧ s.faultOut = faultCode s.fault

/-! ## The step (43_transfer_sequencer.md R160) -/

/-- A step takes the next input: an input event runs the operation it selects, in the state with that event taken off; the
other inputs are the acts of the TX pacer and of the host. -/
def Obligations.StepRunsSelectedOperation : Prop :=
  ∀ (s : State) (rest : List Input),
    (∀ e i, s.inputs = .event e :: rest → decode s.cfg (.seq s.view (.input e)) = .ok i →
      step s = exec i { s with inputs := rest }) ∧
    (∀ e d, s.inputs = .event e :: rest → decode s.cfg (.seq s.view (.input e)) = .error d →
      step s = .refused (.rejected d)) ∧
    (∀ j d, s.inputs = .pacerWrite j d :: rest → step s = exec (.tx (.write j d)) { s with inputs := rest }) ∧
    (∀ j d, s.inputs = .pacerFail j d :: rest → step s = exec (.tx (.fail j d)) { s with inputs := rest }) ∧
    (∀ l, s.inputs = .len l :: rest → step s = .next { s with cfgLen := l, inputs := rest }) ∧
    (s.inputs = [] → step s = .refused .noEventPending)

/-- Events seen at one instant are taken one after another, in the order `reset`, `start`, `wr_err`, `rx_byte`, `tx_done`,
and `reset` discards the others (60_exceptions.md R215). -/
def Obligations.SimultaneousEventsAreSerialised : Prop :=
  (∀ x : Together, x.reset = true → serialise x = [.reset]) ∧
  (∀ (x : Together) (b : Byte), x.reset = false → x.start = true → x.wrErr = true → x.rxByte = some b →
    x.txDone = true → serialise x = [.start, .wrErr, .rxByte b, .txDone]) ∧
  (∀ (x : Together), x.reset = false →
    serialise x = (serialise { x with start := true, wrErr := true, rxByte := some (x.rxByte.getD 0), txDone := true }).filter
      fun e => match e with
        | .reset => false
        | .start => x.start
        | .wrErr => x.wrErr
        | .rxByte _ => x.rxByte.isSome
        | .txDone => x.txDone) ∧
  (∀ (s : State) (x : Together) (rest : List Input), s.inputs = .together x :: rest → serialise x ≠ [] →
    step s = step { s with inputs := (serialise x).map .event ++ rest })

/-- The ignored events (43_transfer_sequencer.md R168): the step takes the event off and changes nothing else. -/
def Obligations.IgnoredEventsChangeNothing : Prop :=
  ∀ (s : State) (e : BlockEvent) (rest : List Input), s.inputs = .event e :: rest → e ≠ .reset →
    (s.fault ≠ .none ∨ s.st = .done ∨ (e = .start ∧ s.st = .await) ∨ ((∃ b, e = .rxByte b) ∧ s.st = .idle) ∨
      (e = .txDone ∧ s.st ≠ .sending)) →
    step s = .next { s with inputs := rest }

/-! ## Payload memory (20_memory.md) -/

/-- No operation writes the payload memory: every byte reads as before (R40). -/
def Obligations.PayloadMemoryIsNeverWritten : Prop :=
  ∀ (i : Instr) (s t : State), exec i s = .next t → ∀ a, t.mem.read a = s.mem.read a

/-- The host's load puts payload byte `a` at payload address `a` (R47) and leaves the canonical form and everything else as
it was; a read at or above `L` is stuck (R40). -/
def Obligations.LoadedPayloadReadsBack : Prop :=
  ∀ (s : State) (bs : List Byte) (rest : List Input), s.inputs = .mem bs :: rest → bs.length ≤ 2 ^ s.cfg.addrW →
    ∃ t, step s = .next t ∧ t.mem.wf ∧ (∀ a, t.mem.read a = bs[a]?) ∧
      t = { s with mem := t.mem, inputs := rest } ∧
      ∀ a, t.L ≤ a → memRead t a = .fault .payloadReadNotAdmitted

/-! ## Frame composer (40_frame_composer.md) -/

/-- `CHUNK` (R90): the bytes at `i*N + j` for `j` below `min(N, L - i*N)`, for an index of a chunk of a loaded payload. -/
def Obligations.ChunkReadsPayloadBytes : Prop :=
  ∀ (s : State) (i : Nat), 1 ≤ s.cfg.n → s.cfg.n ≤ 8 → i ≤ s.max → i * s.cfg.n < s.L → PayloadLoaded s s.L →
    exec (.chunk i) s = .next { s with
      result := .bytes ((List.range (min s.cfg.n (s.L - i * s.cfg.n))).map
        fun j => payloadByte s (i * s.cfg.n + j)) }

/-- `PAD` (R91): the chunk, then zeros to `N` bytes; padding again changes nothing, and a chunk that ends in zeros pads to
what a shorter chunk does (70_reset_and_hazards.md R264). -/
def Obligations.PadAppendsZeros : Prop :=
  ∀ (s : State) (c : List Byte), 1 ≤ s.cfg.n → s.cfg.n ≤ 8 → 1 ≤ c.length → c.length ≤ s.cfg.n →
    exec (.pad c) s = .next { s with result := .bytes (c ++ List.replicate (s.cfg.n - c.length) 0) } ∧
    (c ++ List.replicate (s.cfg.n - c.length) (0 : Byte)).length = s.cfg.n ∧
    padBytes s.cfg.n (padBytes s.cfg.n c) = padBytes s.cfg.n c ∧
    ∀ m, c.length + m ≤ s.cfg.n → padBytes s.cfg.n (c ++ List.replicate m 0) = padBytes s.cfg.n c

/-- `CKSUM` (R92): its value is the closed form, and it is left in `acc` whatever `acc` held (10_state.md R12). -/
def Obligations.ChecksumIsTheClosedForm : Prop :=
  ∀ (s : State) (p : List Byte), 1 ≤ s.cfg.n → s.cfg.n ≤ 8 → p.length = s.cfg.n →
    ∃ k : Byte, exec (.cksum p) s = .next { s with acc := k, result := .byte k } ∧
      k.toNat = ∑ i : Fin p.length, (p[i].getLsbD 0).toNat * 2 ^ (p.length - 1 - i) ∧
      k.toNat < 2 ^ s.cfg.n

/-- The bit order of the checksum (20_memory.md R43): bit `N-1-i` is bit 0 of byte `i`, the bits above are 0, and flipping
bit 0 of byte `i` flips exactly that bit. -/
def Obligations.ChecksumBitOrder : Prop :=
  ∀ p : List Byte, p.length ≤ 8 →
    (∀ i (h : i < p.length), (cksumByte p).getLsbD (p.length - 1 - i) = p[i].getLsbD 0) ∧
    (∀ j, p.length ≤ j → (cksumByte p).getLsbD j = false) ∧
    (∀ i (h : i < p.length),
      cksumByte (p.set i (p[i] ^^^ 1)) = cksumByte p ^^^ ((1 : Byte) <<< (p.length - 1 - i)))

/-- `FRAME` (R93): the padded chunk and the checksum of it, left in `FB`, the checksum in `acc`; nothing else changes. -/
def Obligations.FrameIsPaddedChunkAndChecksum : Prop :=
  ∀ (s : State) (c : List Byte), 1 ≤ s.cfg.n → s.cfg.n ≤ 8 → 1 ≤ c.length → c.length ≤ s.cfg.n →
    exec (.frame c) s = .next { s with
      acc := cksumByte (padBytes s.cfg.n c)
      FB := padBytes s.cfg.n c ++ [cksumByte (padBytes s.cfg.n c)]
      result := .bytes (padBytes s.cfg.n c ++ [cksumByte (padBytes s.cfg.n c)]) }

/-- The layout of a frame (30_encoding.md R61, 20_memory.md R42): `N + 1` bytes; byte `k` below `N` is the chunk's byte `k`,
or zero past its end; the last byte holds the checksum bits, `CK[N-1-i] = Di[0]`, and zeros above them. -/
def Obligations.FrameLayout : Prop :=
  ∀ (n : Nat) (c : List Byte), 1 ≤ n → n ≤ 8 → 1 ≤ c.length → c.length ≤ n →
    (frameBytes n c).length = n + 1 ∧
    (∀ i, i < n → (frameBytes n c)[i]? = some (c.getD i 0)) ∧
    (∀ i, i < n → ((frameBytes n c).getD n 0).getLsbD (n - 1 - i) = (c.getD i 0).getLsbD 0) ∧
    (∀ j, n ≤ j → ((frameBytes n c).getD n 0).getLsbD j = false)

/-- Outside the composer's domain there is no value (R97): `PAD`, `CKSUM` and `FRAME` are refused for a chunk size outside
`1..8` and for a length 0 or above `N`; a slice at an index that is no chunk's has no meaning (R90). -/
def Obligations.ComposerDomain : Prop :=
  ∀ (s : State) (c : List Byte),
    ((s.cfg.n < 1 ∨ 8 < s.cfg.n) →
      exec (.pad c) s = .refused .badN ∧ exec (.cksum c) s = .refused .badN ∧ exec (.frame c) s = .refused .badN) ∧
    (1 ≤ s.cfg.n → s.cfg.n ≤ 8 → (c.length = 0 ∨ s.cfg.n < c.length) →
      exec (.pad c) s = .refused .badChunkLen ∧ exec (.cksum c) s = .refused .badChunkLen ∧
      exec (.frame c) s = .refused .badChunkLen) ∧
    (1 ≤ s.cfg.n → s.cfg.n ≤ 8 → ∀ i, s.max < i → exec (.chunk i) s = .refused .chunkIndexBeyondMax)

/-- Chunking completeness (R95, P1): the chunks in order are the payload; there are `ceil(L/N)` of them; every one but the
last has `N` bytes, and the last has one at least. -/
def Obligations.ChunksCoverThePayload : Prop :=
  ∀ (s : State) (bs : List Byte), 1 ≤ s.cfg.n → s.mem = Memory.load bs →
    (List.range (chunkCount s.cfg.n bs.length)).flatMap (chunkBytes s bs.length) = bs ∧
    (∀ i, i + 1 < chunkCount s.cfg.n bs.length → (chunkBytes s bs.length i).length = s.cfg.n) ∧
    (∀ i, i < chunkCount s.cfg.n bs.length →
      1 ≤ (chunkBytes s bs.length i).length ∧ (chunkBytes s bs.length i).length ≤ s.cfg.n)

/-! ## Transport encoder (41_transport_encoder.md) -/

/-- `B64` (R110) answers on every byte sequence: four characters for each group of three bytes, `=` only as padding of the
last group, as many as bytes are missing there; and the characters of group `g` are the alphabet's at the four six-bit groups
of `w = b0*65536 + b1*256 + b2`, bytes past the end taken as 0. -/
def Obligations.Base64LengthAndPadding : Prop :=
  ∀ (s : State) (f : List Byte), ∃ t : List Byte, exec (.b64 f) s = .next { s with result := .bytes t } ∧
    t.length = 4 * ((f.length + 2) / 3) ∧
    t.count padChar = (3 - f.length % 3) % 3 ∧
    (∃ x : List Sextet, t = x.map sextetChar ++ List.replicate ((3 - f.length % 3) % 3) padChar) ∧
    ∀ g, g < (f.length + 2) / 3 →
      let w := (f.getD (3 * g) 0).toNat * 65536 + (f.getD (3 * g + 1) 0).toNat * 256 + (f.getD (3 * g + 2) 0).toNat
      t[4 * g]? = some (sextetChar (BitVec.ofNat 6 (w / 2 ^ 18))) ∧
      t[4 * g + 1]? = some (sextetChar (BitVec.ofNat 6 (w / 2 ^ 12))) ∧
      t[4 * g + 2]? = some (if 3 * g + 1 < f.length then sextetChar (BitVec.ofNat 6 (w / 2 ^ 6)) else padChar) ∧
      t[4 * g + 3]? = some (if 3 * g + 2 < f.length then sextetChar (BitVec.ofNat 6 w) else padChar)

/-- The wire text of a frame of nine bytes (30_encoding.md R62): character `m` is the alphabet's at the six bits
`71-6m .. 66-6m` of the frame read as a 72-bit string, byte 0 and bit 7 first. -/
def Obligations.WireTextOfNineBytes : Prop :=
  ∀ f0 f1 f2 f3 f4 f5 f6 f7 f8 : Byte,
    b64Chars [f0, f1, f2, f3, f4, f5, f6, f7, f8] =
      (List.range 12).map fun m =>
        sextetChar ((f0 ++ f1 ++ f2 ++ f3 ++ f4 ++ f5 ++ f6 ++ f7 ++ f8 : BitVec 72).extractLsb' (66 - 6 * m) 6)

/-- The alphabet of 30_encoding.md R62, index 0 first, and the padding character (R110), as ASCII bytes. -/
def Obligations.Base64Alphabet : Prop :=
  (List.range 64).map (fun m => sextetChar (BitVec.ofNat 6 m)) =
    "ABCDEFGHIJKLMNOPQRSTUVWXYZabcdefghijklmnopqrstuvwxyz0123456789+/".toList.map
      (fun ch => BitVec.ofNat 8 ch.toNat) ∧
  padChar = BitVec.ofNat 8 '='.toNat

/-- `TX` (R112, R113): the pacer takes over a frame's text; it writes the next character of a transmission, and reports the
last one; a failed write is reported, the character is dropped, the pacer goes on. No register of the block changes. When a
report arrives, and that a failed last character is reported on `wr_err` alone, with no `tx_done` (which carries the `Ack` of a
last character, 60_exceptions.md R222), is the MODEL'S CHOICE (log 9). -/
def Obligations.PacerActs : Prop :=
  ∀ s : State,
    (∀ x, exec (.tx (.accept x)) s = .next { s with backlog := s.backlog ++ [b64Chars x.bytes] }) ∧
    (∀ j d ch c2 rest, s.backlog[j]? = some (ch :: c2 :: rest) →
      exec (.tx (.write j d)) s =
        .next { s with sink := s.sink ++ [ch], backlog := s.backlog.set j (c2 :: rest) }) ∧
    (∀ j d ch, s.backlog[j]? = some [ch] →
      exec (.tx (.write j d)) s = .next { s with
        sink := s.sink ++ [ch]
        backlog := s.backlog.eraseIdx j
        inputs := s.inputs.take d ++ .event .txDone :: s.inputs.drop d }) ∧
    (∀ j d ch c2 rest, s.backlog[j]? = some (ch :: c2 :: rest) →
      exec (.tx (.fail j d)) s = .next { s with
        backlog := s.backlog.set j (c2 :: rest)
        inputs := s.inputs.take d ++ .event .wrErr :: s.inputs.drop d }) ∧
    (∀ j d ch, s.backlog[j]? = some [ch] →
      exec (.tx (.fail j d)) s = .next { s with
        backlog := s.backlog.eraseIdx j
        inputs := s.inputs.take d ++ .event .wrErr :: s.inputs.drop d })

/-- The characters of each transmission are written in the order of its text, each exactly once (R112, R115), in every run
(`PacerProgress`); they are all those taken, unless a write failed (R113). And each is written in the end (R112; the premise
`pacer-fair` of 70_reset_and_hazards.md R253 L6): in any environment in which the pacer is fair, whatever a state of the run
holds unwritten is all taken in a later state, and written if the sink keeps accepting; that fairness is said of the oldest
transmission is the MODEL'S reading (log 39). Without interruption, as many writes as the oldest transmission has characters
put its text on the sink; that its `tx_done` is then the next input is the MODEL'S schedule with delay 0 (log 9). -/
def Obligations.PacerWritesTextInOrder : Prop :=
  (∀ (k : Nat) (s t : State), [] ∉ s.backlog → runSteps k s = .next t →
    ∃ written taken left, PacerProgress s t written taken left ∧
      ((∀ j d, Input.pacerFail j d ∉ s.inputs) → written = taken)) ∧
  (∀ (env : Nat → List Input) (s t : State) (k : Nat), [] ∉ s.backlog → PacerFair env s → fedRun env k s = .next t →
    ∃ m u written taken left, k ≤ m ∧ fedRun env m s = .next u ∧ PacerProgress t u written taken left ∧
      taken.take t.backlog.length = t.backlog ∧ (SinkAccepts env s → written = taken)) ∧
  (∀ (s : State) (t : List Byte) (more : List (List Byte)) (rest : List Input), t ≠ [] → s.backlog = t :: more →
    s.inputs = List.replicate t.length (.pacerWrite 0 0) ++ rest →
    runSteps t.length s = .next { s with
      sink := s.sink ++ t, backlog := more, inputs := .event .txDone :: rest })

/-- The block and the TX pacer do not read each other (R114, R116; 43_transfer_sequencer.md R175), and the pacer does not write
the block: a block event does the same to the block whatever the pacer holds; an act of the pacer leaves the block as it was;
and it does the same to the backlog, the sink and the inputs, where its reports go, whatever the block's part is. -/
def Obligations.BlockAndPacerAreIndependent : Prop :=
  (∀ (s s' t : State) (e : BlockEvent) (rest rest' : List Input), s.block = s'.block → s.fresh = s'.fresh →
    s.inputs = .event e :: rest → s'.inputs = .event e :: rest' → step s = .next t →
    ∃ t', step s' = .next t' ∧ t'.block = t.block) ∧
  (∀ (s t : State) (a : TxAct), exec (.tx a) s = .next t → t.block = s.block) ∧
  (∀ (s s' t : State) (a : TxAct), s.backlog = s'.backlog → s.sink = s'.sink → s.inputs = s'.inputs →
    exec (.tx a) s = .next t →
    ∃ t', exec (.tx a) s' = .next t' ∧ t'.backlog = t.backlog ∧ t'.sink = t.sink ∧ t'.inputs = t.inputs)

/-! ## Ack classifier (42_ack_classifier.md) -/

/-- `LINE.SPLIT` (R130): the lines with their delimiters, and the incomplete line, are the bytes; no line holds a
delimiter. -/
def Obligations.LinesAreCutAtDelimiters : Prop :=
  ∀ (s : State) (bs : List Byte), ∃ (ls : List (List Byte)) (part : List Byte),
    exec (.lineSplit bs) s = .next { s with result := .lines ls part } ∧
    bs = ls.flatMap (· ++ [s.cfg.delim]) ++ part ∧
    (∀ l ∈ ls, s.cfg.delim ∉ l) ∧ s.cfg.delim ∉ part

/-- `TRIM` (R131): whitespace comes off both ends and nothing else does. -/
def Obligations.TrimRemovesSurroundingWhitespace : Prop :=
  ∀ (s : State) (l : List Byte), ∃ front t back : List Byte,
    exec (.trim l) s = .next { s with result := .bytes t } ∧
    l = front ++ t ++ back ∧ (∀ b ∈ front, b ∈ s.cfg.ws) ∧ (∀ b ∈ back, b ∈ s.cfg.ws) ∧
    (∀ b ∈ t.head?, b ∉ s.cfg.ws) ∧ (∀ b ∈ t.getLast?, b ∉ s.cfg.ws)

/-- `ACK.K`, `ACK.F` and `LINE.DIAG` (R132 to R134) hand Success, Failure and Diagnostic to a waiting sequencer, which
reacts at once: the next chunk, or the end on the last one; the same chunk again, or the end at index 0 under the reference
policy; a log event and nothing else. -/
def Obligations.LineOperationsDriveTheSequencer : Prop :=
  ∀ s : State, s.st = .await → s.fault = .none →
    (s.idx < s.max → CanSend { s with idx := s.idx + 1 } →
      exec .ackK s = .next (afterSend false { s with idx := s.idx + 1 })) ∧
    (s.idx = s.max → exec .ackK s = .next (afterFinish s)) ∧
    ((s.idx ≠ 0 ∨ s.cfg.retryIdx0 = true) → CanSend s → exec .ackF s = .next (afterSend true s)) ∧
    (s.idx = 0 → s.cfg.retryIdx0 = false → exec .ackF s = .next (afterFinish s)) ∧
    (∀ t, exec (.lineDiag t) s = .next { s with out := s.out ++ [.log (.diag t)] })

/-- `RXB.WS`, `RXB.K`, `RXB.F`, `RXB.OTHER` (R137 to R140) in a waiting block: the transitions of R135, the byte appended to
`lbuf` (R143); nothing else changes. -/
def Obligations.ByteTransitions : Prop :=
  ∀ (s : State) (b : Byte), s.st = .await → s.fault = .none →
    exec (.rxbWs b) s = .next { s with lbuf := appendLbuf s.cfg s.lbuf b } ∧
    exec .rxbK s = .next { s with
      cls := if s.cls = .E then .K else .X, lbuf := appendLbuf s.cfg s.lbuf s.cfg.ackOk } ∧
    exec .rxbF s = .next { s with
      cls := if s.cls = .E then .F else .X, lbuf := appendLbuf s.cfg s.lbuf s.cfg.ackFail } ∧
    exec (.rxbOther b) s = .next { s with cls := .X, lbuf := appendLbuf s.cfg s.lbuf b } ∧
    (s.cfg.lineMax = none → appendLbuf s.cfg s.lbuf b = s.lbuf ++ [b]) ∧
    (∀ m, s.cfg.lineMax = some m → appendLbuf s.cfg s.lbuf b = if s.lbuf.length < m then s.lbuf ++ [b] else s.lbuf)

/-- `RXB.DELIM` (R136) in a waiting block: `cls` and `lbuf` are cleared, and the signal of `cls` is acted on in the same
step. -/
def Obligations.DelimiterCompletesTheLine : Prop :=
  ∀ s : State, s.st = .await → s.fault = .none →
    (s.cls = .E → exec .rxbDelim s =
      .next { s with cls := .E, lbuf := [], out := s.out ++ [.log (.diag [])] }) ∧
    (s.cls = .X → exec .rxbDelim s =
      .next { s with cls := .E, lbuf := [], out := s.out ++ [.log (.diag (trimBytes s.cfg s.lbuf))] }) ∧
    (s.cls = .K → s.idx < s.max → CanSend { s with idx := s.idx + 1 } → exec .rxbDelim s =
      .next (afterSend false { s with cls := .E, lbuf := [], idx := s.idx + 1 })) ∧
    (s.cls = .K → s.idx = s.max → exec .rxbDelim s = .next (afterFinish { s with cls := .E, lbuf := [] })) ∧
    (s.cls = .F → (s.idx ≠ 0 ∨ s.cfg.retryIdx0 = true) → CanSend s → exec .rxbDelim s =
      .next (afterSend true { s with cls := .E, lbuf := [] })) ∧
    (s.cls = .F → s.idx = 0 → s.cfg.retryIdx0 = false → exec .rxbDelim s =
      .next (afterFinish { s with cls := .E, lbuf := [] }))

/-- The gate (R142): in `IDLE` and in `DONE` an inbound byte is discarded; `cls` and `lbuf` do not change and nothing is
emitted, whatever operation its value selects. -/
def Obligations.BytesOutsideAwaitAreDiscarded : Prop :=
  ∀ (s : State) (b : Byte), s.st = .idle ∨ s.st = .done →
    exec .rxbDelim s = .next s ∧ exec (.rxbWs b) s = .next s ∧ exec .rxbK s = .next s ∧
    exec .rxbF s = .next s ∧ exec (.rxbOther b) s = .next s ∧
    ∀ rest, s.inputs = .event (.rxByte b) :: rest → step s = .next { s with inputs := rest }

/-- Agreement (R141): over every sequence of consumed bytes the four-state machine emits, in order, the classifications of
the completed raw lines; with an infinite `LINE_MAX` the texts of the diagnostics agree too, and otherwise they are those of
the bytes kept (R143). -/
def Obligations.ClassifierAgreesWithReference : Prop :=
  ∀ (c : Config) (bs : List Byte),
    machineSignals c .E [] bs = (splitLines c [] bs).1.map (surfaced c) ∧
    (c.lineMax = none → machineSignals c .E [] bs = (splitLines c [] bs).1.map (classifyLine c)) ∧
    (machineSignals c .E [] bs).map (fun g => sigCode (some g)) =
      (splitLines c [] bs).1.map (fun l => sigCode (some (classifyLine c l)))

/-- A whole line, byte by byte, acts as the operation its classification selects, in the state with the line taken off
(R130 to R136, R141): the byte-serial machine refines the line-level description. -/
def Obligations.WholeLineActsAsItsVerdict : Prop :=
  ∀ (s : State) (line : List Byte) (rest : List Input), s.st = .await → s.fault = .none → s.cls = .E → s.lbuf = [] →
    s.cfg.delim ∉ line → s.inputs = rxInputs (line ++ [s.cfg.delim]) ++ rest →
    runSteps (line.length + 1) s = exec (signalInstr (surfaced s.cfg line)) { s with inputs := rest }

/-- The classifier holds no protocol state (R144): what a byte does to `cls` and `lbuf`, and the signal it gives, do not
depend on `idx`, `max`, `L` or any other register than these two, the parameters and the gate. -/
def Obligations.ClassifierReadsNoProtocolState : Prop :=
  ∀ (s s' t t' : State) (b : Byte) (rest rest' : List Input), s.cfg = s'.cfg → s.waiting = s'.waiting →
    s.cls = s'.cls → s.lbuf = s'.lbuf → s.inputs = .event (.rxByte b) :: rest → s'.inputs = .event (.rxByte b) :: rest' →
    step s = .next t → step s' = .next t' →
    t.cls = t'.cls ∧ t.lbuf = t'.lbuf ∧ s.signalOf (.rxByte b) = s'.signalOf (.rxByte b)

/-! ## Transfer sequencer (43_transfer_sequencer.md) -/

/-- `SEQ.START` (R161) at a legal level of `cfg_len`, not 0, whose chunks the index registers can count: `L`,
`max = ceil(L/N) - 1` and `idx = 0` are written and chunk 0 is sent (level 0 is StartWithoutPayloadFaults, more chunks than
the registers count StartBeyondIndexWidth). For a level of
`cfg_len` above `2^ADDRW`, which 10_state.md R17 does not admit, the spec states no `L`: the MODEL'S CHOICE (log 37) is a free
one of the legal lengths, not 0, and everything else happens as R161 says. -/
def Obligations.StartSendsChunkZero : Prop :=
  ∀ s : State, s.st = .idle → s.fault = .none → 1 ≤ s.cfg.n → s.cfg.n ≤ 8 →
    (1 ≤ s.cfgLen → s.cfgLen ≤ 2 ^ s.cfg.addrW → chunkCount s.cfg.n s.cfgLen ≤ 2 ^ s.cfg.idxW →
      PayloadLoaded s s.cfgLen →
      exec .seqStart s = .next (afterSend false
        { s with L := s.cfgLen, max := chunkCount s.cfg.n s.cfgLen - 1, idx := 0 }) ∧
      chunkCount s.cfg.n s.cfgLen = (s.cfgLen + s.cfg.n - 1) / s.cfg.n) ∧
    (2 ^ s.cfg.addrW < s.cfgLen → PayloadLoaded s (min s.cfg.n (2 ^ s.cfg.addrW)) →
      ∃ l m k, 1 ≤ l ∧ l ≤ 2 ^ s.cfg.addrW ∧ MaxFits s.cfg l m ∧ m < 2 ^ s.cfg.idxW ∧
        exec .seqStart s = .next (afterSend false { s with L := l, max := m, idx := 0, fresh := k }))

/-- `SEQ.START` (R161) where `ceil(L/N)` exceeds what the index registers hold: the launch premise of
70_reset_and_hazards.md R253 L2 is broken, the spec gives no value for `max`, and the MODEL'S CHOICE (log 13) is a free one
in the register's range; the rest is as R161 says. -/
def Obligations.StartBeyondIndexWidth : Prop :=
  ∀ s : State, s.st = .idle → s.fault = .none → 1 ≤ s.cfg.n → s.cfg.n ≤ 8 → 1 ≤ s.cfgLen → s.cfgLen ≤ 2 ^ s.cfg.addrW →
    2 ^ s.cfg.idxW < chunkCount s.cfg.n s.cfgLen → PayloadLoaded s s.cfgLen →
    ∃ m, m < 2 ^ s.cfg.idxW ∧ exec .seqStart s = .next (afterSend false
      { s with L := s.cfgLen, max := m, idx := 0, fresh := s.fresh + 1 })

/-- `START` with `L = 0` raises `EmptyPayload` (60_exceptions.md R211, R212): `L <- 0` is kept, `fault` takes the code, and
nothing else changes or is emitted. -/
def Obligations.StartWithoutPayloadFaults : Prop :=
  ∀ s : State, s.st = .idle → s.fault = .none → s.cfgLen = 0 →
    exec .seqStart s = .next { s with L := 0, fault := .emptyPayload } ∧ faultCode .emptyPayload = 0b01#2

/-- `SEQ.SEND` (R162), in any state whose `idx` is a chunk's index of a loaded payload. -/
def Obligations.SendComposesAndHandsOver : Prop :=
  ∀ (s : State) (r : Bool), CanSend s →
    exec (.seqSend r) s = .next { s with
      st := .await
      acc := cksumByte (padBytes s.cfg.n (chunkBytes s s.L s.idx))
      FB := frameBytes s.cfg.n (chunkBytes s s.L s.idx)
      out := s.out ++ [.txFrame ⟨s.idx, frameBytes s.cfg.n (chunkBytes s s.L s.idx), r⟩] ++
        [.log (if r then .repeated s.idx else .send s.idx)]
      backlog := s.backlog ++ [b64Chars (frameBytes s.cfg.n (chunkBytes s s.L s.idx))] }

/-- `SEQ.ADVANCE` (R163): the cursor moves by one, and the chunk at the new index is sent. -/
def Obligations.AdvanceSendsTheNextChunk : Prop :=
  ∀ s : State, s.st = .await → s.fault = .none → s.idx < s.max → CanSend { s with idx := s.idx + 1 } →
    exec .seqAdvance s = .next (afterSend false { s with idx := s.idx + 1 })

/-- `SEQ.FINISH` (R164) and `finish()` (R172): `LogDone`, `tr_close`, exit code 0, `DONE`; `idx` keeps the value `max`. -/
def Obligations.FinishClosesTheSession : Prop :=
  ∀ s : State, s.st = .await → s.fault = .none → s.idx = s.max →
    exec .seqFinish s = .next { s with
      st := .done, exitCode := some 0, out := s.out ++ [.log .done] ++ [.trClose] }

/-- `SEQ.RETRY` (R165): the chunk at the same index again, with the repeat bit. -/
def Obligations.RetrySendsTheSameChunk : Prop :=
  ∀ s : State, s.st = .await → s.fault = .none → (s.idx ≠ 0 ∨ s.cfg.retryIdx0 = true) → CanSend s →
    exec .seqRetry s = .next (afterSend true s)

/-- `SEQ.NAK0` (R166): under the reference policy a Failure at index 0 finishes the session. -/
def Obligations.ReferencePolicyFinishesAtIndexZero : Prop :=
  ∀ s : State, s.st = .await → s.fault = .none → s.idx = 0 → s.cfg.retryIdx0 = false →
    exec .seqNak0 s = .next { s with
      st := .done, exitCode := some 0, out := s.out ++ [.log .done] ++ [.trClose] }

/-- `SEQ.DIAG` (R167) and `SEQ.IGNORE` (R168): one log event, and nothing at all. -/
def Obligations.DiagAndIgnoreKeepTheState : Prop :=
  ∀ (s : State) (t : List Byte),
    (s.st = .await → s.fault = .none → exec (.seqDiag t) s = .next { s with out := s.out ++ [.log (.diag t)] }) ∧
    exec .seqIgnore s = .next s

/-- A retry is byte-identical (40_frame_composer.md R96, 20_memory.md R50): after a send, `SEQ.RETRY` hands over the same
index and the same frame bytes, with the repeat bit. -/
def Obligations.RetryIsByteIdentical : Prop :=
  ∀ (s t : State), s.fault = .none → s.idx ≠ 0 ∨ s.cfg.retryIdx0 = true → CanSend s → exec (.seqSend false) s = .next t →
    ∃ (u : State) (f : List Byte), exec .seqRetry t = .next u ∧
      t.txStream = s.txStream ++ [⟨s.idx, f, false⟩] ∧ u.txStream = t.txStream ++ [⟨s.idx, f, true⟩] ∧
      t.FB = f ∧ u.FB = f

/-- No timeout (R169; 60_exceptions.md R226): a step leaves `AWAIT` only by `reset`, by a Success on the last chunk, or by a
Failure at index 0 under the reference policy. -/
def Obligations.AwaitIsLeftOnlyByAnAcknowledgment : Prop :=
  ∀ s t : State, step s = .next t → s.st = .await → t.st ≠ .await →
    ∃ e, s.nextEvent = some e ∧
      (e = .reset ∨ (s.signalOf e = some .success ∧ s.idx = s.max) ∨
        (s.signalOf e = some .failure ∧ s.idx = 0 ∧ s.cfg.retryIdx0 = false))

/-- The single-outstanding-frame invariant over events (R170): a step emits at most one `TxFrame`, and only a `START` in
`IDLE` or a step that consumed a Success or a Failure in `AWAIT` does; it carries the index the step leaves. -/
def Obligations.OneFrameForEachAcknowledgment : Prop :=
  ∀ s t : State, step s = .next t →
    t.txStream = s.txStream ∨
    ∃ x e, t.txStream = s.txStream ++ [x] ∧ x.idx = t.idx ∧ t.st = .await ∧ s.nextEvent = some e ∧
      ((s.st = .idle ∧ e = .start ∧ x.isRepeat = false) ∨
       (s.st = .await ∧ s.signalOf e = some .success ∧ s.idx < s.max ∧ x.isRepeat = false) ∨
       (s.st = .await ∧ s.signalOf e = some .failure ∧ x.isRepeat = true))

/-- Progression (R173): with a loaded payload that fits the registers, `START` and one Success line for each chunk send every
chunk exactly once, in order, and reach `DONE` with exit code 0. -/
def Obligations.SuccessesSendEveryChunkOnce : Prop :=
  ∀ (s : State) (rest : List Input), s.cfg.Wf → s.st = .idle → s.fault = .none → s.cls = .E → s.lbuf = [] →
    1 ≤ s.cfgLen → s.cfgLen ≤ 2 ^ s.cfg.addrW → chunkCount s.cfg.n s.cfgLen ≤ 2 ^ s.cfg.idxW →
    PayloadLoaded s s.cfgLen →
    s.inputs = .event .start ::
      rxInputs (List.replicate (chunkCount s.cfg.n s.cfgLen) [s.cfg.ackOk, s.cfg.delim]).flatten ++ rest →
    ∃ t, runSteps (1 + 2 * chunkCount s.cfg.n s.cfgLen) s = .next t ∧
      t.st = .done ∧ t.exitCode = some 0 ∧ t.idx = chunkCount s.cfg.n s.cfgLen - 1 ∧ t.max = t.idx ∧
      t.fault = .none ∧ t.cls = .E ∧ t.lbuf = [] ∧ t.inputs = rest ∧ t.closeCount = s.closeCount + 1 ∧
      t.txStream = s.txStream ++ (List.range (chunkCount s.cfg.n s.cfgLen)).map
        (firstFrame { s with L := s.cfgLen })

/-! ## Index Cursor (44_index_cursor.md) -/

/-- `CUR.GET` (R200) and `CUR.INC` (R201). -/
def Obligations.CursorOperations : Prop :=
  ∀ s : State,
    exec .curGet s = .next { s with result := .index s.idx } ∧
    (s.idx = s.max → exec .curInc s = .next { s with result := .optIndex none }) ∧
    (s.idx ≠ s.max → exec .curInc s = .next { s with idx := s.idx + 1, result := .optIndex (some (s.idx + 1)) })

/-- The cursor (R202, R203; 10_state.md R13): a step moves `idx` by one on a Success below `max`, puts it to 0 on `START` in
`IDLE` or `reset`, and otherwise leaves it. -/
def Obligations.CursorMovesOnlyOnSuccess : Prop :=
  ∀ s t : State, step s = .next t →
    t.idx = s.idx ∨
    (t.idx = s.idx + 1 ∧ s.idx < s.max ∧ ∃ e, s.nextEvent = some e ∧ s.signalOf e = some .success) ∨
    (t.idx = 0 ∧ (s.nextEvent = some .reset ∨ (s.nextEvent = some .start ∧ s.st = .idle)))

/-- Session constants (10_state.md R14): a step writes `L` and `max` only on `START` in `IDLE` or `reset`; `START` samples a legal
level of `cfg_len` into `L`, and leaves a legal length there whatever the level (log 37); no step writes the parameters. -/
def Obligations.SessionRegistersAreFixed : Prop :=
  ∀ s t : State, step s = .next t →
    t.cfg = s.cfg ∧
    ((t.L = s.L ∧ t.max = s.max) ∨ s.nextEvent = some .reset ∨
      (s.nextEvent = some .start ∧ s.st = .idle ∧ t.L ≤ 2 ^ s.cfg.addrW ∧
        (s.cfgLen ≤ 2 ^ s.cfg.addrW → t.L = s.cfgLen)))

/-! ## Faults and platform (60_exceptions.md) -/

/-- The fault register (R211, R212, R228): only `START` in `IDLE` with `cfg_len = 0` sets it, to `EmptyPayload`, keeps `L <- 0`
and does nothing else to the block; only `reset` clears it; and a faulted block takes no step but `reset`. -/
def Obligations.FaultIsStickyUntilReset : Prop :=
  (∀ s t : State, step s = .next t → t.fault ≠ s.fault →
    (s.nextEvent = some .reset ∧ t.fault = .none) ∨
    (s.nextEvent = some .start ∧ s.fault = .none ∧ s.st = .idle ∧ s.cfgLen = 0 ∧
      t.block = { s.block with L := 0, fault := .emptyPayload })) ∧
  faultCode .emptyPayload = 0b01#2 ∧
  (∀ s t : State, step s = .next t → s.fault ≠ .none → ∀ e, s.nextEvent = some e → e ≠ .reset → t.block = s.block)

/-- `WRERR` (R216): logged in `IDLE` and `AWAIT`, ignored in `DONE` and when faulted. -/
def Obligations.WriteErrorIsOnlyLogged : Prop :=
  ∀ s : State,
    (s.fault = .none → s.st ≠ .done → exec .wrErr s = .next { s with out := s.out ++ [.log .wrErr] }) ∧
    (s.fault ≠ .none ∨ s.st = .done → exec .wrErr s = .next s)

/-- `tr_close` (10_state.md R23): emitted in the step that enters `DONE`, once, and in no other. -/
def Obligations.CloseIsEmittedOnEnteringDone : Prop :=
  ∀ s t : State, step s = .next t →
    t.closeCount = s.closeCount + if s.st ≠ .done ∧ t.st = .done then 1 else 0

/-- The ends of a run (70_reset_and_hazards.md R266). A run completes only from `AWAIT`, through `finish()`, which logs
completion, closes the transport and gives exit code 0, on an acknowledgment that was still to come; a completed run stays
completed until `reset`. A stalled run stays stalled until `reset`: nothing is sent, the cursor stays, the transport is not
closed; and a block that waits with no input left is stalled and takes no step (log 12). A receiver that answers every frame
with a Failure line makes the block retry for ever (R262; 43_transfer_sequencer.md R174), and no fairness of the TX pacer
removes that (R262): it does so too where every text is written before the line. What stalled, waiting and retrying for ever
say (the inputs are all that is to come, bytes behind a `reset` do not count, an environment feeds the infinite run) is the
MODEL'S reading of R266 (log 38), and what fair says its reading of 41_transport_encoder.md R112 (log 39). -/
def Obligations.RunCompletesOnlyThroughFinish : Prop :=
  (∀ s t : State, step s = .next t → s.status ≠ .completed → t.status = .completed →
    s.status = .waiting ∧ t.out = s.out ++ [.log .done, .trClose] ∧ t.exitCode = some 0 ∧ t.idx = s.idx) ∧
  (∀ s t : State, step s = .next t → s.status = .completed → s.nextEvent ≠ some .reset →
    t.status = .completed ∧ t.out = s.out ∧ t.idx = s.idx) ∧
  (∀ s t : State, step s = .next t → s.status = .stalled → s.nextEvent ≠ some .reset →
    t.status = .stalled ∧ t.txStream = s.txStream ∧ t.idx = s.idx ∧ t.closeCount = s.closeCount) ∧
  (∀ s : State, s.st = .await → s.fault = .none → s.inputs = [] →
    s.status = .stalled ∧ step s = .refused .noEventPending) ∧
  (∀ s : State, s.cfg.Wf → s.st = .await → s.fault = .none → s.cls = .E → s.lbuf = [] → s.inputs = [] →
    (s.idx ≠ 0 ∨ s.cfg.retryIdx0 = true) → CanSend s →
    RetriesForEver (alwaysFails s.cfg) s ∧
    (s.backlog = [] → RetriesForEver (failsEveryText s.cfg) s ∧ PacerFair (failsEveryText s.cfg) s ∧
      SinkAccepts (failsEveryText s.cfg) s))

/-! ## Reset (70_reset_and_hazards.md, 10_state.md) -/

/-- `RESET` (R250), in every state: the registers of R22 take their values; the four unspecified ones some values of their
widths; nothing is emitted, and the memory, the streams, `cfg_len` and the TX pacer stay. -/
def Obligations.ResetReturnsTheBlock : Prop :=
  ∀ s : State, ∃ (m l : Nat) (f : List Byte) (a : Byte), m < 2 ^ s.cfg.idxW ∧ l < 2 ^ (s.cfg.addrW + 1) ∧
    f.length = s.cfg.n + 1 ∧
    exec .reset s = .next { s with
      st := .idle, idx := 0, cls := .E, lbuf := [], fault := .none, exitCode := none
      max := m, L := l, FB := f, acc := a, fresh := s.fresh + 1 }

/-- The state right after reset (10_state.md R22): the registers it gives a value, no event, no flag set; for every binding
of the parameters. -/
def Obligations.ResetValues : Prop :=
  ∀ c : Config, let s := State.afterReset c
    s.st = .idle ∧ s.idx = 0 ∧ s.cls = .E ∧ s.lbuf = [] ∧ s.fault = .none ∧ s.out = [] ∧ s.exitCode = none ∧
    s.doneFlag = false ∧ s.busyFlag = false ∧ s.rxEnFlag = false ∧ s.faultedFlag = false ∧
    State.reset = State.afterReset Config.reference

/-- The unspecified registers are never observed (10_state.md R22, R11, R12): two `IDLE` states that differ in `max`, `L`,
`FB` and `acc` only step alike, differ in nothing else afterwards, and in nothing at all once a session has begun. -/
def Obligations.UnspecifiedRegistersAreNotObserved : Prop :=
  ∀ (s t : State) (m l : Nat) (f : List Byte) (a : Byte), s.st = .idle → step s = .next t →
    ∃ (m' l' : Nat) (f' : List Byte) (a' : Byte),
      step { s with max := m, L := l, FB := f, acc := a } = .next { t with max := m', L := l', FB := f', acc := a' } ∧
      (t.st ≠ .idle → m' = t.max ∧ l' = t.L ∧ f' = t.FB ∧ a' = t.acc)

/-! ## Invariants (10_state.md R24) -/

/-- The invariant holds right after reset, for every legal binding of the parameters. -/
def Obligations.InvHoldsAfterReset : Prop :=
  ∀ c : Config, c.Wf → Inv (State.afterReset c)

/-- Every step keeps the invariant. -/
def Obligations.StepKeepsInv : Prop :=
  ∀ s t : State, Inv s → step s = .next t → Inv t

/-- No event is illegal (30_encoding.md R71; the table of 43_transfer_sequencer.md R171 has no empty cell): where the
invariant holds and the payload in use is loaded, every input event is accepted and taken off. That `start` is, at a `cfg_len`
above `2^ADDRW`, rests on the MODEL'S CHOICE of what `START` does there (log 37); the payload in use is then chunk 0 of any
length. -/
def Obligations.EveryEventIsAccepted : Prop :=
  ∀ (s : State) (e : BlockEvent) (rest : List Input), Inv s → s.inputs = .event e :: rest →
    (s.st = .await → PayloadLoaded s s.L) →
    (e = .start → s.st = .idle →
      PayloadLoaded s (if s.cfgLen ≤ 2 ^ s.cfg.addrW then s.cfgLen else min s.cfg.n (2 ^ s.cfg.addrW))) →
    ∃ t, step s = .next t ∧ t.inputs = rest
end

