-- ==== Sys2Proof/Laws/Checksum.lean ====
section
/-! SUPPORT. The bits of the checksum, the bytes of a padded chunk (40_frame_composer.md R91, R92; 20_memory.md R43), and the
six-bit groups of three bytes (41_transport_encoder.md R110). -/

namespace Sys2Proof.Machine

/-- One iteration moves every bit up by one and puts bit 0 of the byte at the bottom; the addition never carries. -/
theorem cksumStep_getLsbD (acc b : Byte) (j : Nat) (hj : j < 8) :
    (cksumStep acc b).getLsbD j = if j = 0 then b.getLsbD 0 else acc.getLsbD (j - 1) := by
  have h : cksumStep acc b = (acc <<< 1) ||| (b &&& 1) := by
    unfold cksumStep
    apply BitVec.add_eq_or_of_and_eq_zero
    ext i hi
    simp
    intro h1 h2
    rcases i with _ | i <;> simp_all
  rw [h]
  simp [hj]
  rcases j with _ | j
  · simp
  · simp [BitVec.getLsbD_eq_getElem (show j < 8 by omega)]

theorem foldl_cksumStep_getLsbD (p : List Byte) (acc : Byte) (j : Nat) (hj : j < 8) :
    (p.foldl cksumStep acc).getLsbD j =
      if h : j < p.length then (p[p.length - 1 - j]).getLsbD 0 else acc.getLsbD (j - p.length) := by
  induction p generalizing acc with
  | nil => simp
  | cons b p ih =>
    rw [List.foldl_cons, ih]
    by_cases h : j < p.length
    · have h2 : j < (b :: p).length := by simp; omega
      rw [dif_pos h, dif_pos h2]
      congr 1
      rw [List.getElem_cons, dif_neg (by simp; omega)]
      congr 1
      simp; omega
    · rw [dif_neg h, cksumStep_getLsbD _ _ _ (by omega)]
      by_cases h3 : j = p.length
      · subst h3; simp
      · rw [if_neg (by omega), dif_neg (by simp; omega)]
        congr 1

/-- The bits of the checksum of any byte sequence, seen through a byte. -/
theorem cksumByte_getLsbD (p : List Byte) (j : Nat) (hj : j < 8) :
    (cksumByte p).getLsbD j = if h : j < p.length then (p[p.length - 1 - j]).getLsbD 0 else false := by
  unfold cksumByte
  rw [foldl_cksumStep_getLsbD p 0 j hj]
  split <;> simp

/-- Byte `i` of a padded chunk is the chunk's, or zero past its end. -/
theorem padBytes_getElem {n : Nat} {c : List Byte} (i : Nat) (hi : i < (padBytes n c).length) :
    (padBytes n c)[i] = c.getD i 0 := by
  simp only [padBytes, List.getElem_append, List.getD_eq_getElem?_getD]
  split
  · rename_i h; simp [h]
  · rename_i h; simp [List.getElem?_eq_none (by omega : c.length ≤ i)]

/-- Group `m` of three bytes is six bits of `b0*65536 + b1*256 + b2` (41_transport_encoder.md R110). -/
theorem groupSextet_eq_ofNat (b0 b1 b2 : Byte) (m : Nat) : groupSextet (groupWord b0 b1 b2) m =
    BitVec.ofNat 6 ((b0.toNat * 65536 + b1.toNat * 256 + b2.toNat) / 2 ^ (18 - 6 * m)) := by
  apply BitVec.eq_of_toNat_eq
  have h : (groupWord b0 b1 b2).toNat = b0.toNat * 65536 + b1.toNat * 256 + b2.toNat := by
    unfold groupWord
    have h0 := b0.isLt
    have h1 := b1.isLt
    have h2 := b2.isLt
    rw [BitVec.toNat_append, BitVec.toNat_append, ← Nat.shiftLeft_add_eq_or_of_lt h2,
      ← Nat.shiftLeft_add_eq_or_of_lt h1]
    simp only [Nat.shiftLeft_eq]
    omega
  simp [groupSextet, BitVec.extractLsb'_toNat, h, Nat.shiftRight_eq_div_pow]

end Sys2Proof.Machine
end

