-- ==== Sys2Proof/Laws/Decode.lean ====
section
/-! SUPPORT. What the decoder answers: the byte classes as conditions, the table's cells, the reactions. -/

namespace Sys2Proof

/-- `mask 0xFF` compares the whole byte. -/
theorem mask_ff (b : Byte) : b &&& 0xFF = b := by
  have : (0xFF : Byte) = BitVec.allOnes 8 := by decide
  rw [this, BitVec.and_allOnes]

theorem find_ws_row (b : Byte) (l : List Byte) :
    (l.map (fun w => (⟨w, 0xFF, .ws⟩ : RxbRow))).find? (fun r => b &&& r.mask == r.pat) =
      if b ∈ l then some ⟨b, 0xFF, .ws⟩ else none := by
  induction l with
  | nil => rfl
  | cons w l ih =>
    simp only [List.map_cons, List.find?_cons, mask_ff]
    by_cases h : b = w
    · subst h; simp
    · have : (b == w) = false := by simpa using h
      rw [this]; simp only [ih, List.mem_cons, h, false_or]

/-- The class of a byte (30_encoding.md R63), with the table's order as the order of the conditions. -/
theorem byteClass_eq (c : Config) (b : Byte) : byteClass c b =
    if b = c.delim then .delim else if b ∈ c.ws then .ws
    else if b = c.ackOk then .k else if b = c.ackFail then .f else .other := by
  unfold byteClass rxbRows
  simp only [List.find?_append, List.find?_cons, List.find?_nil, mask_ff, find_ws_row]
  by_cases h1 : b = c.delim
  · simp [h1]
  · have e1 : (b == c.delim) = false := by simpa using h1
    by_cases h2 : b ∈ c.ws
    · simp [e1, h1, h2]
    · by_cases h3 : b = c.ackOk
      · have e2 : b ∉ c.ws.filter (· ≠ c.delim) := fun hm => h2 (List.mem_filter.mp hm).1
        subst h3; simp [e1, h1, h2]
      · by_cases h4 : b = c.ackFail
        · have e3 : (b == c.ackOk) = false := by simpa using h3
          subst h4; simp [e1, h1, h2, h3, e3]
        · have e3 : (b == c.ackOk) = false := by simpa using h3
          have e4 : (b == c.ackFail) = false := by simpa using h4
          simp [e1, h1, h2, h3, h4, e3, e4]

theorem byteClass_delim_iff (c : Config) (b : Byte) : byteClass c b = .delim ↔ b = c.delim := by
  rw [byteClass_eq]; repeat' split
  all_goals simp_all

theorem byteClass_ws {c : Config} {b : Byte} (h : b ∈ c.ws) (hd : b ≠ c.delim) : byteClass c b = .ws := by
  rw [byteClass_eq, if_neg hd, if_pos h]

theorem byteClass_other {c : Config} {b : Byte} (hd : b ≠ c.delim) (hw : b ∉ c.ws) (hk : b ≠ c.ackOk)
    (hf : b ≠ c.ackFail) : byteClass c b = .other := by
  rw [byteClass_eq, if_neg hd, if_neg hw, if_neg hk, if_neg hf]

theorem byteClass_ackOk {c : Config} (h : c.Wf) : byteClass c c.ackOk = .k := by
  obtain ⟨-, -, hk, -, -, hd, -⟩ := h
  rw [byteClass_eq, if_neg (Ne.symm hd), if_neg hk, if_pos rfl]

theorem byteClass_ackFail {c : Config} (h : c.Wf) : byteClass c c.ackFail = .f := by
  obtain ⟨-, -, -, hf, hkf, -, hd⟩ := h
  rw [byteClass_eq, if_neg (Ne.symm hd), if_neg hf, if_neg (Ne.symm hkf), if_pos rfl]

/-- The operation of a byte, by its class. -/
theorem decodeRxb_cases (c : Config) (b : Byte) :
    (byteClass c b = .delim ∧ decodeRxb c b = .rxbDelim) ∨ (byteClass c b = .ws ∧ decodeRxb c b = .rxbWs b) ∨
    (byteClass c b = .k ∧ b = c.ackOk ∧ decodeRxb c b = .rxbK) ∨
    (byteClass c b = .f ∧ b = c.ackFail ∧ decodeRxb c b = .rxbF) ∨
    (byteClass c b = .other ∧ decodeRxb c b = .rxbOther b) := by
  have h := byteClass_eq c b
  unfold decodeRxb
  repeat' split at h
  all_goals simp_all

/-- What an input event selects, by the state (43_transfer_sequencer.md R171). -/
theorem decodeSeq_input_cases {c : Config} {v : SeqView} {e : BlockEvent} {i : Instr}
    (h : decodeSeq c v (.input e) = .ok i) :
    (e = .reset ∧ i = .reset) ∨ (e ≠ .reset ∧ i = .seqIgnore) ∨
    (v.faulted = false ∧ v.st = .idle ∧ e = .start ∧ i = .seqStart) ∨
    (v.faulted = false ∧ (v.st = .idle ∨ v.st = .await) ∧ e = .wrErr ∧ i = .wrErr) ∨
    (v.faulted = false ∧ v.st = .await ∧ ∃ b, e = .rxByte b ∧ i = decodeRxb c b) := by
  cases e with
  | reset => simp [decodeSeq] at h; exact Or.inl ⟨rfl, h.symm⟩
  | start =>
    unfold decodeSeq at h
    by_cases hf : v.faulted
    · simp [hf] at h; simp [h.symm]
    · simp [hf] at h
      cases hs : v.st <;> simp [hs, decodeTableCell] at h <;> simp [h.symm, hf]
  | rxByte b =>
    unfold decodeSeq at h
    by_cases hf : v.faulted
    · simp [hf] at h; simp [h.symm]
    · simp [hf] at h
      cases hs : v.st <;> simp [hs, decodeTableCell] at h <;> simp [h.symm, hf]
  | wrErr =>
    unfold decodeSeq at h
    by_cases hf : v.faulted
    · simp [hf] at h; simp [h.symm]
    · simp [hf] at h
      cases hs : v.st <;> simp [hs, decodeTableCell] at h <;> simp [h.symm, hf]
  | txDone =>
    unfold decodeSeq at h
    by_cases hf : v.faulted
    · simp [hf] at h; simp [h.symm]
    · simp [hf] at h
      cases hs : v.st <;> simp [hs, decodeTableCell] at h <;> simp [h.symm]

end Sys2Proof
end

