-- ==== Sys2Proof/Laws/Classifier.lean ====
section
/-! SUPPORT. Trimming, and what `cls` and `lbuf` say of the line so far (42_ack_classifier.md R131 to R143). -/

namespace Sys2Proof.Machine

theorem trimBytes_append_ws {c : Config} (l : List Byte) {b : Byte} (h : b ∈ c.ws) :
    trimBytes c (l ++ [b]) = trimBytes c l := by
  have hb : isWs c b = true := by simpa [isWs] using h
  by_cases ha : ∀ x ∈ l, isWs c x = true
  · have h1 : (l ++ [b]).dropWhile (isWs c) = [] := by
      rw [List.dropWhile_eq_nil_iff]; simp; intro x hx; rcases hx with hx | rfl
      · exact ha x hx
      · exact hb
    have h2 : l.dropWhile (isWs c) = [] := List.dropWhile_eq_nil_iff.mpr ha
    simp [trimBytes, h1, h2]
  · have h1 : (l ++ [b]).dropWhile (isWs c) = l.dropWhile (isWs c) ++ [b] := by
      rw [List.dropWhile_append]
      rw [if_neg]
      simpa using ha
    simp [trimBytes, h1, hb]

theorem trimBytes_append_other {c : Config} (l : List Byte) {b : Byte} (h : b ∉ c.ws) :
    trimBytes c (l ++ [b]) = l.dropWhile (isWs c) ++ [b] := by
  have hb : isWs c b = false := by simpa [isWs] using h
  have h1 : (l ++ [b]).dropWhile (isWs c) = l.dropWhile (isWs c) ++ [b] := by
    rw [List.dropWhile_append]
    split
    · rename_i hn; simp [hb]; simpa using hn
    · rfl
  simp [trimBytes, h1, hb]

theorem trimBytes_eq_nil {c : Config} {l : List Byte} : trimBytes c l = [] ↔ l.dropWhile (isWs c) = [] := by
  constructor
  · intro h
    by_contra hne
    have hx := List.head_dropWhile_not (isWs c) hne
    have : ∀ x ∈ l.dropWhile (isWs c), isWs c x = true := by
      have h2 := List.reverse_eq_nil_iff.mp h
      rw [List.dropWhile_eq_nil_iff] at h2
      simpa using h2
    rw [this _ (List.head_mem hne)] at hx
    cases hx
  · intro h; simp [trimBytes, h]

/-- What `cls` says of the line so far. -/
def ClsAgrees (c : Config) (cls : Cls) (line : List Byte) : Prop :=
  match cls with
  | .E => trimBytes c line = []
  | .K => trimBytes c line = [c.ackOk]
  | .F => trimBytes c line = [c.ackFail] ∧ c.ackFail ≠ c.ackOk
  | .X => trimBytes c line ≠ [] ∧ trimBytes c line ≠ [c.ackOk] ∧ trimBytes c line ≠ [c.ackFail]

theorem clsAgrees_next {c : Config} {cls : Cls} {line : List Byte} {b : Byte} (h : ClsAgrees c cls line)
    (hd : b ≠ c.delim) : ClsAgrees c (clsNext cls (byteClass c b)) (line ++ [b]) := by
  by_cases hw : b ∈ c.ws
  · rw [byteClass_ws hw hd]
    cases cls <;> simpa [clsNext, ClsAgrees, trimBytes_append_ws line hw] using h
  · have hcl : byteClass c b = if b = c.ackOk then .k else if b = c.ackFail then .f else .other := by
      rw [byteClass_eq, if_neg hd, if_neg hw]
    have two : ∀ x, line.dropWhile (isWs c) ≠ [] → line.dropWhile (isWs c) ++ [b] ≠ [x] := by
      intro x hn he
      have h3 := congrArg List.length he
      simp only [List.length_append, List.length_singleton] at h3
      exact hn (List.length_eq_zero_iff.mp (by omega))
    have hX : line.dropWhile (isWs c) ≠ [] → ClsAgrees c .X (line ++ [b]) := by
      intro hn
      simp only [ClsAgrees, trimBytes_append_other line hw]
      exact ⟨by simp, two _ hn, two _ hn⟩
    cases cls with
    | E =>
      have h0 : line.dropWhile (isWs c) = [] := trimBytes_eq_nil.mp h
      have ht : trimBytes c (line ++ [b]) = [b] := by rw [trimBytes_append_other line hw, h0]; rfl
      rw [hcl]
      split
      · rename_i hk; simpa [clsNext, ClsAgrees, hk] using hk ▸ ht
      · rename_i hk
        split
        · rename_i hf; subst hf; simp [clsNext, ClsAgrees, ht]; exact hk
        · rename_i hf; simp [clsNext, ClsAgrees, ht, hk, hf]
    | K =>
      have hn : line.dropWhile (isWs c) ≠ [] := fun h0 => by
        have h1 := trimBytes_eq_nil.mpr h0
        simp only [ClsAgrees] at h
        rw [h] at h1; cases h1
      have := hX hn
      rw [hcl]; split
      · exact this
      · split <;> exact this
    | F =>
      have hn : line.dropWhile (isWs c) ≠ [] := fun h0 => by
        have h1 := trimBytes_eq_nil.mpr h0
        simp only [ClsAgrees] at h
        rw [h.1] at h1; cases h1
      have := hX hn
      rw [hcl]; split
      · exact this
      · split <;> exact this
    | X =>
      have hn : line.dropWhile (isWs c) ≠ [] := fun h0 => h.1 (trimBytes_eq_nil.mpr h0)
      have := hX hn
      rw [hcl]; split
      · exact this
      · split <;> exact this

theorem keptBytes_nil (c : Config) : keptBytes c [] = [] := by
  unfold keptBytes; split <;> simp

theorem bindRun_runSteps_zero (m : Run State) : bindRun m (runSteps 0) = m := by cases m <;> rfl

theorem keptBytes_append (c : Config) (line : List Byte) (b : Byte) :
    appendLbuf c (keptBytes c line) b = keptBytes c (line ++ [b]) := by
  unfold appendLbuf keptBytes
  cases c.lineMax with
  | none => rfl
  | some m =>
    simp only [List.length_take]
    split
    · rename_i h
      rw [List.take_of_length_le (by omega), List.take_of_length_le (by simp; omega)]
    · rename_i h
      rw [List.take_append_of_le_length (by omega)]

theorem trimBytes_all_ws {c : Config} {l : List Byte} (h : ∀ b ∈ l, b ∈ c.ws) : trimBytes c l = [] := by
  apply trimBytes_eq_nil.mpr
  rw [List.dropWhile_eq_nil_iff]
  intro x hx; simpa [isWs] using h x hx

theorem lineSignal_eq {c : Config} {cls : Cls} {line : List Byte} (h : ClsAgrees c cls line) :
    lineSignal c cls (keptBytes c line) = surfaced c line := by
  cases cls with
  | E =>
    have hk : trimBytes c (keptBytes c line) = [] := by
      apply trimBytes_all_ws
      have := trimBytes_eq_nil.mp h
      rw [List.dropWhile_eq_nil_iff] at this
      intro b hb
      have hb2 : b ∈ line := by
        unfold keptBytes at hb
        split at hb
        · exact hb
        · exact List.mem_of_mem_take hb
      simpa [isWs] using this b hb2
    simp only [ClsAgrees] at h
    simp [lineSignal, surfaced, classifyLine, h, hk]
  | K => simp only [ClsAgrees] at h; simp [lineSignal, surfaced, classifyLine, h]
  | F => simp only [ClsAgrees] at h; simp [lineSignal, surfaced, classifyLine, h]
  | X => simp only [ClsAgrees] at h; simp [lineSignal, surfaced, classifyLine, h]

end Sys2Proof.Machine
end

