-- ==== Sys2Proof/Laws/Memory.lean ====
section
/-! SUPPORT. The payload memory: reading what was loaded, and the canonical form (20_memory.md R40). -/

namespace Sys2Proof.Machine

/-- Reading a run of cells gives the byte at that place of the run, and nothing outside it. -/
theorem read_cellsFrom (bs : List Byte) (base a : Nat) :
    Memory.read (Memory.cellsFrom base bs) a = if base ≤ a then bs[a - base]? else none := by
  induction bs generalizing base with
  | nil => simp [Memory.cellsFrom, Memory.read]
  | cons b bs ih =>
    simp only [Memory.cellsFrom, Memory.read, ih]
    by_cases h : base = a
    · subst h; simp
    · by_cases h2 : base ≤ a
      · have h3 : base + 1 ≤ a := by omega
        have h4 : a - base = (a - (base + 1)) + 1 := by omega
        simp [h, h2, h3, h4]
      · have h3 : ¬ base + 1 ≤ a := by omega
        simp [h, h2, h3]

/-- Payload byte `a` is at payload address `a` (20_memory.md R47). -/
theorem read_load (bs : List Byte) (a : Nat) : Memory.read (Memory.load bs) a = bs[a]? := by
  simp [Memory.load, read_cellsFrom]

theorem cellsFrom_addr (bs : List Byte) (base : Nat) :
    ∀ x ∈ (Memory.cellsFrom base bs).map Prod.fst, base ≤ x := by
  induction bs generalizing base with
  | nil => simp [Memory.cellsFrom]
  | cons b bs ih =>
    intro x hx
    simp only [Memory.cellsFrom, List.map_cons, List.mem_cons] at hx
    rcases hx with rfl | hx
    · exact le_refl _
    · have := ih (base + 1) x hx; omega

/-- The one operation that writes the memory, the host's load, leaves the canonical form. -/
theorem load_wf (bs : List Byte) : (Memory.load bs).wf := by
  suffices ∀ base, List.Pairwise (· < ·) ((Memory.cellsFrom base bs).map Prod.fst) from this 0
  induction bs with
  | nil => simp [Memory.cellsFrom]
  | cons b bs ih =>
    intro base
    simp only [Memory.cellsFrom, List.map_cons, List.pairwise_cons]
    exact ⟨fun x hx => by have := cellsFrom_addr bs (base + 1) x hx; omega, ih (base + 1)⟩

/-- The canonical form holds right after reset. -/
theorem reset_mem_wf : State.reset.mem.wf := List.Pairwise.nil

/-- Two memories in canonical form that read alike are the same list. -/
theorem Memory.ext_read {m k : Memory} (hm : m.wf) (hk : k.wf)
    (h : ∀ a, Memory.read m a = Memory.read k a) : m = k := by
  induction m generalizing k with
  | nil =>
    cases k with
    | nil => rfl
    | cons c k => have := h c.1; simp [Memory.read] at this
  | cons c m ih =>
    have low : ∀ {d : Host.Cell} {l : Memory} {a : Nat}, Memory.wf (d :: l) → a < d.1 →
        Memory.read (d :: l) a = none := by
      intro d l a hw ha
      have hx : ∀ x ∈ l.map Prod.fst, d.1 < x := (List.pairwise_cons.mp hw).1
      have aux : ∀ (l : Memory), (∀ x ∈ l.map Prod.fst, a < x) → Memory.read l a = none := by
        intro l
        induction l with
        | nil => intro _; rfl
        | cons e l ihl =>
          intro hl
          have he : a < e.1 := hl e.1 (by simp)
          simp only [Memory.read, show e.1 ≠ a by omega, if_false]
          exact ihl fun x hx => hl x (by simp at hx ⊢; exact Or.inr hx)
      refine aux (d :: l) fun x hx2 => ?_
      simp only [List.map_cons, List.mem_cons] at hx2
      rcases hx2 with rfl | hx2
      · exact ha
      · have := hx x hx2; omega
    cases k with
    | nil => have := h c.1; simp [Memory.read] at this
    | cons d k =>
      have hc := h c.1
      have hd := h d.1
      rcases Nat.lt_trichotomy c.1 d.1 with hlt | heq | hgt
      · rw [low hk hlt] at hc; simp [Memory.read] at hc
      · have hcd : c = d := by
          simp only [Memory.read, heq, if_true] at hc
          exact Prod.ext heq (Option.some.inj hc)
        subst hcd
        have htail : ∀ a, Memory.read m a = Memory.read k a := by
          intro a
          by_cases ha : c.1 = a
          · subst ha
            have hz : ∀ (l : Memory), Memory.wf (c :: l) → Memory.read l c.1 = none := by
              intro l hw
              cases l with
              | nil => rfl
              | cons e l =>
                have hp := List.pairwise_cons.mp hw
                exact low hp.2 (hp.1 e.1 (by simp))
            rw [hz m hm, hz k hk]
          · have := h a
            simpa [Memory.read, ha] using this
        rw [ih (List.pairwise_cons.mp hm).2 (List.pairwise_cons.mp hk).2 htail]
      · rw [low hm hgt] at hd; simp [Memory.read] at hd

end Sys2Proof.Machine
end

