-- ==== Sys2Proof/Laws/State.lean ====
section
/-! SUPPORT. One lemma per field for each named update of the state, so that no later proof unfolds a record update. -/

namespace Sys2Proof.Machine

/-! ## emit -/

@[simp] theorem emit_cfg (o : Output) (s : State) : (emit o s).cfg = s.cfg := rfl
@[simp] theorem emit_st (o : Output) (s : State) : (emit o s).st = s.st := rfl
@[simp] theorem emit_idx (o : Output) (s : State) : (emit o s).idx = s.idx := rfl
@[simp] theorem emit_max (o : Output) (s : State) : (emit o s).max = s.max := rfl
@[simp] theorem emit_L (o : Output) (s : State) : (emit o s).L = s.L := rfl
@[simp] theorem emit_cls (o : Output) (s : State) : (emit o s).cls = s.cls := rfl
@[simp] theorem emit_lbuf (o : Output) (s : State) : (emit o s).lbuf = s.lbuf := rfl
@[simp] theorem emit_FB (o : Output) (s : State) : (emit o s).FB = s.FB := rfl
@[simp] theorem emit_acc (o : Output) (s : State) : (emit o s).acc = s.acc := rfl
@[simp] theorem emit_fault (o : Output) (s : State) : (emit o s).fault = s.fault := rfl
@[simp] theorem emit_cfgLen (o : Output) (s : State) : (emit o s).cfgLen = s.cfgLen := rfl
@[simp] theorem emit_exitCode (o : Output) (s : State) : (emit o s).exitCode = s.exitCode := rfl
@[simp] theorem emit_out (o : Output) (s : State) : (emit o s).out = s.out ++ [o] := rfl
@[simp] theorem emit_mem (o : Output) (s : State) : (emit o s).mem = s.mem := rfl
@[simp] theorem emit_backlog (o : Output) (s : State) : (emit o s).backlog = s.backlog := rfl
@[simp] theorem emit_sink (o : Output) (s : State) : (emit o s).sink = s.sink := rfl
@[simp] theorem emit_inputs (o : Output) (s : State) : (emit o s).inputs = s.inputs := rfl
@[simp] theorem emit_result (o : Output) (s : State) : (emit o s).result = s.result := rfl
@[simp] theorem emit_fresh (o : Output) (s : State) : (emit o s).fresh = s.fresh := rfl

/-! ## pacerAccept -/

@[simp] theorem pacerAccept_cfg (x : TxFrame) (s : State) : (pacerAccept x s).cfg = s.cfg := rfl
@[simp] theorem pacerAccept_st (x : TxFrame) (s : State) : (pacerAccept x s).st = s.st := rfl
@[simp] theorem pacerAccept_idx (x : TxFrame) (s : State) : (pacerAccept x s).idx = s.idx := rfl
@[simp] theorem pacerAccept_max (x : TxFrame) (s : State) : (pacerAccept x s).max = s.max := rfl
@[simp] theorem pacerAccept_L (x : TxFrame) (s : State) : (pacerAccept x s).L = s.L := rfl
@[simp] theorem pacerAccept_cls (x : TxFrame) (s : State) : (pacerAccept x s).cls = s.cls := rfl
@[simp] theorem pacerAccept_lbuf (x : TxFrame) (s : State) : (pacerAccept x s).lbuf = s.lbuf := rfl
@[simp] theorem pacerAccept_FB (x : TxFrame) (s : State) : (pacerAccept x s).FB = s.FB := rfl
@[simp] theorem pacerAccept_acc (x : TxFrame) (s : State) : (pacerAccept x s).acc = s.acc := rfl
@[simp] theorem pacerAccept_fault (x : TxFrame) (s : State) : (pacerAccept x s).fault = s.fault := rfl
@[simp] theorem pacerAccept_cfgLen (x : TxFrame) (s : State) : (pacerAccept x s).cfgLen = s.cfgLen := rfl
@[simp] theorem pacerAccept_exitCode (x : TxFrame) (s : State) : (pacerAccept x s).exitCode = s.exitCode := rfl
@[simp] theorem pacerAccept_out (x : TxFrame) (s : State) : (pacerAccept x s).out = s.out := rfl
@[simp] theorem pacerAccept_mem (x : TxFrame) (s : State) : (pacerAccept x s).mem = s.mem := rfl
@[simp] theorem pacerAccept_backlog (x : TxFrame) (s : State) : (pacerAccept x s).backlog = s.backlog ++ [b64Chars x.bytes] := rfl
@[simp] theorem pacerAccept_sink (x : TxFrame) (s : State) : (pacerAccept x s).sink = s.sink := rfl
@[simp] theorem pacerAccept_inputs (x : TxFrame) (s : State) : (pacerAccept x s).inputs = s.inputs := rfl
@[simp] theorem pacerAccept_result (x : TxFrame) (s : State) : (pacerAccept x s).result = s.result := rfl
@[simp] theorem pacerAccept_fresh (x : TxFrame) (s : State) : (pacerAccept x s).fresh = s.fresh := rfl

/-! ## handOver -/

@[simp] theorem handOver_cfg (x : TxFrame) (s : State) : (handOver x s).cfg = s.cfg := rfl
@[simp] theorem handOver_st (x : TxFrame) (s : State) : (handOver x s).st = s.st := rfl
@[simp] theorem handOver_idx (x : TxFrame) (s : State) : (handOver x s).idx = s.idx := rfl
@[simp] theorem handOver_max (x : TxFrame) (s : State) : (handOver x s).max = s.max := rfl
@[simp] theorem handOver_L (x : TxFrame) (s : State) : (handOver x s).L = s.L := rfl
@[simp] theorem handOver_cls (x : TxFrame) (s : State) : (handOver x s).cls = s.cls := rfl
@[simp] theorem handOver_lbuf (x : TxFrame) (s : State) : (handOver x s).lbuf = s.lbuf := rfl
@[simp] theorem handOver_FB (x : TxFrame) (s : State) : (handOver x s).FB = s.FB := rfl
@[simp] theorem handOver_acc (x : TxFrame) (s : State) : (handOver x s).acc = s.acc := rfl
@[simp] theorem handOver_fault (x : TxFrame) (s : State) : (handOver x s).fault = s.fault := rfl
@[simp] theorem handOver_cfgLen (x : TxFrame) (s : State) : (handOver x s).cfgLen = s.cfgLen := rfl
@[simp] theorem handOver_exitCode (x : TxFrame) (s : State) : (handOver x s).exitCode = s.exitCode := rfl
@[simp] theorem handOver_out (x : TxFrame) (s : State) : (handOver x s).out = s.out ++ [.txFrame x] := rfl
@[simp] theorem handOver_mem (x : TxFrame) (s : State) : (handOver x s).mem = s.mem := rfl
@[simp] theorem handOver_backlog (x : TxFrame) (s : State) : (handOver x s).backlog = s.backlog ++ [b64Chars x.bytes] := rfl
@[simp] theorem handOver_sink (x : TxFrame) (s : State) : (handOver x s).sink = s.sink := rfl
@[simp] theorem handOver_inputs (x : TxFrame) (s : State) : (handOver x s).inputs = s.inputs := rfl
@[simp] theorem handOver_result (x : TxFrame) (s : State) : (handOver x s).result = s.result := rfl
@[simp] theorem handOver_fresh (x : TxFrame) (s : State) : (handOver x s).fresh = s.fresh := rfl

/-! ## finish -/

@[simp] theorem finish_cfg (s : State) : (finish s).cfg = s.cfg := rfl
@[simp] theorem finish_st (s : State) : (finish s).st = .done := rfl
@[simp] theorem finish_idx (s : State) : (finish s).idx = s.idx := rfl
@[simp] theorem finish_max (s : State) : (finish s).max = s.max := rfl
@[simp] theorem finish_L (s : State) : (finish s).L = s.L := rfl
@[simp] theorem finish_cls (s : State) : (finish s).cls = s.cls := rfl
@[simp] theorem finish_lbuf (s : State) : (finish s).lbuf = s.lbuf := rfl
@[simp] theorem finish_FB (s : State) : (finish s).FB = s.FB := rfl
@[simp] theorem finish_acc (s : State) : (finish s).acc = s.acc := rfl
@[simp] theorem finish_fault (s : State) : (finish s).fault = s.fault := rfl
@[simp] theorem finish_cfgLen (s : State) : (finish s).cfgLen = s.cfgLen := rfl
@[simp] theorem finish_exitCode (s : State) : (finish s).exitCode = some 0 := rfl
@[simp] theorem finish_out (s : State) : (finish s).out = s.out ++ [.log .done] ++ [.trClose] := rfl
@[simp] theorem finish_mem (s : State) : (finish s).mem = s.mem := rfl
@[simp] theorem finish_backlog (s : State) : (finish s).backlog = s.backlog := rfl
@[simp] theorem finish_sink (s : State) : (finish s).sink = s.sink := rfl
@[simp] theorem finish_inputs (s : State) : (finish s).inputs = s.inputs := rfl
@[simp] theorem finish_result (s : State) : (finish s).result = s.result := rfl
@[simp] theorem finish_fresh (s : State) : (finish s).fresh = s.fresh := rfl

/-! ## raiseFault -/

@[simp] theorem raiseFault_cfg (f : FaultCode) (s : State) : (raiseFault f s).cfg = s.cfg := rfl
@[simp] theorem raiseFault_st (f : FaultCode) (s : State) : (raiseFault f s).st = s.st := rfl
@[simp] theorem raiseFault_idx (f : FaultCode) (s : State) : (raiseFault f s).idx = s.idx := rfl
@[simp] theorem raiseFault_max (f : FaultCode) (s : State) : (raiseFault f s).max = s.max := rfl
@[simp] theorem raiseFault_L (f : FaultCode) (s : State) : (raiseFault f s).L = s.L := rfl
@[simp] theorem raiseFault_cls (f : FaultCode) (s : State) : (raiseFault f s).cls = s.cls := rfl
@[simp] theorem raiseFault_lbuf (f : FaultCode) (s : State) : (raiseFault f s).lbuf = s.lbuf := rfl
@[simp] theorem raiseFault_FB (f : FaultCode) (s : State) : (raiseFault f s).FB = s.FB := rfl
@[simp] theorem raiseFault_acc (f : FaultCode) (s : State) : (raiseFault f s).acc = s.acc := rfl
@[simp] theorem raiseFault_fault (f : FaultCode) (s : State) : (raiseFault f s).fault = f := rfl
@[simp] theorem raiseFault_cfgLen (f : FaultCode) (s : State) : (raiseFault f s).cfgLen = s.cfgLen := rfl
@[simp] theorem raiseFault_exitCode (f : FaultCode) (s : State) : (raiseFault f s).exitCode = s.exitCode := rfl
@[simp] theorem raiseFault_out (f : FaultCode) (s : State) : (raiseFault f s).out = s.out := rfl
@[simp] theorem raiseFault_mem (f : FaultCode) (s : State) : (raiseFault f s).mem = s.mem := rfl
@[simp] theorem raiseFault_backlog (f : FaultCode) (s : State) : (raiseFault f s).backlog = s.backlog := rfl
@[simp] theorem raiseFault_sink (f : FaultCode) (s : State) : (raiseFault f s).sink = s.sink := rfl
@[simp] theorem raiseFault_inputs (f : FaultCode) (s : State) : (raiseFault f s).inputs = s.inputs := rfl
@[simp] theorem raiseFault_result (f : FaultCode) (s : State) : (raiseFault f s).result = s.result := rfl
@[simp] theorem raiseFault_fresh (f : FaultCode) (s : State) : (raiseFault f s).fresh = s.fresh := rfl

/-! ## clearLine -/

@[simp] theorem clearLine_cfg (s : State) : (clearLine s).cfg = s.cfg := rfl
@[simp] theorem clearLine_st (s : State) : (clearLine s).st = s.st := rfl
@[simp] theorem clearLine_idx (s : State) : (clearLine s).idx = s.idx := rfl
@[simp] theorem clearLine_max (s : State) : (clearLine s).max = s.max := rfl
@[simp] theorem clearLine_L (s : State) : (clearLine s).L = s.L := rfl
@[simp] theorem clearLine_cls (s : State) : (clearLine s).cls = .E := rfl
@[simp] theorem clearLine_lbuf (s : State) : (clearLine s).lbuf = [] := rfl
@[simp] theorem clearLine_FB (s : State) : (clearLine s).FB = s.FB := rfl
@[simp] theorem clearLine_acc (s : State) : (clearLine s).acc = s.acc := rfl
@[simp] theorem clearLine_fault (s : State) : (clearLine s).fault = s.fault := rfl
@[simp] theorem clearLine_cfgLen (s : State) : (clearLine s).cfgLen = s.cfgLen := rfl
@[simp] theorem clearLine_exitCode (s : State) : (clearLine s).exitCode = s.exitCode := rfl
@[simp] theorem clearLine_out (s : State) : (clearLine s).out = s.out := rfl
@[simp] theorem clearLine_mem (s : State) : (clearLine s).mem = s.mem := rfl
@[simp] theorem clearLine_backlog (s : State) : (clearLine s).backlog = s.backlog := rfl
@[simp] theorem clearLine_sink (s : State) : (clearLine s).sink = s.sink := rfl
@[simp] theorem clearLine_inputs (s : State) : (clearLine s).inputs = s.inputs := rfl
@[simp] theorem clearLine_result (s : State) : (clearLine s).result = s.result := rfl
@[simp] theorem clearLine_fresh (s : State) : (clearLine s).fresh = s.fresh := rfl

/-! ## resetBlock -/

@[simp] theorem resetBlock_cfg (s : State) : (resetBlock s).cfg = s.cfg := rfl
@[simp] theorem resetBlock_st (s : State) : (resetBlock s).st = .idle := rfl
@[simp] theorem resetBlock_idx (s : State) : (resetBlock s).idx = 0 := rfl
@[simp] theorem resetBlock_max (s : State) : (resetBlock s).max = Config.freeMax s.fresh % 2 ^ s.cfg.idxW := rfl
@[simp] theorem resetBlock_L (s : State) : (resetBlock s).L = Config.freeLen s.fresh % 2 ^ (s.cfg.addrW + 1) := rfl
@[simp] theorem resetBlock_cls (s : State) : (resetBlock s).cls = .E := rfl
@[simp] theorem resetBlock_lbuf (s : State) : (resetBlock s).lbuf = [] := rfl
@[simp] theorem resetBlock_FB (s : State) : (resetBlock s).FB = (List.range (s.cfg.n + 1)).map (Config.freeFB s.fresh) := rfl
@[simp] theorem resetBlock_acc (s : State) : (resetBlock s).acc = Config.freeAcc s.fresh := rfl
@[simp] theorem resetBlock_fault (s : State) : (resetBlock s).fault = .none := rfl
@[simp] theorem resetBlock_cfgLen (s : State) : (resetBlock s).cfgLen = s.cfgLen := rfl
@[simp] theorem resetBlock_exitCode (s : State) : (resetBlock s).exitCode = none := rfl
@[simp] theorem resetBlock_out (s : State) : (resetBlock s).out = s.out := rfl
@[simp] theorem resetBlock_mem (s : State) : (resetBlock s).mem = s.mem := rfl
@[simp] theorem resetBlock_backlog (s : State) : (resetBlock s).backlog = s.backlog := rfl
@[simp] theorem resetBlock_sink (s : State) : (resetBlock s).sink = s.sink := rfl
@[simp] theorem resetBlock_inputs (s : State) : (resetBlock s).inputs = s.inputs := rfl
@[simp] theorem resetBlock_result (s : State) : (resetBlock s).result = s.result := rfl
@[simp] theorem resetBlock_fresh (s : State) : (resetBlock s).fresh = s.fresh + 1 := rfl

/-! ## cursorIncrease -/

@[simp] theorem cursorIncrease_cfg (s : State) : (cursorIncrease s).2.cfg = s.cfg := by
  unfold cursorIncrease; split <;> rfl
@[simp] theorem cursorIncrease_st (s : State) : (cursorIncrease s).2.st = s.st := by
  unfold cursorIncrease; split <;> rfl
@[simp] theorem cursorIncrease_max (s : State) : (cursorIncrease s).2.max = s.max := by
  unfold cursorIncrease; split <;> rfl
@[simp] theorem cursorIncrease_L (s : State) : (cursorIncrease s).2.L = s.L := by
  unfold cursorIncrease; split <;> rfl
@[simp] theorem cursorIncrease_cls (s : State) : (cursorIncrease s).2.cls = s.cls := by
  unfold cursorIncrease; split <;> rfl
@[simp] theorem cursorIncrease_lbuf (s : State) : (cursorIncrease s).2.lbuf = s.lbuf := by
  unfold cursorIncrease; split <;> rfl
@[simp] theorem cursorIncrease_FB (s : State) : (cursorIncrease s).2.FB = s.FB := by
  unfold cursorIncrease; split <;> rfl
@[simp] theorem cursorIncrease_acc (s : State) : (cursorIncrease s).2.acc = s.acc := by
  unfold cursorIncrease; split <;> rfl
@[simp] theorem cursorIncrease_fault (s : State) : (cursorIncrease s).2.fault = s.fault := by
  unfold cursorIncrease; split <;> rfl
@[simp] theorem cursorIncrease_cfgLen (s : State) : (cursorIncrease s).2.cfgLen = s.cfgLen := by
  unfold cursorIncrease; split <;> rfl
@[simp] theorem cursorIncrease_exitCode (s : State) : (cursorIncrease s).2.exitCode = s.exitCode := by
  unfold cursorIncrease; split <;> rfl
@[simp] theorem cursorIncrease_out (s : State) : (cursorIncrease s).2.out = s.out := by
  unfold cursorIncrease; split <;> rfl
@[simp] theorem cursorIncrease_mem (s : State) : (cursorIncrease s).2.mem = s.mem := by
  unfold cursorIncrease; split <;> rfl
@[simp] theorem cursorIncrease_backlog (s : State) : (cursorIncrease s).2.backlog = s.backlog := by
  unfold cursorIncrease; split <;> rfl
@[simp] theorem cursorIncrease_sink (s : State) : (cursorIncrease s).2.sink = s.sink := by
  unfold cursorIncrease; split <;> rfl
@[simp] theorem cursorIncrease_inputs (s : State) : (cursorIncrease s).2.inputs = s.inputs := by
  unfold cursorIncrease; split <;> rfl
@[simp] theorem cursorIncrease_result (s : State) : (cursorIncrease s).2.result = s.result := by
  unfold cursorIncrease; split <;> rfl
@[simp] theorem cursorIncrease_fresh (s : State) : (cursorIncrease s).2.fresh = s.fresh := by
  unfold cursorIncrease; split <;> rfl

/-- The cursor moves by one, but at `max` (44_index_cursor.md R201). -/
theorem cursorIncrease_idx (s : State) :
    (cursorIncrease s).2.idx = if s.idx = s.max then s.idx else s.idx + 1 := by
  unfold cursorIncrease; split <;> rfl

/-! ## takeByte -/

@[simp] theorem takeByte_cfg (q : ByteClass) (b : Byte) (s : State) : (takeByte q b s).cfg = s.cfg := by
  unfold takeByte; split <;> rfl
@[simp] theorem takeByte_st (q : ByteClass) (b : Byte) (s : State) : (takeByte q b s).st = s.st := by
  unfold takeByte; split <;> rfl
@[simp] theorem takeByte_idx (q : ByteClass) (b : Byte) (s : State) : (takeByte q b s).idx = s.idx := by
  unfold takeByte; split <;> rfl
@[simp] theorem takeByte_max (q : ByteClass) (b : Byte) (s : State) : (takeByte q b s).max = s.max := by
  unfold takeByte; split <;> rfl
@[simp] theorem takeByte_L (q : ByteClass) (b : Byte) (s : State) : (takeByte q b s).L = s.L := by
  unfold takeByte; split <;> rfl
@[simp] theorem takeByte_FB (q : ByteClass) (b : Byte) (s : State) : (takeByte q b s).FB = s.FB := by
  unfold takeByte; split <;> rfl
@[simp] theorem takeByte_acc (q : ByteClass) (b : Byte) (s : State) : (takeByte q b s).acc = s.acc := by
  unfold takeByte; split <;> rfl
@[simp] theorem takeByte_fault (q : ByteClass) (b : Byte) (s : State) : (takeByte q b s).fault = s.fault := by
  unfold takeByte; split <;> rfl
@[simp] theorem takeByte_cfgLen (q : ByteClass) (b : Byte) (s : State) : (takeByte q b s).cfgLen = s.cfgLen := by
  unfold takeByte; split <;> rfl
@[simp] theorem takeByte_exitCode (q : ByteClass) (b : Byte) (s : State) : (takeByte q b s).exitCode = s.exitCode := by
  unfold takeByte; split <;> rfl
@[simp] theorem takeByte_out (q : ByteClass) (b : Byte) (s : State) : (takeByte q b s).out = s.out := by
  unfold takeByte; split <;> rfl
@[simp] theorem takeByte_mem (q : ByteClass) (b : Byte) (s : State) : (takeByte q b s).mem = s.mem := by
  unfold takeByte; split <;> rfl
@[simp] theorem takeByte_backlog (q : ByteClass) (b : Byte) (s : State) : (takeByte q b s).backlog = s.backlog := by
  unfold takeByte; split <;> rfl
@[simp] theorem takeByte_sink (q : ByteClass) (b : Byte) (s : State) : (takeByte q b s).sink = s.sink := by
  unfold takeByte; split <;> rfl
@[simp] theorem takeByte_inputs (q : ByteClass) (b : Byte) (s : State) : (takeByte q b s).inputs = s.inputs := by
  unfold takeByte; split <;> rfl
@[simp] theorem takeByte_result (q : ByteClass) (b : Byte) (s : State) : (takeByte q b s).result = s.result := by
  unfold takeByte; split <;> rfl
@[simp] theorem takeByte_fresh (q : ByteClass) (b : Byte) (s : State) : (takeByte q b s).fresh = s.fresh := by
  unfold takeByte; split <;> rfl

/-! ## latchLen -/

@[simp] theorem latchLen_cfg (s : State) : (latchLen s).cfg = s.cfg := by
  unfold latchLen; split <;> rfl
@[simp] theorem latchLen_st (s : State) : (latchLen s).st = s.st := by
  unfold latchLen; split <;> rfl
@[simp] theorem latchLen_idx (s : State) : (latchLen s).idx = s.idx := by
  unfold latchLen; split <;> rfl
@[simp] theorem latchLen_max (s : State) : (latchLen s).max = s.max := by
  unfold latchLen; split <;> rfl
@[simp] theorem latchLen_cls (s : State) : (latchLen s).cls = s.cls := by
  unfold latchLen; split <;> rfl
@[simp] theorem latchLen_lbuf (s : State) : (latchLen s).lbuf = s.lbuf := by
  unfold latchLen; split <;> rfl
@[simp] theorem latchLen_FB (s : State) : (latchLen s).FB = s.FB := by
  unfold latchLen; split <;> rfl
@[simp] theorem latchLen_acc (s : State) : (latchLen s).acc = s.acc := by
  unfold latchLen; split <;> rfl
@[simp] theorem latchLen_fault (s : State) : (latchLen s).fault = s.fault := by
  unfold latchLen; split <;> rfl
@[simp] theorem latchLen_cfgLen (s : State) : (latchLen s).cfgLen = s.cfgLen := by
  unfold latchLen; split <;> rfl
@[simp] theorem latchLen_exitCode (s : State) : (latchLen s).exitCode = s.exitCode := by
  unfold latchLen; split <;> rfl
@[simp] theorem latchLen_out (s : State) : (latchLen s).out = s.out := by
  unfold latchLen; split <;> rfl
@[simp] theorem latchLen_mem (s : State) : (latchLen s).mem = s.mem := by
  unfold latchLen; split <;> rfl
@[simp] theorem latchLen_backlog (s : State) : (latchLen s).backlog = s.backlog := by
  unfold latchLen; split <;> rfl
@[simp] theorem latchLen_sink (s : State) : (latchLen s).sink = s.sink := by
  unfold latchLen; split <;> rfl
@[simp] theorem latchLen_inputs (s : State) : (latchLen s).inputs = s.inputs := by
  unfold latchLen; split <;> rfl
@[simp] theorem latchLen_result (s : State) : (latchLen s).result = s.result := by
  unfold latchLen; split <;> rfl

/-! ## latchMax -/

@[simp] theorem latchMax_cfg (s : State) : (latchMax s).cfg = s.cfg := by
  unfold latchMax; split <;> rfl
@[simp] theorem latchMax_st (s : State) : (latchMax s).st = s.st := by
  unfold latchMax; split <;> rfl
@[simp] theorem latchMax_idx (s : State) : (latchMax s).idx = s.idx := by
  unfold latchMax; split <;> rfl
@[simp] theorem latchMax_L (s : State) : (latchMax s).L = s.L := by
  unfold latchMax; split <;> rfl
@[simp] theorem latchMax_cls (s : State) : (latchMax s).cls = s.cls := by
  unfold latchMax; split <;> rfl
@[simp] theorem latchMax_lbuf (s : State) : (latchMax s).lbuf = s.lbuf := by
  unfold latchMax; split <;> rfl
@[simp] theorem latchMax_FB (s : State) : (latchMax s).FB = s.FB := by
  unfold latchMax; split <;> rfl
@[simp] theorem latchMax_acc (s : State) : (latchMax s).acc = s.acc := by
  unfold latchMax; split <;> rfl
@[simp] theorem latchMax_fault (s : State) : (latchMax s).fault = s.fault := by
  unfold latchMax; split <;> rfl
@[simp] theorem latchMax_cfgLen (s : State) : (latchMax s).cfgLen = s.cfgLen := by
  unfold latchMax; split <;> rfl
@[simp] theorem latchMax_exitCode (s : State) : (latchMax s).exitCode = s.exitCode := by
  unfold latchMax; split <;> rfl
@[simp] theorem latchMax_out (s : State) : (latchMax s).out = s.out := by
  unfold latchMax; split <;> rfl
@[simp] theorem latchMax_mem (s : State) : (latchMax s).mem = s.mem := by
  unfold latchMax; split <;> rfl
@[simp] theorem latchMax_backlog (s : State) : (latchMax s).backlog = s.backlog := by
  unfold latchMax; split <;> rfl
@[simp] theorem latchMax_sink (s : State) : (latchMax s).sink = s.sink := by
  unfold latchMax; split <;> rfl
@[simp] theorem latchMax_inputs (s : State) : (latchMax s).inputs = s.inputs := by
  unfold latchMax; split <;> rfl
@[simp] theorem latchMax_result (s : State) : (latchMax s).result = s.result := by
  unfold latchMax; split <;> rfl

/-! ## Conditions -/

/-- The waiting state, as a proposition. -/
theorem waiting_iff (s : State) : s.waiting = true ↔ s.st = .await ∧ s.fault = .none := by
  simp [State.waiting, State.rxEnFlag, State.faultedFlag]

@[simp] theorem view_st (s : State) : s.view.st = s.st := rfl
@[simp] theorem view_faulted (s : State) : s.view.faulted = decide (s.fault ≠ .none) := rfl
@[simp] theorem view_cursor (s : State) : s.view.cursor = cursorPos s.idx s.max := rfl
@[simp] theorem view_idxZero (s : State) : s.view.idxZero = decide (s.idx = 0) := rfl

end Sys2Proof.Machine
end

