-- ==== Sys2Proof/Laws/Ops.lean ====
section
/-! SUPPORT. One lemma for each shared operation that says everything it can do. -/

namespace Sys2Proof.Machine

/-! ## Sequencing of computations -/

@[simp] theorem bindRun_next {α β : Type} (a : α) (f : α → Run β) : bindRun (.next a) f = f a := rfl
@[simp] theorem bindRun_fault {α β : Type} (r : Fault) (f : α → Run β) :
    bindRun (.fault r) f = .fault r := rfl
@[simp] theorem bindRun_refused {α β : Type} (r : Refusal) (f : α → Run β) :
    bindRun (.refused r) f = .refused r := rfl

/-- A sequence answers a value only through a value of its first part. -/
theorem bindRun_eq_next {α β : Type} {m : Run α} {f : α → Run β} {b : β} :
    bindRun m f = .next b ↔ ∃ a, m = .next a ∧ f a = .next b := by
  cases m <;> simp [bindRun]

/-! ## Payload reads -/

/-- A read answers only for an address below `L` that the memory holds (20_memory.md R40). -/
theorem memRead_eq_next {s : State} {a : Nat} {b : Byte} :
    memRead s a = .next b ↔ a < s.L ∧ s.mem.read a = some b := by
  unfold memRead
  by_cases h : a < s.L
  · cases hm : s.mem.read a <;> simp [h]
  · simp [h]

theorem memRead_loaded {s : State} {a : Nat} (h : a < s.L) (hm : (s.mem.read a).isSome) :
    memRead s a = .next (payloadByte s a) := by
  obtain ⟨b, hb⟩ := Option.isSome_iff_exists.mp hm
  exact memRead_eq_next.mpr ⟨h, by simp [payloadByte, hb]⟩

/-- A run of reads answers the bytes in rising order. -/
theorem readBytes_loaded {s : State} {m a : Nat}
    (h : ∀ j, j < m → a + j < s.L ∧ (s.mem.read (a + j)).isSome) :
    readBytes s a m = .next ((List.range m).map fun j => payloadByte s (a + j)) := by
  induction m generalizing a with
  | zero => rfl
  | succ m ih =>
    have h0 := h 0 (by omega)
    have hr := ih (a := a + 1) fun j hj => by
      have := h (j + 1) (by omega)
      rwa [show a + (j + 1) = a + 1 + j by omega] at this
    rw [readBytes, memRead_loaded (by simpa using h0.1) (by simpa using h0.2), bindRun_next, hr, bindRun_next,
      List.range_succ_eq_map]
    simp [Function.comp_def, Nat.add_assoc, Nat.add_comm 1]

/-- A run of reads answers only where every byte is admitted. -/
theorem readBytes_next {s : State} {m a : Nat} {bs : List Byte} (h : readBytes s a m = .next bs) :
    ∀ j, j < m → a + j < s.L ∧ (s.mem.read (a + j)).isSome := by
  induction m generalizing a bs with
  | zero => intro j hj; omega
  | succ m ih =>
    rw [readBytes, bindRun_eq_next] at h
    obtain ⟨b, hb, h⟩ := h
    rw [bindRun_eq_next] at h
    obtain ⟨r, hr, -⟩ := h
    obtain ⟨hl, hs⟩ := memRead_eq_next.mp hb
    intro j hj
    cases j with
    | zero => simp [hl, hs]
    | succ j =>
      have := ih hr j (by omega)
      rwa [show a + 1 + j = a + (j + 1) by omega] at this

/-! ## Composer -/

theorem chunkSizeOk_iff (c : Config) : chunkSizeOk c = true ↔ 1 ≤ c.n ∧ c.n ≤ 8 := by
  simp [chunkSizeOk]

@[simp] theorem chunkBytes_length (s : State) (l i : Nat) :
    (chunkBytes s l i).length = chunkLen s.cfg.n l i := by simp [chunkBytes]

@[simp] theorem padBytes_length {n : Nat} {c : List Byte} (h : c.length ≤ n) : (padBytes n c).length = n := by
  simp [padBytes]; omega

/-- A loaded payload is loaded chunk by chunk. -/
theorem PayloadLoaded.chunk {s : State} {l : Nat} (h : PayloadLoaded s l) (i : Nat) : ChunkLoaded s l i := by
  intro j hj
  unfold chunkLen at hj
  exact h _ (by omega)

/-- Chunk 0 of any length lies in the first `N` addresses. -/
theorem PayloadLoaded.chunk_zero {s : State} {l k : Nat} (h : PayloadLoaded s (min s.cfg.n k)) (hl : l ≤ k) :
    ChunkLoaded s l 0 := by
  intro j hj
  unfold chunkLen chunkBase at *
  exact h _ (by omega)

/-- `CHUNK` answers the bytes of the chunk where its index is a chunk's and the chunk is loaded (R90). -/
theorem chunkAt_loaded {s : State} {i : Nat} (hn : 1 ≤ s.cfg.n ∧ s.cfg.n ≤ 8) (hi : i ≤ s.max)
    (hb : chunkBase s.cfg.n i < s.L) (hm : ChunkLoaded s s.L i) :
    chunkAt s i = .next (chunkBytes s s.L i) := by
  unfold chunkAt
  rw [if_neg (by simp [chunkSizeOk_iff _ |>.mpr hn]), if_pos ⟨hi, hb⟩]
  refine readBytes_loaded fun j hj => ?_
  have : chunkBase s.cfg.n i + j < s.L := by unfold chunkLen at hj; omega
  exact ⟨this, hm j hj⟩

/-- `CHUNK` answers only there, and the bytes of the chunk are loaded. -/
theorem chunkAt_next {s : State} {i : Nat} {c : List Byte} (h : chunkAt s i = .next c) :
    (1 ≤ s.cfg.n ∧ s.cfg.n ≤ 8) ∧ i ≤ s.max ∧ chunkBase s.cfg.n i < s.L ∧ c = chunkBytes s s.L i := by
  unfold chunkAt at h
  split at h
  · cases h
  · rename_i hn
    split at h
    · rename_i hi
      refine ⟨(chunkSizeOk_iff _).mp (by simpa using hn), hi.1, hi.2, ?_⟩
      have := readBytes_loaded (readBytes_next h)
      rw [h] at this
      exact Host.Outcome.next.inj this
    · cases h

/-- The slice does not read `st`. -/
theorem chunkAt_withSt (s : State) (x : St) (i : Nat) : chunkAt { s with st := x } i = chunkAt s i := by
  have hr : ∀ m a, readBytes { s with st := x } a m = readBytes s a m := by
    intro m
    induction m with
    | zero => intro a; rfl
    | succ m ih => intro a; simp only [readBytes, ih]; rfl
  simp only [chunkAt, hr]

/-- `FRAME` inside its domain: the padded chunk and its checksum, in `FB` and `acc` (R93). -/
theorem frameRun_eq {l : List Byte} {s : State} (hn : 1 ≤ s.cfg.n ∧ s.cfg.n ≤ 8)
    (hl : 1 ≤ l.length ∧ l.length ≤ s.cfg.n) :
    frameRun l s = .next (frameBytes s.cfg.n l,
      { s with acc := cksumByte (padBytes s.cfg.n l), FB := frameBytes s.cfg.n l }) := by
  have hc := (chunkSizeOk_iff s.cfg).mpr hn
  simp [frameRun, padRun, inComposerDomain, cksumRun, hc, hl, padBytes_length hl.2, frameBytes]

/-- `FRAME` answers only inside its domain (R97). -/
theorem frameRun_next {l : List Byte} {s : State} {q : List Byte × State} (h : frameRun l s = .next q) :
    (1 ≤ s.cfg.n ∧ s.cfg.n ≤ 8) ∧ 1 ≤ l.length ∧ l.length ≤ s.cfg.n := by
  unfold frameRun padRun at h
  rw [bindRun_eq_next] at h
  obtain ⟨p, hp, -⟩ := h
  rw [bindRun_eq_next] at hp
  obtain ⟨u, hu, -⟩ := hp
  unfold inComposerDomain at hu
  split at hu
  · cases hu
  · rename_i hn
    split at hu
    · rename_i hl
      exact ⟨(chunkSizeOk_iff _).mp (by simpa using hn), hl⟩
    · cases hu

/-- A chunk with a byte in it has between 1 and `N` bytes. -/
theorem chunkLen_pos {n l i : Nat} (hn : 1 ≤ n) (h : chunkBase n i < l) :
    1 ≤ chunkLen n l i ∧ chunkLen n l i ≤ n := by
  unfold chunkLen; omega

/-! ## Sequencer sub-operations -/

/-- `send` where the chunk can be read (R162). -/
theorem send_eq {r : Bool} {s : State} (h : CanSend s) : send r s = .next (afterSend r s) := by
  obtain ⟨h1, h8, hi, hb, hm⟩ := h
  have hlen := chunkLen_pos h1 hb
  unfold send
  rw [chunkAt_withSt, chunkAt_loaded ⟨h1, h8⟩ hi hb hm, bindRun_next,
    frameRun_eq (s := { s with st := St.sending }) ⟨h1, h8⟩ (by simpa using hlen), bindRun_next]
  simp [afterSend, handOver, pacerAccept, emit, sendLog]

/-- `send` answers only where the index is a chunk's, and then it leaves exactly that. -/
theorem send_next {r : Bool} {s t : State} (h : send r s = .next t) :
    (1 ≤ s.cfg.n ∧ s.cfg.n ≤ 8) ∧ s.idx ≤ s.max ∧ chunkBase s.cfg.n s.idx < s.L ∧ t = afterSend r s := by
  unfold send at h
  rw [chunkAt_withSt, bindRun_eq_next] at h
  obtain ⟨c, hc, h⟩ := h
  obtain ⟨hn, hi, hb, rfl⟩ := chunkAt_next hc
  have hlen := chunkLen_pos hn.1 hb
  rw [frameRun_eq (s := { s with st := St.sending }) hn (by simpa using hlen), bindRun_next] at h
  refine ⟨hn, hi, hb, ?_⟩
  rw [← Host.Outcome.next.inj h]
  simp [afterSend, handOver, pacerAccept, emit, sendLog]

/-- `finish` (R172). -/
theorem finish_eq (s : State) : finish s = afterFinish s := by
  simp [finish, afterFinish, emit]

/-- Below `max` the cursor moves (R201). -/
theorem cursorIncrease_below {s : State} (h : s.idx < s.max) :
    cursorIncrease s = (some (s.idx + 1), { s with idx := s.idx + 1 }) := by
  unfold cursorIncrease; rw [if_neg (by omega)]

/-- At `max` it stays (R201). -/
theorem cursorIncrease_atMax {s : State} (h : s.idx = s.max) : cursorIncrease s = (none, s) := by
  unfold cursorIncrease; rw [if_pos h]

/-- A legal level of `cfg_len` is latched as it is (R161). -/
theorem latchLen_of_le {s : State} (h : s.cfgLen ≤ 2 ^ s.cfg.addrW) : latchLen s = { s with L := s.cfgLen } := if_pos h

/-- Any other level leaves some legal length of a payload that is not empty (log 37). -/
theorem latchLen_of_lt {s : State} (h : 2 ^ s.cfg.addrW < s.cfgLen) :
    ∃ l, 1 ≤ l ∧ l ≤ 2 ^ s.cfg.addrW ∧ latchLen s = { s with L := l, fresh := s.fresh + 1 } := by
  have := Nat.mod_lt (Config.freeLen s.fresh) (Nat.two_pow_pos s.cfg.addrW)
  exact ⟨_, Nat.le_add_right 1 _, by omega, if_neg (Nat.not_le.mpr h)⟩

/-- The latched length is one that 10_state.md R14 admits, and 0 for an empty payload only. -/
theorem latchLen_L (s : State) : (latchLen s).L ≤ 2 ^ s.cfg.addrW ∧ ((latchLen s).L = 0 ↔ s.cfgLen = 0) := by
  rcases Nat.lt_or_ge (2 ^ s.cfg.addrW) s.cfgLen with h | h
  · obtain ⟨l, h1, h2, e⟩ := latchLen_of_lt h
    rw [e]
    exact ⟨h2, by constructor <;> intro h0 <;> simp only at * <;> omega⟩
  · rw [latchLen_of_le h]
    exact ⟨h, Iff.rfl⟩

/-- Where the chunk count fits the register (R161). -/
theorem latchMax_of_le {s : State} (h : chunkCount s.cfg.n s.L ≤ 2 ^ s.cfg.idxW) :
    latchMax s = { s with max := chunkCount s.cfg.n s.L - 1 } := if_pos h

/-- Where it does not (log 13). -/
theorem latchMax_of_lt {s : State} (h : 2 ^ s.cfg.idxW < chunkCount s.cfg.n s.L) :
    latchMax s = { s with max := Config.freeMax s.fresh % 2 ^ s.cfg.idxW, fresh := s.fresh + 1 } :=
  if_neg (Nat.not_le.mpr h)

/-- `max` after `START` fits the payload length (R161; log 13). -/
theorem latchMax_fits {s : State} (hL : 1 ≤ s.L) (hn : 1 ≤ s.cfg.n) :
    MaxFits s.cfg s.L (latchMax s).max ∧ (latchMax s).max < 2 ^ s.cfg.idxW := by
  have hp : 0 < 2 ^ s.cfg.idxW := Nat.two_pow_pos _
  have hc : 1 ≤ chunkCount s.cfg.n s.L := by
    unfold chunkCount
    exact (Nat.one_le_div_iff (by omega)).mpr (by omega)
  unfold latchMax MaxFits
  split
  · exact ⟨rfl, by simp only; omega⟩
  · rename_i h
    have := Nat.mod_lt (Config.freeMax s.fresh) hp
    exact ⟨⟨by simp only; omega, this⟩, this⟩

/-- An index up to `max` is a chunk's index (40_frame_composer.md R90, R94 c). -/
theorem chunkBase_lt {c : Config} {l mx i : Nat} (hn : 1 ≤ c.n) (hl : 1 ≤ l) (h : MaxFits c l mx) (hi : i ≤ mx) :
    chunkBase c.n i < l := by
  have hc : 1 ≤ chunkCount c.n l := by
    unfold chunkCount
    exact (Nat.one_le_div_iff (by omega)).mpr (by omega)
  have hlt : i < chunkCount c.n l := by
    unfold MaxFits at h
    split at h <;> omega
  unfold chunkCount at hlt
  unfold chunkBase
  have h2 : (i + 1) * c.n ≤ l + c.n - 1 := (Nat.le_div_iff_mul_le (by omega)).mp hlt
  have h3 : (i + 1) * c.n = i * c.n + c.n := by ring
  omega

/-! ## TX pacer -/

/-- The pacer writes a character only of a transmission that has one. -/
theorem pacerWrite_next {j d : Nat} {s t : State} (h : pacerWrite j d s = .next t) :
    ∃ ch rest, s.backlog[j]? = some (ch :: rest) ∧
      t = { s with
        sink := s.sink ++ [ch]
        backlog := advanceJob s.backlog j rest
        inputs := if rest = [] then report d .txDone s.inputs else s.inputs } := by
  unfold pacerWrite at h
  split at h
  · rename_i ch rest hb; exact ⟨ch, rest, hb, (Host.Outcome.next.inj h).symm⟩
  · cases h
  · cases h

theorem pacerFail_next {j d : Nat} {s t : State} (h : pacerFail j d s = .next t) :
    ∃ ch rest, s.backlog[j]? = some (ch :: rest) ∧
      t = { s with
        backlog := advanceJob s.backlog j rest
        inputs := report d .wrErr s.inputs } := by
  unfold pacerFail at h
  split at h
  · rename_i ch rest hb; exact ⟨ch, rest, hb, (Host.Outcome.next.inj h).symm⟩
  · cases h
  · cases h

/-- A transmission with no character left is over. -/
theorem advanceJob_open {bl : List (List Byte)} {j : Nat} {rest : List Byte} (h : [] ∉ bl) :
    [] ∉ advanceJob bl j rest := by
  cases rest with
  | nil => exact fun hm => h (List.mem_of_mem_eraseIdx hm)
  | cons c r =>
    intro hm
    rcases List.mem_or_eq_of_mem_set hm with hm | hm
    · exact h hm
    · cases hm

/-- The text of a frame that has a byte has a character. -/
theorem b64Chars_ne_nil {f : List Byte} (h : f ≠ []) : b64Chars f ≠ [] := by
  match f, h with
  | [a], _ => simp [b64Chars]
  | [a, b], _ => simp [b64Chars]
  | a :: b :: c :: r, _ => simp [b64Chars]

theorem frameBytes_ne_nil (n : Nat) (c : List Byte) : frameBytes n c ≠ [] := by simp [frameBytes]

/-! ## The step -/

/-- A step runs the operation its input selects, or is an act of the host. -/
theorem step_next_cases {s t : State} (h : step s = .next t) :
    (∃ i u, fetch s = .op i u ∧ exec i u = .next t) ∨ fetch s = .host t := by
  unfold step at h
  split at h
  · rename_i i u hf; exact Or.inl ⟨i, u, hf, h⟩
  · rename_i u hf; exact Or.inr (hf.trans (congrArg _ (Host.Outcome.next.inj h)))
  · cases h

end Sys2Proof.Machine
end

