-- ==== Sys2Proof/Laws/Run.lean ====
section
/-! SUPPORT. The terms of the ends of a run (70_reset_and_hazards.md R266): what is still to come, and where a state stands. -/

namespace Sys2Proof.Machine

theorem eventsAhead_append (a b : List Input) : eventsAhead (a ++ b) = eventsAhead a ++ eventsAhead b := by
  simp [eventsAhead]

theorem eventsAhead_events (es : List BlockEvent) : eventsAhead (es.map .event) = es := by
  induction es with
  | nil => rfl
  | cons e es ih => simpa [eventsAhead, Input.events] using ih

@[simp] theorem eventsAhead_event (e : BlockEvent) (rest : List Input) :
    eventsAhead (.event e :: rest) = e :: eventsAhead rest := rfl
@[simp] theorem eventsAhead_together (x : Together) (rest : List Input) :
    eventsAhead (.together x :: rest) = serialise x ++ eventsAhead rest := rfl

/-- What is left of the inputs after a step has taken the next one: the events to come are those after the event taken, and
nothing came in but events that were waiting for their turn at one instant. -/
abbrev State.Leaves (s : State) (rest : List Input) : Prop :=
  eventsAhead s.inputs = s.nextEvent.toList ++ eventsAhead rest ∧ ∀ x ∈ rest, x ∈ s.inputs ∨ ∃ e, x = .event e

/-- An entry other than several events at one instant is taken off whole. -/
theorem leaves_of_cons {s : State} {x : Input} {rest : List Input} (h : s.inputs = x :: rest)
    (he : x.events = s.nextEvent.toList) : s.Leaves rest :=
  ⟨by simp [h, eventsAhead, ← he], fun y hy => Or.inl (by simp [h, hy])⟩

/-- The first of several events at one instant is taken, the others stay. -/
theorem leaves_of_together {s : State} {x : Together} {e : BlockEvent} {es : List BlockEvent} {rest : List Input}
    (h : s.inputs = .together x :: rest) (hx : serialise x = e :: es) : s.Leaves (es.map .event ++ rest) := by
  refine ⟨by simp [h, hx, State.nextEvent, eventsAhead_append, eventsAhead_events], fun y hy => ?_⟩
  rcases List.mem_append.mp hy with hy | hy
  · obtain ⟨e, -, rfl⟩ := List.mem_map.mp hy
    exact Or.inr ⟨e, rfl⟩
  · exact Or.inl (by simp [h, hy])

/-- The inbound bytes among block events, up to the first `reset`. -/
theorem rxAhead_of_events {a b : List Input} (h : eventsAhead a = eventsAhead b) : rxAhead a = rxAhead b := by
  simp [rxAhead, h]

/-- An inbound byte in front is the next byte to come. -/
theorem rxAhead_rxByte {a b : List Input} {c : Byte} (h : eventsAhead a = .rxByte c :: eventsAhead b) :
    rxAhead a = c :: rxAhead b := by
  simp [rxAhead, BlockEvent.inbound, h]

/-- Any other event in front, but `reset`, brings no byte. -/
theorem rxAhead_other {a b : List Input} {e : BlockEvent} (h : eventsAhead a = e :: eventsAhead b) (hr : e ≠ .reset)
    (hb : ∀ c, e ≠ .rxByte c) : rxAhead a = rxAhead b := by
  cases e with
  | reset => exact absurd rfl hr
  | rxByte c => exact absurd rfl (hb c)
  | start => simp [rxAhead, List.filterMap_cons, BlockEvent.inbound, h]
  | wrErr => simp [rxAhead, List.filterMap_cons, BlockEvent.inbound, h]
  | txDone => simp [rxAhead, List.filterMap_cons, BlockEvent.inbound, h]

/-- A report of the TX pacer, wherever it lands, changes nothing of the bytes to come. -/
theorem rxAhead_report (d : Nat) {e : BlockEvent} (l : List Input) (hr : e ≠ .reset) (hb : ∀ c, e ≠ .rxByte c) :
    rxAhead (report d e l) = rxAhead l := by
  have key : ∀ a b : List BlockEvent,
      ((a ++ e :: b).takeWhile (· ≠ .reset)).filterMap BlockEvent.inbound =
      ((a ++ b).takeWhile (· ≠ .reset)).filterMap BlockEvent.inbound := by
    intro a b
    induction a with
    | nil => cases e <;> simp_all [List.filterMap_cons, BlockEvent.inbound]
    | cons x a ih => cases x <;> simp_all [List.filterMap_cons, BlockEvent.inbound]
  have h := key (eventsAhead (l.take d)) (eventsAhead (l.drop d))
  rw [← eventsAhead_append, List.take_append_drop] at h
  simpa [rxAhead, report, eventsAhead_append] using h

theorem status_completed (s : State) : s.status = .completed ↔ s.fault = .none ∧ s.st = .done := by
  unfold State.status
  split
  · simp_all
  · cases h : s.st <;> simp_all
    split <;> simp

theorem status_waiting (s : State) : s.status = .waiting ↔ s.fault = .none ∧ s.st = .await ∧ s.ackAhead = true := by
  unfold State.status
  split
  · simp_all
  · cases h : s.st <;> simp_all

theorem status_stalled (s : State) : s.status = .stalled ↔ s.fault = .none ∧ s.st = .await ∧ s.ackAhead = false := by
  unfold State.status
  split
  · simp_all
  · cases h : s.st <;> simp_all

theorem fedRun_succ (env : Nat → List Input) (k : Nat) (s : State) :
    fedRun env (k + 1) s = bindRun (fedRun env k s) fun t => step (t.fed (env k)) := rfl

end Sys2Proof.Machine
end

