-- ==== Sys2Proof/Laws/Step.lean ====
section
/-! SUPPORT. What a signal, an operation and a step can do, said once: the inversion lemmas the later proofs split on. -/

namespace Sys2Proof.Machine

/-- A faulted block ignores a signal. -/
theorem handSignal_faulted {g : Signal} {s : State} (hf : s.fault ≠ .none) : handSignal g s = .next s := by
  simp [handSignal, reaction, hf, execSeqIgnore]

/-- Success with a further chunk is `SEQ.ADVANCE` (43_transfer_sequencer.md R163). -/
theorem handSignal_advance {s : State} (hw : s.waiting = true) (h : s.idx < s.max) :
    handSignal .success s = send false { s with idx := s.idx + 1 } := by
  obtain ⟨hs, hf⟩ := (waiting_iff s).mp hw
  have : handSignal .success s = execSeqAdvance s := by
    simp [handSignal, reaction, hs, hf, cursorPos, h]
  rw [this, execSeqAdvance, if_pos ⟨hw, h⟩, cursorIncrease_below h]

/-- Success on the last chunk is `SEQ.FINISH` (43_transfer_sequencer.md R164). -/
theorem handSignal_finish {s : State} (hw : s.waiting = true) (h : s.idx = s.max) :
    handSignal .success s = .next (afterFinish s) := by
  obtain ⟨hs, hf⟩ := (waiting_iff s).mp hw
  have : handSignal .success s = execSeqFinish s := by
    simp [handSignal, reaction, hs, hf, cursorPos, h]
  rw [this, execSeqFinish, if_pos ⟨hw, h⟩, cursorIncrease_atMax h, finish_eq]

/-- Failure is `SEQ.RETRY` (43_transfer_sequencer.md R165). -/
theorem handSignal_retry {s : State} (hw : s.waiting = true) (h : s.idx ≠ 0 ∨ s.cfg.retryIdx0 = true) :
    handSignal .failure s = send true s := by
  obtain ⟨hs, hf⟩ := (waiting_iff s).mp hw
  have : handSignal .failure s = execSeqRetry s := by
    rcases h with h | h <;> simp [handSignal, reaction, hs, hf, h]
  rw [this, execSeqRetry, if_pos ⟨hw, h⟩]

/-- Failure at index 0 under the reference policy is `SEQ.NAK0` (43_transfer_sequencer.md R166). -/
theorem handSignal_nak0 {s : State} (hw : s.waiting = true) (h : s.idx = 0) (hr : s.cfg.retryIdx0 = false) :
    handSignal .failure s = .next (afterFinish s) := by
  obtain ⟨hs, hf⟩ := (waiting_iff s).mp hw
  have : handSignal .failure s = execSeqNak0 s := by simp [handSignal, reaction, hs, hf, h, hr]
  rw [this, execSeqNak0, if_pos ⟨hw, h, hr⟩, finish_eq]

/-- A diagnostic is `SEQ.DIAG` (43_transfer_sequencer.md R167). -/
theorem handSignal_diag {s : State} (hw : s.waiting = true) (x : List Byte) :
    handSignal (.diag x) s = .next (emit (.log (.diag x)) s) := by
  obtain ⟨hs, hf⟩ := (waiting_iff s).mp hw
  have : handSignal (.diag x) s = execSeqDiag x s := by simp [handSignal, reaction, hs, hf]
  rw [this, execSeqDiag, if_pos hw]

/-- The sequencer's reaction to a signal, where it answers a next state (43_transfer_sequencer.md R163 to R168). -/
theorem handSignal_next {g : Signal} {s t : State} (h : handSignal g s = .next t) :
    (s.fault ≠ .none ∧ t = s) ∨
    (s.waiting = true ∧
      ((g = .success ∧ s.idx < s.max ∧ send false { s with idx := s.idx + 1 } = .next t) ∨
       (g = .success ∧ s.idx = s.max ∧ t = afterFinish s) ∨
       (g = .failure ∧ (s.idx ≠ 0 ∨ s.cfg.retryIdx0 = true) ∧ send true s = .next t) ∨
       (g = .failure ∧ s.idx = 0 ∧ s.cfg.retryIdx0 = false ∧ t = afterFinish s) ∨
       (∃ x, g = .diag x ∧ t = emit (.log (.diag x)) s))) := by
  by_cases hf : s.fault = .none
  case neg =>
    rw [handSignal_faulted hf] at h
    exact Or.inl ⟨hf, (Host.Outcome.next.inj h).symm⟩
  by_cases hs : s.st = .await
  case neg => simp [handSignal, reaction, hf, hs] at h
  have hw : s.waiting = true := (waiting_iff s).mpr ⟨hs, hf⟩
  refine Or.inr ⟨hw, ?_⟩
  cases g with
  | success =>
    rcases Nat.lt_trichotomy s.idx s.max with hlt | heq | hgt
    · rw [handSignal_advance hw hlt] at h; exact Or.inl ⟨rfl, hlt, h⟩
    · rw [handSignal_finish hw heq] at h
      exact Or.inr (Or.inl ⟨rfl, heq, (Host.Outcome.next.inj h).symm⟩)
    · have h1 : ¬ s.idx < s.max := by omega
      have h2 : ¬ s.idx = s.max := by omega
      simp [handSignal, reaction, hf, hs, cursorPos, h1, h2] at h
  | failure =>
    by_cases hr : s.idx ≠ 0 ∨ s.cfg.retryIdx0 = true
    · rw [handSignal_retry hw hr] at h; exact Or.inr (Or.inr (Or.inl ⟨rfl, hr, h⟩))
    · push Not at hr
      have h1 : s.cfg.retryIdx0 = false := by simpa using hr.2
      rw [handSignal_nak0 hw hr.1 h1] at h
      exact Or.inr (Or.inr (Or.inr (Or.inl ⟨rfl, hr.1, h1, (Host.Outcome.next.inj h).symm⟩)))
  | diag x =>
    rw [handSignal_diag hw] at h
    exact Or.inr (Or.inr (Or.inr (Or.inr ⟨x, rfl, (Host.Outcome.next.inj h).symm⟩)))

/-- What an inbound byte of any class does in a waiting block (42_ack_classifier.md R135 to R140). -/
theorem exec_decodeRxb {s : State} (b : Byte) (hw : s.waiting = true) :
    exec (decodeRxb s.cfg b) s =
      if byteClass s.cfg b = .delim then handSignal (lineSignal s.cfg s.cls s.lbuf) (clearLine s)
      else .next { s with cls := clsNext s.cls (byteClass s.cfg b), lbuf := appendLbuf s.cfg s.lbuf b } := by
  rcases decodeRxb_cases s.cfg b with ⟨hc, hd⟩ | ⟨hc, hd⟩ | ⟨hc, rfl, hd⟩ | ⟨hc, rfl, hd⟩ | ⟨hc, hd⟩ <;>
    simp [hc, hd, exec, execRxbDelim, execRxbWs, execRxbK, execRxbF, execRxbOther, takeByte, hw]

/-- What `START` does where it answers a next state (43_transfer_sequencer.md R161). -/
theorem execSeqStart_next {s t : State} (h : execSeqStart s = .next t) :
    s.st = .idle ∧ s.fault = .none ∧
    ((s.cfgLen = 0 ∧ t = { s with L := 0, fault := .emptyPayload }) ∨
     (s.cfgLen ≠ 0 ∧ send false { latchMax (latchLen s) with idx := 0 } = .next t)) := by
  unfold execSeqStart at h
  split at h
  case isFalse => cases h
  rename_i hs
  refine ⟨hs.1, hs.2, ?_⟩
  split at h
  · rename_i h0
    have hc := (latchLen_L s).2.mp h0
    refine Or.inl ⟨hc, ?_⟩
    rw [← Host.Outcome.next.inj h, latchLen_of_le (hc ▸ Nat.zero_le _), hc]
    rfl
  · rename_i h0
    exact Or.inr ⟨fun hc => h0 ((latchLen_L s).2.mpr hc), h⟩

/-- What the next input comes to, where it selects an operation. -/
theorem fetch_op_cases {s u : State} {i : Instr} (h : fetch s = .op i u) : ∃ rest, u = { s with inputs := rest } ∧ s.Leaves rest ∧
    ((∃ e, s.nextEvent = some e ∧ decodeSeq s.cfg s.view (.input e) = .ok i) ∨
     (s.nextEvent = none ∧ ∃ j d, (s.inputs = .pacerWrite j d :: rest ∧ i = .tx (.write j d)) ∨
       (s.inputs = .pacerFail j d :: rest ∧ i = .tx (.fail j d)))) := by
  have del : ∀ {e rest}, deliver e rest s = .op i u →
      u = { s with inputs := rest } ∧ decodeSeq s.cfg s.view (.input e) = .ok i := by
    intro e rest hd
    unfold deliver decode at hd
    split at hd
    · rename_i k hk; cases hd; exact ⟨rfl, hk⟩
    · cases hd
  unfold fetch at h
  split at h
  · cases h
  · rename_i e rest hin
    exact ⟨rest, (del h).1, leaves_of_cons hin (by simp [State.nextEvent, hin, Input.events]),
      Or.inl ⟨e, by simp [State.nextEvent, hin], (del h).2⟩⟩
  · rename_i x rest hin
    split at h
    · cases h
    · rename_i e es hx
      exact ⟨_, (del h).1, leaves_of_together hin hx, Or.inl ⟨e, by simp [State.nextEvent, hin, hx], (del h).2⟩⟩
  · cases h
  · split at h <;> cases h
  · rename_i j d rest hin; cases h
    exact ⟨rest, rfl, leaves_of_cons hin (by simp [State.nextEvent, hin, Input.events]),
      Or.inr ⟨by simp [State.nextEvent, hin], j, d, Or.inl ⟨hin, rfl⟩⟩⟩
  · rename_i j d rest hin; cases h
    exact ⟨rest, rfl, leaves_of_cons hin (by simp [State.nextEvent, hin, Input.events]),
      Or.inr ⟨by simp [State.nextEvent, hin], j, d, Or.inr ⟨hin, rfl⟩⟩⟩

/-- What the next input comes to, where it is an act of the host. -/
theorem fetch_host_cases {s u : State} (h : fetch s = .host u) :
    s.nextEvent = none ∧ ∃ rest, s.Leaves rest ∧ (u = { s with inputs := rest } ∨
      (∃ l, u = { s with inputs := rest, cfgLen := l }) ∨
      (∃ bs, bs.length ≤ 2 ^ s.cfg.addrW ∧ u = { s with inputs := rest, mem := Memory.load bs })) := by
  unfold fetch at h
  split at h
  · cases h
  · unfold deliver at h
    split at h <;> cases h
  · rename_i x rest hin
    split at h
    · rename_i hx; cases h
      exact ⟨by simp [State.nextEvent, hin, hx], rest,
        leaves_of_cons hin (by simp [State.nextEvent, hin, hx, Input.events]), Or.inl rfl⟩
    · unfold deliver at h
      split at h <;> cases h
  · rename_i l rest hin; cases h
    exact ⟨by simp [State.nextEvent, hin], rest,
      leaves_of_cons hin (by simp [State.nextEvent, hin, Input.events]), Or.inr (Or.inl ⟨l, rfl⟩)⟩
  · rename_i bs rest hin
    split at h
    · rename_i hb; cases h
      exact ⟨by simp [State.nextEvent, hin], rest,
        leaves_of_cons hin (by simp [State.nextEvent, hin, Input.events]), Or.inr (Or.inr ⟨bs, hb, rfl⟩)⟩
    · cases h
  · cases h
  · cases h

/-- Everything a step can do. `u` is the state with the rest of the inputs. -/
theorem step_cases {s t : State} (h : step s = .next t) :
    ∃ rest, s.Leaves rest ∧ let u : State := { s with inputs := rest }
      (s.nextEvent = some .reset ∧ t = resetBlock u) ∨
      (∃ e, s.nextEvent = some e ∧ e ≠ .reset ∧ t = u) ∨
      (s.nextEvent = some .start ∧ execSeqStart u = .next t) ∨
      (s.nextEvent = some .wrErr ∧ s.fault = .none ∧ (s.st = .idle ∨ s.st = .await) ∧ t = emit (.log .wrErr) u) ∨
      (∃ b, s.nextEvent = some (.rxByte b) ∧ s.waiting = true ∧ byteClass s.cfg b ≠ .delim ∧
        t = { u with cls := clsNext s.cls (byteClass s.cfg b), lbuf := appendLbuf s.cfg s.lbuf b }) ∨
      (∃ b, s.nextEvent = some (.rxByte b) ∧ s.waiting = true ∧ byteClass s.cfg b = .delim ∧
        handSignal (lineSignal s.cfg s.cls s.lbuf) (clearLine u) = .next t) ∨
      (s.nextEvent = none ∧ ∃ j d, (s.inputs = .pacerWrite j d :: rest ∧ pacerWrite j d u = .next t) ∨
        (s.inputs = .pacerFail j d :: rest ∧ pacerFail j d u = .next t)) ∨
      (s.nextEvent = none ∧ (t = u ∨ (∃ l, t = { u with cfgLen := l }) ∨
        (∃ bs, bs.length ≤ 2 ^ s.cfg.addrW ∧ t = { u with mem := Memory.load bs }))) := by
  rcases step_next_cases h with ⟨i, u, hf, hx⟩ | hf
  · obtain ⟨rest, rfl, hl, ⟨e, he, hd⟩ | ⟨he, j, d, hi⟩⟩ := fetch_op_cases hf
    · refine ⟨rest, hl, ?_⟩
      rcases decodeSeq_input_cases hd with ⟨rfl, rfl⟩ | ⟨hne, rfl⟩ | ⟨-, -, rfl, rfl⟩ | ⟨hv, hs, rfl, rfl⟩ |
        ⟨hv, hs, b, rfl, rfl⟩
      · exact Or.inl ⟨he, (Host.Outcome.next.inj hx).symm⟩
      · exact Or.inr (Or.inl ⟨e, he, hne, (Host.Outcome.next.inj hx).symm⟩)
      · exact Or.inr (Or.inr (Or.inl ⟨he, hx⟩))
      · have hf0 : s.fault = .none := by simpa using hv
        have hnd : s.st ≠ .done := by rcases hs with hs | hs <;> simp at hs <;> simp [hs]
        rw [exec, execWrErr, if_pos ⟨hf0, hnd⟩] at hx
        exact Or.inr (Or.inr (Or.inr (Or.inl ⟨he, hf0, hs, (Host.Outcome.next.inj hx).symm⟩)))
      · have hw : s.waiting = true := (waiting_iff s).mpr ⟨hs, by simpa using hv⟩
        have hx2 := exec_decodeRxb (s := { s with inputs := rest }) b hw
        rw [hx2] at hx
        split at hx
        · rename_i hc
          exact Or.inr (Or.inr (Or.inr (Or.inr (Or.inr (Or.inl ⟨b, he, hw, hc, hx⟩)))))
        · rename_i hc
          exact Or.inr (Or.inr (Or.inr (Or.inr (Or.inl ⟨b, he, hw, hc, (Host.Outcome.next.inj hx).symm⟩))))
    · refine ⟨rest, hl, Or.inr (Or.inr (Or.inr (Or.inr (Or.inr (Or.inr (Or.inl ⟨he, j, d, ?_⟩))))))⟩
      rcases hi with ⟨hin, rfl⟩ | ⟨hin, rfl⟩
      · exact Or.inl ⟨hin, hx⟩
      · exact Or.inr ⟨hin, hx⟩
  · obtain ⟨he, rest, hl, hu⟩ := fetch_host_cases hf
    exact ⟨rest, hl, Or.inr (Or.inr (Or.inr (Or.inr (Or.inr (Or.inr (Or.inr ⟨he, hu⟩))))))⟩

end Sys2Proof.Machine
end

