-- ==== Sys2Proof/Laws/Pacer.lean ====
section
/-! SUPPORT. The TX pacer over a run (41_transport_encoder.md R112 to R115): what a step does to its part, interleavings, and
the progress between two states. -/

namespace Sys2Proof.Machine

/-! ## Fed states -/

@[simp] theorem fed_backlog (s : State) (l : List Input) : (s.fed l).backlog = s.backlog := rfl
@[simp] theorem fed_sink (s : State) (l : List Input) : (s.fed l).sink = s.sink := rfl
@[simp] theorem fed_out (s : State) (l : List Input) : (s.fed l).out = s.out := rfl
@[simp] theorem fed_txStream (s : State) (l : List Input) : (s.fed l).txStream = s.txStream := rfl
@[simp] theorem fed_inputs (s : State) (l : List Input) : (s.fed l).inputs = s.inputs ++ l := rfl

/-! ## What a step does to the pacer's part -/

/-- Nothing is taken up: the sink stays, and a frame is handed over, or none is. -/
abbrev HandsOver (s t : State) : Prop :=
  t.sink = s.sink ∧ ((t.backlog = s.backlog ∧ t.txStream = s.txStream) ∨
    ∃ x : TxFrame, x.bytes ≠ [] ∧ t.backlog = s.backlog ++ [b64Chars x.bytes] ∧ t.txStream = s.txStream ++ [x])

/-- A frame is handed over by `send` and by nothing else (43_transfer_sequencer.md R162). -/
theorem handsOver_send {r : Bool} {s t : State} (h : send r s = .next t) : HandsOver s t := by
  obtain ⟨-, -, -, rfl⟩ := send_next h
  exact ⟨rfl, Or.inr ⟨⟨s.idx, frameBytes s.cfg.n (chunkBytes s s.L s.idx), r⟩, frameBytes_ne_nil _ _, rfl,
    by simp [afterSend, State.txStream]⟩⟩

theorem handsOver_signal {g : Signal} {s t : State} (h : handSignal g s = .next t) : HandsOver s t := by
  obtain ⟨-, rfl⟩ | ⟨-, h⟩ := handSignal_next h
  · exact ⟨rfl, Or.inl ⟨rfl, rfl⟩⟩
  obtain ⟨-, -, h⟩ | ⟨-, -, rfl⟩ | ⟨-, -, h⟩ | ⟨-, -, -, rfl⟩ | ⟨x, -, rfl⟩ := h
  · have := handsOver_send h
    exact this
  · exact ⟨rfl, Or.inl ⟨rfl, by simp [afterFinish, State.txStream]⟩⟩
  · exact handsOver_send h
  · exact ⟨rfl, Or.inl ⟨rfl, by simp [afterFinish, State.txStream]⟩⟩
  · exact ⟨rfl, Or.inl ⟨rfl, by simp [State.txStream]⟩⟩

theorem handsOver_start {s t : State} (h : execSeqStart s = .next t) : HandsOver s t := by
  obtain ⟨-, -, ⟨-, rfl⟩ | ⟨-, h⟩⟩ := execSeqStart_next h
  · exact ⟨rfl, Or.inl ⟨rfl, rfl⟩⟩
  · have := handsOver_send h
    simpa [HandsOver, State.txStream] using this

/-- An act of the pacer is its step. -/
theorem step_pacerWrite {s : State} {j d : Nat} {rest : List Input} (h : s.inputs = .pacerWrite j d :: rest) :
    step s = pacerWrite j d { s with inputs := rest } := by
  simp [step, fetch, h, exec, execTx]

theorem step_pacerFail {s : State} {j d : Nat} {rest : List Input} (h : s.inputs = .pacerFail j d :: rest) :
    step s = pacerFail j d { s with inputs := rest } := by
  simp [step, fetch, h, exec, execTx]

/-- A step does one of three things to the pacer's part, as the next input says: the next character of a transmission is
written, or dropped, or none is taken up. -/
theorem step_pacer {s t : State} (h : step s = .next t) :
    (∃ j d ch rest, s.inputs.head? = some (.pacerWrite j d) ∧ s.backlog[j]? = some (ch :: rest) ∧
      t.backlog = advanceJob s.backlog j rest ∧ t.sink = s.sink ++ [ch] ∧ t.txStream = s.txStream) ∨
    (∃ j d ch rest, s.inputs.head? = some (.pacerFail j d) ∧ s.backlog[j]? = some (ch :: rest) ∧
      t.backlog = advanceJob s.backlog j rest ∧ t.sink = s.sink ∧ t.txStream = s.txStream) ∨
    ((∀ j d, s.inputs.head? ≠ some (.pacerWrite j d) ∧ s.inputs.head? ≠ some (.pacerFail j d)) ∧ HandsOver s t) := by
  by_cases hw : ∃ j d, s.inputs.head? = some (.pacerWrite j d)
  · obtain ⟨j, d, hw⟩ := hw
    obtain ⟨rest, hin⟩ := List.head?_eq_some_iff.mp hw
    obtain ⟨ch, r, hb, rfl⟩ := pacerWrite_next ((step_pacerWrite hin).symm.trans h)
    exact Or.inl ⟨j, d, ch, r, hw, hb, rfl, rfl, rfl⟩
  by_cases hf : ∃ j d, s.inputs.head? = some (.pacerFail j d)
  · obtain ⟨j, d, hf⟩ := hf
    obtain ⟨rest, hin⟩ := List.head?_eq_some_iff.mp hf
    obtain ⟨ch, r, hb, rfl⟩ := pacerFail_next ((step_pacerFail hin).symm.trans h)
    exact Or.inr (Or.inl ⟨j, d, ch, r, hf, hb, rfl, rfl, rfl⟩)
  refine Or.inr (Or.inr ⟨fun j d => ⟨fun e => hw ⟨j, d, e⟩, fun e => hf ⟨j, d, e⟩⟩, ?_⟩)
  obtain ⟨rest, -, ⟨-, rfl⟩ | ⟨e, -, -, rfl⟩ | ⟨-, hs⟩ | ⟨-, -, -, rfl⟩ | ⟨b, -, -, -, rfl⟩ | ⟨b, -, -, -, hs⟩ |
    ⟨-, j, d, ⟨hin, -⟩ | ⟨hin, -⟩⟩ | ⟨-, hs⟩⟩ := step_cases h
  · exact ⟨rfl, Or.inl ⟨rfl, rfl⟩⟩
  · exact ⟨rfl, Or.inl ⟨rfl, rfl⟩⟩
  · have := handsOver_start hs
    exact this
  · exact ⟨rfl, Or.inl ⟨rfl, by simp [State.txStream]⟩⟩
  · exact ⟨rfl, Or.inl ⟨rfl, rfl⟩⟩
  · have := handsOver_signal hs
    exact this
  · exact absurd ⟨j, d, by simp [hin]⟩ hw
  · exact absurd ⟨j, d, by simp [hin]⟩ hf
  · rcases hs with rfl | ⟨l, rfl⟩ | ⟨bs, -, rfl⟩ <;> exact ⟨rfl, Or.inl ⟨rfl, rfl⟩⟩

/-- No step brings in a failed write. -/
theorem step_inputs_fail {s t : State} {j d : Nat} (h : step s = .next t) (hm : Input.pacerFail j d ∈ t.inputs) :
    Input.pacerFail j d ∈ s.inputs := by
  have hrep : ∀ {k : Nat} {e : BlockEvent} {l : List Input}, Input.pacerFail j d ∈ report k e l →
      Input.pacerFail j d ∈ l := by
    intro k e l hl
    rcases List.mem_append.mp hl with hl | hl
    · exact List.mem_of_mem_take hl
    · simp only [List.mem_cons, reduceCtorEq, false_or] at hl
      exact List.mem_of_mem_drop hl
  obtain ⟨rest, ⟨-, hr⟩, hc⟩ := step_cases h
  refine (hr (.pacerFail j d) ?_).elim id fun ⟨e, he⟩ => nomatch he
  have hsend : ∀ {r : Bool} {u : State}, send r u = .next t → t.inputs = u.inputs := fun hs => by
    obtain ⟨-, -, -, rfl⟩ := send_next hs
    rfl
  obtain ⟨-, rfl⟩ | ⟨e, -, -, rfl⟩ | ⟨-, hs⟩ | ⟨-, -, -, rfl⟩ | ⟨b, -, -, -, rfl⟩ | ⟨b, -, -, -, hs⟩ |
    ⟨-, k, l, ⟨-, hs⟩ | ⟨-, hs⟩⟩ | ⟨-, hs⟩ := hc
  · exact hm
  · exact hm
  · obtain ⟨-, -, ⟨-, rfl⟩ | ⟨-, hs⟩⟩ := execSeqStart_next hs
    · exact hm
    · rw [hsend hs] at hm
      simpa using hm
  · exact hm
  · exact hm
  · obtain ⟨-, rfl⟩ | ⟨-, ⟨-, -, hs⟩ | ⟨-, -, rfl⟩ | ⟨-, -, hs⟩ | ⟨-, -, -, rfl⟩ | ⟨x, -, rfl⟩⟩ := handSignal_next hs
    · exact hm
    · rw [hsend hs] at hm
      exact hm
    · exact hm
    · rw [hsend hs] at hm
      exact hm
    · exact hm
    · exact hm
  · obtain ⟨ch, r, -, rfl⟩ := pacerWrite_next hs
    simp only at hm
    split at hm
    · exact hrep hm
    · exact hm
  · obtain ⟨ch, r, -, rfl⟩ := pacerFail_next hs
    exact hrep hm
  · rcases hs with rfl | ⟨l, rfl⟩ | ⟨bs, -, rfl⟩ <;> exact hm

/-! ## Interleavings -/

/-- A sequence that is empty adds nothing. -/
theorem Interleaves.append_nil {ls : List (List Byte)} {w : List Byte} (h : Interleaves ls w) :
    Interleaves (ls ++ [[]]) w := by
  induction h with
  | nil h => exact .nil fun l hl => by simp at hl; exact hl.elim (h l) id
  | cons j h _ ih =>
    have hj := (List.getElem?_eq_some_iff.mp h).1
    refine .cons j (by rw [List.getElem?_append_left hj]; exact h) ?_
    rwa [List.set_append_left _ _ hj]

/-- One more element at the end of one of the sequences comes at the end. -/
theorem Interleaves.snoc {ls : List (List Byte)} {w l : List Byte} {j : Nat} (ch : Byte) (h : Interleaves ls w)
    (hj : ls[j]? = some l) : Interleaves (ls.set j (l ++ [ch])) (w ++ [ch]) := by
  induction h generalizing l with
  | nil h =>
    have hl := h l (List.mem_of_getElem? hj)
    have hlt := (List.getElem?_eq_some_iff.mp hj).1
    subst hl
    refine .cons j (rest := []) (by simp [hlt]) (.nil fun x hx => ?_)
    rw [List.set_set] at hx
    rcases List.mem_or_eq_of_mem_set hx with hx | hx
    · exact h x hx
    · exact hx
  | @cons ls c rest w i h _ ih =>
    have hlt := (List.getElem?_eq_some_iff.mp hj).1
    by_cases hij : i = j
    · subst hij
      rw [h] at hj
      cases hj
      refine .cons i (rest := rest ++ [ch]) (by simp [hlt]) ?_
      have := ih (l := rest) (by simp [hlt])
      simpa [List.set_set] using this
    · refine .cons i (rest := rest) (by rw [List.getElem?_set_ne (Ne.symm hij)]; exact h) ?_
      have := ih (l := l) (by rw [List.getElem?_set_ne hij]; exact hj)
      rwa [List.set_comm _ _ hij] at this

/-! ## Progress -/

/-- Where the `j`-th transmission that is not over stands among all of them; of the oldest, all before it are over. -/
theorem getElem?_open {L : List (List Byte)} : ∀ {j : Nat} {a : List Byte}, (L.filter (· ≠ []))[j]? = some a →
    ∃ i, L[i]? = some a ∧ a ≠ [] ∧ (∀ rest, (L.set i rest).filter (· ≠ []) = advanceJob (L.filter (· ≠ [])) j rest) ∧
      (j = 0 → ∀ i' < i, L[i']? = some []) := by
  induction L with
  | nil => intro j a h; simp at h
  | cons l L ih =>
    intro j a h
    by_cases hl : l = []
    · subst hl
      have h' : (L.filter (· ≠ []))[j]? = some a := by simpa using h
      obtain ⟨i, h1, h2, h3, h4⟩ := ih h'
      refine ⟨i + 1, by simpa using h1, h2, fun rest => ?_, fun h0 i' hi' => ?_⟩
      · simpa using h3 rest
      · cases i' with
        | zero => simp
        | succ i' => simpa using h4 h0 i' (by omega)
    · have hf : (l :: L).filter (· ≠ []) = l :: L.filter (· ≠ []) := by simp [hl]
      rw [hf] at h ⊢
      cases j with
      | zero =>
        simp at h; subst h
        refine ⟨0, rfl, hl, fun rest => ?_, fun _ i' hi' => by omega⟩
        cases rest <;> simp [advanceJob]
      | succ j =>
        have h' : (L.filter (· ≠ []))[j]? = some a := by simpa using h
        obtain ⟨i, h1, h2, h3, -⟩ := ih h'
        refine ⟨i + 1, by simpa using h1, h2, fun rest => ?_, fun h0 => by omega⟩
        have := h3 rest
        cases rest <;> simp_all [advanceJob]

/-- A character that goes from the part left to the part taken stays a character of the transmission. -/
theorem zipWith_shift {T L : List (List Byte)} {i : Nat} {a rest : List Byte} {ch : Byte}
    (hT : T[i]? = some a) (hL : L[i]? = some (ch :: rest)) :
    List.zipWith (· ++ ·) (T.set i (a ++ [ch])) (L.set i rest) = List.zipWith (· ++ ·) T L := by
  apply List.ext_getElem?
  intro k
  by_cases hk : k = i
  · subst hk
    have h1 := (List.getElem?_eq_some_iff.mp hT).1
    have h2 := (List.getElem?_eq_some_iff.mp hL).1
    simp [h1, h2]
    simp [List.getElem?_eq_some_iff] at hT hL
    obtain ⟨_, hT⟩ := hT; obtain ⟨_, hL⟩ := hL
    simp [hT, hL]
  · simp [List.getElem?_zipWith, List.getElem?_set_ne (Ne.symm hk)]

/-- A pair of related entries in place of another. -/
theorem forall₂_set {R : List Byte → List Byte → Prop} {A B : List (List Byte)} (h : List.Forall₂ R A B) {i : Nat}
    {a b : List Byte} (hab : R a b) : List.Forall₂ R (A.set i a) (B.set i b) := by
  induction h generalizing i with
  | nil => simp
  | cons hr _ ih => cases i with
    | zero => simp_all
    | succ i => simp [hr, ih]

theorem forall₂_getElem? {R : List Byte → List Byte → Prop} {A B : List (List Byte)} (h : List.Forall₂ R A B) {i : Nat}
    {a b : List Byte} (ha : A[i]? = some a) (hb : B[i]? = some b) : R a b := by
  induction h generalizing i with
  | nil => simp at ha
  | cons hr _ ih => cases i with
    | zero => simp_all
    | succ i => exact ih (by simpa using ha) (by simpa using hb)

/-- How many characters of the first `n` transmissions are left. -/
def unwritten (n : Nat) (left : List (List Byte)) : Nat := ((left.take n).map List.length).sum

/-- With a character of one of them off, there is one less if it is among them. -/
theorem unwritten_set (n : Nat) {L : List (List Byte)} {i : Nat} {ch : Byte} {rest : List Byte}
    (h : L[i]? = some (ch :: rest)) :
    unwritten n (L.set i rest) ≤ unwritten n L ∧ (i < n → unwritten n (L.set i rest) < unwritten n L) := by
  induction L generalizing n i with
  | nil => simp at h
  | cons l L ih =>
    cases n with
    | zero => simp [unwritten]
    | succ n =>
      cases i with
      | zero =>
        simp only [List.getElem?_cons_zero, Option.some.injEq] at h
        simp [unwritten, h]
      | succ i => simpa [unwritten] using ih n (i := i) (by simpa using h)

/-- No step, no progress. -/
theorem PacerProgress.refl {s : State} (h : [] ∉ s.backlog) :
    PacerProgress s s (s.backlog.map fun _ => []) (s.backlog.map fun _ => []) s.backlog := by
  refine ⟨⟨[], by simp, by simp, List.ext_getElem? fun i => ?_⟩, ?_, ⟨[], by simp, .nil (by simp)⟩, ?_⟩
  · rw [List.getElem?_zipWith, List.getElem?_map]
    cases h : s.backlog[i]? <;> simp [h]
  · symm
    rw [List.filter_eq_self]
    intro a ha
    simp only [ne_eq, decide_not, Bool.not_eq_true', decide_eq_false_iff_not]
    rintro rfl
    exact h ha
  · exact List.forall₂_same.mpr fun _ _ => List.Sublist.refl _

/-- A transmission that the pacer takes a character of, in the terms of the progress so far. -/
theorem PacerProgress.serve {s t : State} {W T L : List (List Byte)} (hp : PacerProgress s t W T L) {j d : Nat} {ch : Byte}
    {rest : List Byte} (hj : t.backlog[j]? = some (ch :: rest))
    (hin : t.inputs.head? = some (.pacerWrite j d) ∨ t.inputs.head? = some (.pacerFail j d)) :
    ∃ i a b, T[i]? = some a ∧ W[i]? = some b ∧ b.Sublist a ∧
      (L.set i rest).filter (· ≠ []) = advanceJob t.backlog j rest ∧
      List.zipWith (· ++ ·) (T.set i (a ++ [ch])) (L.set i rest) = List.zipWith (· ++ ·) T L ∧
      ∀ n, unwritten n (L.set i rest) ≤ unwritten n L ∧
        (ServesOldest t → (∃ x ∈ L.take n, x ≠ []) → unwritten n (L.set i rest) < unwritten n L) := by
  obtain ⟨⟨_, _, hlen, _⟩, hb, -, hs⟩ := hp
  have hWT := hs.length_eq
  rw [hb] at hj
  obtain ⟨i, hL, -, h3, h4⟩ := getElem?_open hj
  have hi := (List.getElem?_eq_some_iff.mp hL).1
  have hT : T[i]? = some T[i] := List.getElem?_eq_getElem (by omega)
  have hW : W[i]? = some W[i] := List.getElem?_eq_getElem (by omega)
  refine ⟨i, _, _, hT, hW, forall₂_getElem? hs hW hT, hb ▸ h3 rest, zipWith_shift hT hL, fun n =>
    ⟨(unwritten_set n hL).1, ?_⟩⟩
  rintro ⟨d', hd⟩ ⟨x, hx, hne⟩
  have hj0 : j = 0 := by
    rcases hd with hd | hd <;> rw [hd] at hin <;> simp at hin <;> exact hin.1.symm
  refine (unwritten_set n hL).2 (Nat.lt_of_not_le fun hlt => ?_)
  obtain ⟨p, hp, rfl⟩ := List.mem_iff_getElem.mp hx
  simp only [List.length_take, lt_inf_iff, List.getElem_take] at hp hne
  have := h4 hj0 p (by omega)
  rw [List.getElem?_eq_getElem hp.2] at this
  exact hne (Option.some.inj this)

/-- A step carries the progress on: nothing of the first `n` transmissions comes back, and if it serves the oldest one while
something of them is left, there is less of them. What is written is what is taken as long as no write fails. -/
theorem PacerProgress.step {s t u : State} {W T L : List (List Byte)} (hp : PacerProgress s t W T L)
    (h : step t = .next u) :
    ∃ W' T' L', PacerProgress s u W' T' L' ∧ L.length ≤ L'.length ∧
      ((∀ j d, t.inputs.head? ≠ some (.pacerFail j d)) → W = T → W' = T') ∧
      ∀ n ≤ L.length, unwritten n L' ≤ unwritten n L ∧
        (ServesOldest t → (∃ a ∈ L.take n, a ≠ []) → unwritten n L' < unwritten n L) := by
  have hserve := @PacerProgress.serve s t W T L hp
  obtain ⟨⟨frames, hf, hlen, hz⟩, hb, ⟨w, hw, hiv⟩, hs⟩ := hp
  rcases step_pacer h with ⟨j, d, ch, rest, hin, hj, hb', hk, hx⟩ | ⟨j, d, ch, rest, hin, hj, hb', hk, hx⟩ |
    ⟨hno, hk, hx⟩
  · obtain ⟨i, a, b, hT, hW, hba, hf', hz', hm⟩ := hserve hj (.inl hin)
    refine ⟨W.set i (b ++ [ch]), T.set i (a ++ [ch]), L.set i rest,
      ⟨⟨frames, hx.trans hf, by simpa using hlen, hz'.trans hz⟩, hb'.trans hf'.symm,
        ⟨w ++ [ch], by simp [hk, hw], hiv.snoc ch hW⟩, forall₂_set hs (hba.append_right _)⟩, by simp, ?_, fun n _ => hm n⟩
    rintro - rfl
    rw [hT] at hW
    cases hW
    rfl
  · obtain ⟨i, a, b, hT, hW, hba, hf', hz', hm⟩ := hserve hj (.inr hin)
    have hWi : W = W.set i b := by
      obtain ⟨hi, rfl⟩ := List.getElem?_eq_some_iff.mp hW
      exact (List.set_getElem_self hi).symm
    refine ⟨W, T.set i (a ++ [ch]), L.set i rest,
      ⟨⟨frames, hx.trans hf, by simpa using hlen, hz'.trans hz⟩, hb'.trans hf'.symm,
        ⟨w, hk.trans hw, hiv⟩, ?_⟩, by simp, fun hn => absurd hin (hn j d), fun n _ => hm n⟩
    rw [hWi]
    exact forall₂_set hs (hba.trans (List.sublist_append_left _ _))
  · have hns : ¬ ServesOldest t := fun ⟨d, hd⟩ => hd.elim (hno 0 d).1 (hno 0 d).2
    rcases hx with ⟨hb', hx⟩ | ⟨x, hne, hb', hx⟩
    · exact ⟨W, T, L, ⟨⟨frames, hx.trans hf, hlen, hz⟩, hb'.trans hb, ⟨w, hk.trans hw, hiv⟩, hs⟩, Nat.le_refl _,
        fun _ e => e, fun n _ => ⟨Nat.le_refl _, fun hv => absurd hv hns⟩⟩
    · refine ⟨W ++ [[]], T ++ [[]], L ++ [b64Chars x.bytes],
        ⟨⟨frames ++ [x], by simp [hx, hf], by simpa using hlen, ?_⟩, ?_, ⟨w, hk.trans hw, hiv.append_nil⟩, ?_⟩,
        by simp, fun _ e => by rw [e], fun n hn => ⟨?_, fun hv => absurd hv hns⟩⟩
      · rw [List.zipWith_append hlen, hz]
        simp
      · simp [hb', hb, b64Chars_ne_nil hne]
      · exact List.rel_append hs (by simp)
      · simp [unwritten, List.take_append_of_le_length hn]

end Sys2Proof.Machine
end

