-- ==== Sys2Proof/Laws/PerInstr.lean ====
section
/-! SUPPORT. The statements that are made per instruction, one lemma for each constructor of `Instr`. -/

namespace Sys2Proof.Laws.RoundTrip

/-- An operation with a selector is the one its selector selects, for every binding of the parameters and every value of
its operands. -/
def Statement (i : Instr) : Prop :=
  ∀ (c : Config) (x : Selector), c.Wf → wellFormed c i = true → encode c i = some x → decode c x = .ok i

theorem chunk (k : Nat) : Statement (.chunk k) := fun _ _ _ _ h => nomatch h
theorem pad (l : List Byte) : Statement (.pad l) := fun _ _ _ _ h => nomatch h
theorem cksum (p : List Byte) : Statement (.cksum p) := fun _ _ _ _ h => nomatch h
theorem frame (l : List Byte) : Statement (.frame l) := fun _ _ _ _ h => nomatch h
theorem b64 (f : List Byte) : Statement (.b64 f) := fun _ _ _ _ h => nomatch h
theorem tx (a : TxAct) : Statement (.tx a) := fun _ _ _ _ h => nomatch h
theorem lineSplit (bs : List Byte) : Statement (.lineSplit bs) := fun _ _ _ _ h => nomatch h
theorem trim (l : List Byte) : Statement (.trim l) := fun _ _ _ _ h => nomatch h
theorem seqSend (r : Bool) : Statement (.seqSend r) := fun _ _ _ _ h => nomatch h
theorem curGet : Statement .curGet := fun _ _ _ _ h => nomatch h
theorem curInc : Statement .curInc := fun _ _ _ _ h => nomatch h

theorem ackK : Statement .ackK := by
  intro c x hc _ h
  obtain ⟨-, -, hk, -, -, hd, -⟩ := hc
  simp only [encode, Option.some.injEq] at h
  subst h
  simp [decode, decodeLine, isTrimmedLine, hk, hd]

theorem ackF : Statement .ackF := by
  intro c x hc _ h
  obtain ⟨-, -, -, hf, hkf, -, hd⟩ := hc
  simp only [encode, Option.some.injEq] at h
  subst h
  simp [decode, decodeLine, isTrimmedLine, hf, hd, Ne.symm hkf]

theorem lineDiag (t : List Byte) : Statement (.lineDiag t) := by
  intro c x _ hw h
  simp only [encode, Option.some.injEq] at h
  subst h
  simp only [wellFormed, Bool.and_eq_true, decide_eq_true_eq] at hw
  obtain ⟨⟨ht, hk⟩, hf⟩ := hw
  have hd : t.contains c.delim = false := by
    simp only [isTrimmedLine, Bool.and_eq_true] at ht
    simpa using ht.2
  simp only [decode, decodeLine, hd, Bool.false_eq_true, if_false, ht, Bool.not_true, if_neg hk, if_neg hf]

theorem rxbDelim : Statement .rxbDelim := by
  intro c x _ _ h
  simp only [encode, Option.some.injEq] at h
  subst h
  simp [decode, decodeRxb, (byteClass_delim_iff c c.delim).mpr rfl]

theorem rxbWs (b : Byte) : Statement (.rxbWs b) := by
  intro c x _ hw h
  simp only [encode, Option.some.injEq] at h
  subst h
  simp only [wellFormed, Bool.and_eq_true, decide_eq_true_eq] at hw
  simp [decode, decodeRxb, byteClass_ws hw.1 hw.2]

theorem rxbK : Statement .rxbK := by
  intro c x hc _ h
  simp only [encode, Option.some.injEq] at h
  subst h
  simp [decode, decodeRxb, byteClass_ackOk hc]

theorem rxbF : Statement .rxbF := by
  intro c x hc _ h
  simp only [encode, Option.some.injEq] at h
  subst h
  simp [decode, decodeRxb, byteClass_ackFail hc]

theorem rxbOther (b : Byte) : Statement (.rxbOther b) := by
  intro c x _ hw h
  simp only [encode, Option.some.injEq] at h
  subst h
  simp only [wellFormed, Bool.and_eq_true, decide_eq_true_eq, Bool.not_eq_true', decide_eq_false_iff_not] at hw
  obtain ⟨⟨⟨h1, h2⟩, h3⟩, h4⟩ := hw
  simp [decode, decodeRxb, byteClass_other h2 h1 h3 h4]

theorem seqStart : Statement .seqStart := by
  intro c x _ _ h
  simp only [encode, Option.some.injEq] at h
  subst h; rfl

theorem seqAdvance : Statement .seqAdvance := by
  intro c x _ _ h
  simp only [encode, Option.some.injEq] at h
  subst h; rfl

theorem seqFinish : Statement .seqFinish := by
  intro c x _ _ h
  simp only [encode, Option.some.injEq] at h
  subst h; rfl

theorem seqRetry : Statement .seqRetry := by
  intro c x _ _ h
  simp only [encode, Option.some.injEq] at h
  subst h; rfl

theorem seqNak0 : Statement .seqNak0 := by
  intro c x _ hw h
  simp only [encode, Option.some.injEq] at h
  subst h
  have hr : c.retryIdx0 = false := by simpa [wellFormed] using hw
  simp [decode, decodeSeq, reaction, awaitView, hr, Except.map, Reaction.instr]

theorem seqDiag (t : List Byte) : Statement (.seqDiag t) := by
  intro c x _ _ h
  simp only [encode, Option.some.injEq] at h
  subst h; rfl

theorem seqIgnore : Statement .seqIgnore := by
  intro c x _ _ h
  simp only [encode, Option.some.injEq] at h
  subst h; rfl

theorem wrErr : Statement .wrErr := by
  intro c x _ _ h
  simp only [encode, Option.some.injEq] at h
  subst h; rfl

theorem reset : Statement .reset := by
  intro c x _ _ h
  simp only [encode, Option.some.injEq] at h
  subst h; rfl

end Sys2Proof.Laws.RoundTrip
end

