-- ==== Sys2Proof/Tests/Slice0.lean ====
section
/-! SUPPORT. Tests: ill-formed terms, words written out from the spec's encodings, the vectors of 95_test_vectors.md one
step each, and a witness for the hypotheses of every statement. Expected results are the spec's, not the model's. -/

namespace Sys2Proof.Tests

open Sys2Proof Sys2Proof.Machine

/-- The parameters with another chunk size. -/
def withN (n : Nat) : Config := { Config.reference with n := n }

/-- The parameters with `RETRY_IDX0 = false`. -/
def nakPolicy : Config := { Config.reference with retryIdx0 := false }

/-! ## Ill-formed terms -/

theorem test_wf_chunk_size_zero : wellFormed (withN 0) (.chunk 0) = false := by decide
theorem test_wf_chunk_size_nine : wellFormed (withN 9) (.chunk 0) = false := by decide
theorem test_wf_pad_size : wellFormed (withN 9) (.pad [0x01]) = false := by decide
theorem test_wf_pad_empty : wellFormed Config.reference (.pad []) = false := by decide
theorem test_wf_pad_long : wellFormed Config.reference (.pad [1, 2, 3, 4, 5, 6, 7, 8, 9]) = false := by decide
theorem test_wf_cksum_size : wellFormed (withN 0) (.cksum []) = false := by decide
theorem test_wf_cksum_short : wellFormed Config.reference (.cksum [1, 2, 3, 4, 5, 6, 7]) = false := by decide
theorem test_wf_frame_size : wellFormed (withN 9) (.frame [0x01]) = false := by decide
theorem test_wf_frame_empty : wellFormed Config.reference (.frame []) = false := by decide
theorem test_wf_frame_long : wellFormed Config.reference (.frame [1, 2, 3, 4, 5, 6, 7, 8, 9]) = false := by decide
theorem test_wf_tx_short : wellFormed Config.reference (.tx (.accept ⟨0, [1, 2], false⟩)) = false := by decide
theorem test_wf_trim_delimiter : wellFormed Config.reference (.trim [0x6B, 0x0A]) = false := by decide
theorem test_wf_diag_leading_space : wellFormed Config.reference (.lineDiag [0x20, 0x78]) = false := by decide
theorem test_wf_diag_trailing_return : wellFormed Config.reference (.lineDiag [0x78, 0x0D]) = false := by decide
theorem test_wf_diag_delimiter : wellFormed Config.reference (.lineDiag [0x78, 0x0A, 0x78]) = false := by decide
theorem test_wf_diag_is_success : wellFormed Config.reference (.lineDiag [0x6B]) = false := by decide
theorem test_wf_diag_is_failure : wellFormed Config.reference (.lineDiag [0x66]) = false := by decide
theorem test_wf_ws_delimiter : wellFormed Config.reference (.rxbWs 0x0A) = false := by decide
theorem test_wf_ws_letter : wellFormed Config.reference (.rxbWs 0x41) = false := by decide
theorem test_wf_other_delimiter : wellFormed { Config.reference with ws := [] } (.rxbOther 0x0A) = false := by decide
theorem test_wf_other_space : wellFormed Config.reference (.rxbOther 0x20) = false := by decide
theorem test_wf_other_k : wellFormed Config.reference (.rxbOther 0x6B) = false := by decide
theorem test_wf_other_f : wellFormed Config.reference (.rxbOther 0x66) = false := by decide
theorem test_wf_nak0_default_policy : wellFormed Config.reference .seqNak0 = false := by decide

/-! ## Decoding: words written out from R63 and R64, and cells of the table of R171 -/

/-- The word of an inbound byte, decoded. -/
def rxb (w : Byte) : Except DecodeError Instr := decode Config.reference (.rxb w)

theorem test_decode_delim : rxb 0b00001010 = .ok .rxbDelim := by rfl
theorem test_decode_ws_tab : rxb 0b00001001 = .ok (.rxbWs 0x09) := by rfl
theorem test_decode_ws_vtab : rxb 0b00001011 = .ok (.rxbWs 0x0B) := by rfl
theorem test_decode_ws_feed : rxb 0b00001100 = .ok (.rxbWs 0x0C) := by rfl
theorem test_decode_ws_return : rxb 0b00001101 = .ok (.rxbWs 0x0D) := by rfl
theorem test_decode_ws_space : rxb 0b00100000 = .ok (.rxbWs 0x20) := by rfl
theorem test_decode_k : rxb 0b01101011 = .ok .rxbK := by rfl
theorem test_decode_f : rxb 0b01100110 = .ok .rxbF := by rfl

/-- The edges that 95_test_vectors.md 2.5 lists as OTHER. -/
theorem test_decode_other_edges :
    ∀ w ∈ [(0x08 : Byte), 0x0E, 0x1F, 0x21, 0xA0, 0x00, 0x85, 0x4B, 0x46, 0x6A, 0x6C, 0x65, 0x67],
      decodeRxb Config.reference w = .rxbOther w := by decide

theorem test_decode_line_k : decode Config.reference (.line [0b01101011]) = .ok .ackK := by rfl
theorem test_decode_line_f : decode Config.reference (.line [0b01100110]) = .ok .ackF := by rfl
theorem test_decode_line_upper_k : decode Config.reference (.line [0x4B]) = .ok (.lineDiag [0x4B]) := by rfl
theorem test_decode_line_empty : decode Config.reference (.line []) = .ok (.lineDiag []) := by rfl

theorem test_decode_start :
    decode Config.reference (.seq ⟨.idle, false, .atMax, true⟩ (.input .start)) = .ok .seqStart := by rfl
theorem test_decode_advance :
    decode Config.reference (.seq ⟨.await, false, .below, true⟩ (.signal .success)) = .ok .seqAdvance := by rfl
theorem test_decode_finish :
    decode Config.reference (.seq ⟨.await, false, .atMax, false⟩ (.signal .success)) = .ok .seqFinish := by rfl
theorem test_decode_retry :
    decode Config.reference (.seq ⟨.await, false, .below, true⟩ (.signal .failure)) = .ok .seqRetry := by rfl
theorem test_decode_nak0 :
    decode nakPolicy (.seq ⟨.await, false, .below, true⟩ (.signal .failure)) = .ok .seqNak0 := by rfl
theorem test_decode_seq_diag :
    decode Config.reference (.seq ⟨.await, false, .below, true⟩ (.signal (.diag []))) = .ok (.seqDiag []) := by rfl
theorem test_decode_ignore :
    decode Config.reference (.seq ⟨.await, false, .below, true⟩ (.input .start)) = .ok .seqIgnore := by rfl
theorem test_decode_wrerr :
    decode Config.reference (.seq ⟨.idle, false, .below, true⟩ (.input .wrErr)) = .ok .wrErr := by rfl
theorem test_decode_reset :
    decode Config.reference (.seq ⟨.idle, true, .below, true⟩ (.input .reset)) = .ok .reset := by rfl

/-- The decoder's refusals, each by its name. -/
theorem test_decode_rejections :
    decode Config.reference (.line [0x20, 0x6B]) = .error .notTrimmed ∧
    decode Config.reference (.line [0x6B, 0x0A, 0x6B]) = .error .delimiterInLine ∧
    decode Config.reference (.seq ⟨.sending, false, .below, true⟩ (.input .txDone)) = .error .noRowForSending ∧
    decode Config.reference (.seq ⟨.idle, false, .below, true⟩ (.signal .success)) = .error .signalOutsideAwait ∧
    decode Config.reference (.seq ⟨.await, false, .beyond, false⟩ (.signal .success)) = .error .cursorBeyondMax :=
  ⟨rfl, rfl, rfl, rfl, rfl⟩

theorem test_decodeBytes_empty : decodeBytes Config.reference [] = .error .noByte := by rfl
theorem test_decodeBytes_rest :
    decodeBytes Config.reference [0x6B, 0x0A] = .ok (.rxbK, [0x0A]) := by rfl

theorem test_table_word_k : decodeTableWord 8 0x6B = some .rxbK := by rfl
theorem test_table_word_default : decodeTableWord 8 0x00 = some (.rxbOther 0x00) := by rfl
theorem test_table_word_width : decodeTableWord 72 0 = none := by rfl

theorem test_encode_other : encode Config.reference (.rxbOther 0x41) = some (.rxb 0x41) := by rfl

/-- Each operation without a selecting pattern (R60, R75) has no selector. -/
theorem test_encode_none :
    [Instr.chunk 0, .pad [], .cksum [], .frame [], .b64 [], .tx (.write 0 0), .lineSplit [], .trim [], .curGet, .curInc,
      .seqSend false].map (encode Config.reference) = List.replicate 11 none := by rfl

/-- The sequencer operations reached through their own selectors (the table of R171). -/
theorem test_encode_seq_decodes :
    ∀ i ∈ [Instr.seqStart, .seqAdvance, .seqFinish, .seqRetry, .seqDiag [0x78], .seqIgnore, .wrErr, .reset],
      ((encode Config.reference i).bind fun x => (decode Config.reference x).toOption) = some i := by decide

/-! ## States for the vectors -/

/-- What is asked of an outcome that is a next state. -/
def ask {α : Type} (o : Run State) (f : State → α) : Option α :=
  match o with
  | .next t => some (f t)
  | .fault _ => none
  | .refused _ => none

/-- The payload `00 01 .. 13` of 95_test_vectors.md 2.8, in `IDLE`, `cfg_len` 20. -/
def idle20 : State :=
  { State.reset with
    mem := Memory.load [0x00, 0x01, 0x02, 0x03, 0x04, 0x05, 0x06, 0x07, 0x08, 0x09, 0x0A, 0x0B, 0x0C, 0x0D, 0x0E, 0x0F,
      0x10, 0x11, 0x12, 0x13]
    cfgLen := 20 }

/-- The session of 95_test_vectors.md 2.8 at an index. -/
def await20 (i : Nat) : State := { idle20 with st := .await, idx := i, max := 2, L := 20 }

/-- The same under `RETRY_IDX0 = false`. -/
def nak20 (i : Nat) : State := { await20 i with cfg := nakPolicy }

/-- A faulted block (V81 to V84). -/
def faulted20 : State := { idle20 with fault := .emptyPayload }

/-- A block in `DONE` (V79b, V79c, V87, V89). -/
def done20 : State := { await20 2 with st := .done, exitCode := some 0 }

/-- The block with a chunk size and `N`-byte operands only. -/
def small (n : Nat) : State := State.afterReset (withN n)

/-- The next input is an inbound byte. -/
def onByte (b : Byte) (s : State) : State := { s with inputs := [.event (.rxByte b)] }

/-- The next input is a block event. -/
def onEvent (e : BlockEvent) (s : State) : State := { s with inputs := [.event e] }

/-! ## Composer (2.1 to 2.4) -/

/-- V1, the short last chunk. -/
theorem test_chunk_last : ask (exec (.chunk 2) (await20 0)) State.result = some (.bytes [0x10, 0x11, 0x12, 0x13]) := by
  decide

/-- A read of the payload at or above what memory admits is stuck (R40); a chunk past `max` has no meaning (R90). -/
theorem test_chunk_stops :
    exec (.chunk 0) { State.reset with L := 1 } = .fault .payloadReadNotAdmitted ∧
    exec (.chunk 3) (await20 0) = .refused .chunkIndexBeyondMax := ⟨rfl, rfl⟩

/-- V5. -/
theorem test_pad_short : ask (exec (.pad [0x10, 0x11, 0x12, 0x13]) State.reset) State.result =
    some (.bytes [0x10, 0x11, 0x12, 0x13, 0, 0, 0, 0]) := by decide

/-- V8a. -/
theorem test_pad_n4 : ask (exec (.pad [0xFF]) (small 4)) State.result = some (.bytes [0xFF, 0, 0, 0]) := by decide

/-- V16. -/
theorem test_cksum_mixed :
    ask (exec (.cksum [0x80, 0x7F, 0x03, 0x02, 0xAA, 0x55, 0x10, 0x11]) State.reset) (fun t => (t.acc, t.result)) =
      some (0x65, .byte 0x65) := by decide

/-- `N = 3`: `01 02 03` gives `05` (2.3). -/
theorem test_cksum_n3 : ask (exec (.cksum [1, 2, 3]) (small 3)) State.acc = some 0x05 := by decide

/-- V30. -/
theorem test_frame_short : ask (exec (.frame [0xDE, 0xAD, 0xBE, 0xEF]) State.reset) State.FB =
    some [0xDE, 0xAD, 0xBE, 0xEF, 0, 0, 0, 0, 0x50] := by decide

/-- V52. -/
theorem test_frame_n6 : ask (exec (.frame [0xFF]) (small 6)) State.result =
    some (.bytes [0xFF, 0, 0, 0, 0, 0, 0x20]) := by decide

/-- The refusals of R97 (2.4). -/
theorem test_frame_refusals :
    exec (.frame []) State.reset = .refused .badChunkLen ∧
    exec (.frame [1, 2, 3, 4, 5, 6, 7, 8, 9]) State.reset = .refused .badChunkLen ∧
    exec (.frame [1]) (small 9) = .refused .badN := ⟨rfl, rfl, rfl⟩

/-! ## Encoder (2.4) -/

/-- An ASCII text as bytes. -/
def ascii (t : String) : List Byte := t.toList.map fun ch => BitVec.ofNat 8 ch.toNat

/-- V30: uses `+`. -/
theorem test_b64_frame : ask (exec (.b64 [0xDE, 0xAD, 0xBE, 0xEF, 0, 0, 0, 0, 0x50]) State.reset) State.result =
    some (.bytes (ascii "3q2+7wAAAABQ")) := by decide

/-- V50: two padding characters. -/
theorem test_b64_padding : ask (exec (.b64 [0x05, 0, 0, 0x04]) State.reset) State.result =
    some (.bytes (ascii "BQAABA==")) := by decide

/-- The pacer's last character is reported on `tx_done` (R114). -/
theorem test_tx_last_character :
    ask (exec (.tx (.write 0 0)) { State.reset with backlog := [[0x41]] }) (fun t => (t.sink, t.backlog, t.inputs)) =
      some ([0x41], [], [.event .txDone]) := by decide

/-- A failed write is reported and not written again (R113). -/
theorem test_tx_failure :
    ask (exec (.tx (.fail 0 0)) { State.reset with backlog := [[0x41, 0x42]] })
      (fun t => (t.sink, t.backlog, t.inputs)) = some ([], [[0x42]], [.event .wrErr]) := by decide

/-! ## Classifier (2.5, 2.6) -/

/-- The byte sequence of 2.6: three lines, and `6B` left over. -/
theorem test_lineSplit : ask (exec (.lineSplit [0x6B, 0x0D, 0x0A, 0x66, 0x6F, 0x6F, 0x0A, 0x0A, 0x6B]) State.reset)
    State.result = some (.lines [[0x6B, 0x0D], [0x66, 0x6F, 0x6F], []] [0x6B]) := by decide

/-- V132. -/
theorem test_trim : ask (exec (.trim [0x20, 0x20, 0x6B, 0x20, 0x0D]) State.reset) State.result =
    some (.bytes [0x6B]) := by decide

/-- V143: whitespace inside a line stays. -/
theorem test_trim_inner : ask (exec (.trim [0x6B, 0x20, 0x6B]) State.reset) State.result =
    some (.bytes [0x6B, 0x20, 0x6B]) := by decide

/-- A completed line `k` on the last chunk ends the session (V79f's verdict). -/
theorem test_ackK_last : ask (exec .ackK (await20 2)) (fun t => (t.st, t.idx)) = some (.done, 2) := by decide

theorem test_ackF : ask (exec .ackF (await20 1)) (fun t => (t.st, t.idx, t.txStream.map TxFrame.isRepeat)) =
    some (.await, 1, [true]) := by decide

theorem test_lineDiag : ask (exec (.lineDiag [0x6B, 0x6B]) (await20 1)) (fun t => (t.st, t.logStream)) =
    some (.await, [.diag [0x6B, 0x6B]]) := by decide

/-- V104 and V119. -/
theorem test_rxbDelim_texts :
    ask (exec .rxbDelim (await20 1)) State.logStream = some [.diag []] ∧
    ask (exec .rxbDelim { await20 1 with cls := .X, lbuf := [0x52, 0x65, 0x0D] }) (fun t => (t.cls, t.lbuf, t.logStream)) =
      some (.E, [], [.diag [0x52, 0x65]]) := by decide

/-- V100, V105, V110, V115. -/
theorem test_rxbWs : ∀ q ∈ [Cls.E, .K, .F, .X],
    ask (exec (.rxbWs 0x20) { await20 1 with cls := q }) State.cls = some q := by decide

/-- V101, V106, V111, V116. -/
theorem test_rxbK : [Cls.E, .K, .F, .X].map (fun q => ask (exec .rxbK { await20 1 with cls := q }) State.cls) =
    [some .K, some .X, some .X, some .X] := by decide

/-- V102, V107, V112, V117. -/
theorem test_rxbF : [Cls.E, .K, .F, .X].map (fun q => ask (exec .rxbF { await20 1 with cls := q }) State.cls) =
    [some .F, some .X, some .X, some .X] := by decide

/-- V103, V108, V113, V118. -/
theorem test_rxbOther : ∀ q ∈ [Cls.E, .K, .F, .X],
    ask (exec (.rxbOther 0x2E) { await20 1 with cls := q }) State.cls = some .X := by decide

/-- `LINE_MAX = 4` keeps the first four bytes (2.6). -/
theorem test_line_max :
    ask (exec (.rxbOther 0x79) { await20 1 with
      cfg := { Config.reference with lineMax := some 4 }, lbuf := [0x52, 0x65, 0x61, 0x64] }) State.lbuf =
      some [0x52, 0x65, 0x61, 0x64] := by decide

/-! ## Sequencer, one step each (2.8) -/

/-- V70. -/
theorem test_start : ask (step (onEvent .start idle20)) (fun t => (t.st, t.idx, t.max, t.L, t.out)) =
    some (.await, 0, 2, 20, [.txFrame ⟨0, [0, 1, 2, 3, 4, 5, 6, 7, 0x55], false⟩, .log (.send 0)]) := by decide

/-- The example of R162. -/
theorem test_send : ask (exec (.seqSend false) (await20 2)) State.out =
    some [.txFrame ⟨2, [0x10, 0x11, 0x12, 0x13, 0, 0, 0, 0, 0x50], false⟩, .log (.send 2)] := by decide

/-- V71. -/
theorem test_advance : ask (step (onByte 0x0A { await20 0 with cls := .K })) (fun t => (t.st, t.idx, t.cls, t.out)) =
    some (.await, 1, .E,
      [.txFrame ⟨1, [8, 9, 0x0A, 0x0B, 0x0C, 0x0D, 0x0E, 0x0F, 0x55], false⟩, .log (.send 1)]) := by decide

/-- V72. -/
theorem test_finish : ask (step (onByte 0x0A { await20 2 with cls := .K }))
    (fun t => (t.st, t.idx, t.exitCode, t.out)) = some (.done, 2, some 0, [.log .done, .trClose]) := by decide

/-- V73. -/
theorem test_retry : ask (step (onByte 0x0A { await20 1 with cls := .F })) (fun t => (t.st, t.idx, t.out)) =
    some (.await, 1,
      [.txFrame ⟨1, [8, 9, 0x0A, 0x0B, 0x0C, 0x0D, 0x0E, 0x0F, 0x55], true⟩, .log (.repeated 1)]) := by decide

/-- V75. -/
theorem test_nak0 : ask (step (onByte 0x0A { nak20 0 with cls := .F })) (fun t => (t.st, t.idx, t.exitCode, t.out)) =
    some (.done, 0, some 0, [.log .done, .trClose]) := by decide

/-- V76. -/
theorem test_nak_policy_elsewhere : ask (step (onByte 0x0A { nak20 1 with cls := .F })) (fun t => (t.st, t.idx)) =
    some (.await, 1) := by decide

/-- V77. -/
theorem test_seqDiag :
    ask (step (onByte 0x0A { await20 1 with cls := .X, lbuf := [0x52, 0x65, 0x61, 0x64, 0x79, 0x0D] }))
      (fun t => (t.st, t.cls, t.out)) = some (.await, .E, [.log (.diag [0x52, 0x65, 0x61, 0x64, 0x79])]) := by decide

/-- V79 and V79c. -/
theorem test_ignore :
    step (onEvent .start (await20 1)) = .next (await20 1) ∧ step (onEvent .start done20) = .next done20 := ⟨rfl, rfl⟩

/-- V79d and V79b: the gate. -/
theorem test_gate :
    step (onByte 0x6B idle20) = .next idle20 ∧ step (onByte 0x6B done20) = .next done20 := ⟨rfl, rfl⟩

/-! ## Cursor (2.7) -/

/-- V66: 0 is an index. -/
theorem test_curGet : ask (exec .curGet (await20 0)) State.result = some (.index 0) := by decide

/-- V61. -/
theorem test_curInc : ask (exec .curInc (await20 1)) (fun t => (t.result, t.idx)) = some (.optIndex (some 2), 2) := by
  decide

/-- V62. -/
theorem test_curInc_atMax : ask (exec .curInc (await20 2)) (fun t => (t.result, t.idx)) = some (.optIndex none, 2) := by
  decide

/-! ## Faults, write failures, reset (2.9) -/

/-- V80. -/
theorem test_start_empty : ask (step (onEvent .start State.reset)) (fun t => (t.st, t.fault, t.L, t.out)) =
    some (.idle, .emptyPayload, 0, []) := by decide

/-- V81 and V83. -/
theorem test_faulted_ignores :
    step (onEvent .start faulted20) = .next faulted20 ∧ step (onEvent .wrErr faulted20) = .next faulted20 :=
  ⟨rfl, rfl⟩

/-- V84. -/
theorem test_reset_faulted : ask (step (onEvent .reset faulted20)) (fun t => (t.st, t.fault, t.idx, t.cls)) =
    some (.idle, .none, 0, .E) := by rfl

/-- V88. -/
theorem test_reset_midway : ask (step (onEvent .reset { await20 1 with cls := .X, lbuf := [0x78] }))
    (fun t => (t.st, t.idx, t.cls, t.lbuf, t.out)) = some (.idle, 0, .E, [], []) := by rfl

/-- V85 and V87. -/
theorem test_wrErr :
    ask (step (onEvent .wrErr (await20 1))) State.out = some [.log .wrErr] ∧
    step (onEvent .wrErr done20) = .next done20 := ⟨rfl, rfl⟩

/-- The host loads the payload and drives `cfg_len` (R73). -/
theorem test_host_acts :
    ask (step { State.reset with inputs := [.mem [0x73, 0x69]] }) (fun t => t.mem) =
      some [(0, 0x73), (1, 0x69)] ∧
    ask (step { State.reset with inputs := [.len 9] }) State.cfgLen = some 9 := ⟨rfl, rfl⟩

/-- A table word placed after reset is what the next step runs. -/
theorem test_withFetchWord : step (State.reset.withFetchWord 8 0x6B) =
    exec .rxbK { State.reset with st := .await } := rfl

/-! ## Witnesses: concrete inputs that meet all hypotheses of a statement together -/

/-- The payload of P3 (95_test_vectors.md), nine bytes: a full chunk and a chunk of one byte. -/
def idle9 : State :=
  { State.reset with mem := Memory.load [0x73, 0x69, 0x78, 0x74, 0x79, 0x35, 0x6F, 0x32, 0x21], cfgLen := 9 }

/-- Its session at an index. -/
def await9 (i : Nat) : State := { idle9 with st := .await, idx := i, max := 1, L := 9 }

/-- Its session under `RETRY_IDX0 = false`. -/
def nak9 (i : Nat) : State := { await9 i with cfg := nakPolicy }

/-- The payload with index registers of no bits: two chunks do not fit. -/
def narrow9 : State := { idle9 with cfg := { Config.reference with idxW := 0 } }

/-- Two transmissions in the pacer's hands, of two characters and of one. -/
def pacing : State := { State.reset with backlog := [[0x41, 0x42], [0x43]] }

theorem witness_SelectorRoundTrip :
    Config.reference.Wf ∧ wellFormed Config.reference (.rxbOther 0xFF) = true ∧
      encode Config.reference (.rxbOther 0xFF) = some (.rxb 0xFF) := by decide

theorem witness_SelectorRoundTrip_nak0 :
    nakPolicy.Wf ∧ wellFormed nakPolicy .seqNak0 = true ∧
      encode nakPolicy .seqNak0 = some (.seq ⟨.await, false, .below, true⟩ (.signal .failure)) := by decide

/-- A byte for each clause; the delimiter is in `WS` too, and the first clause alone takes it. -/
theorem witness_ByteClassIsFirstMatchingRow :
    (0x0A : Byte) = Config.reference.delim ∧ (0x0A : Byte) ∈ Config.reference.ws ∧
    ((0x0D : Byte) ≠ Config.reference.delim ∧ (0x0D : Byte) ∈ Config.reference.ws) ∧
    ((0x6B : Byte) ≠ Config.reference.delim ∧ (0x6B : Byte) ∉ Config.reference.ws ∧ 0x6B = Config.reference.ackOk) ∧
    ((0x66 : Byte) ≠ Config.reference.delim ∧ (0x66 : Byte) ∉ Config.reference.ws ∧
      (0x66 : Byte) ≠ Config.reference.ackOk ∧ 0x66 = Config.reference.ackFail) ∧
    ((0x0E : Byte) ≠ Config.reference.delim ∧ (0x0E : Byte) ∉ Config.reference.ws ∧
      (0x0E : Byte) ≠ Config.reference.ackOk ∧ (0x0E : Byte) ≠ Config.reference.ackFail) := by decide

theorem witness_TrimmedLineSelectsItsVerdict : Config.reference.delim ∉ [(0x20 : Byte), 0x6B, 0x0D] := by decide

/-- A view for each clause of the table. -/
theorem witness_TransitionTable :
    faulted20.view.faulted = true ∧ BlockEvent.start ≠ .reset ∧ { faulted20 with st := .await }.view.faulted = true ∧
    (idle9.view.faulted = false ∧ idle9.view.st = .idle) ∧
    ((await9 0).view.faulted = false ∧ (await9 0).view.st = .await ∧ (await9 0).view.cursor = .below ∧
      Config.reference.retryIdx0 = true) ∧
    ((await9 1).view.cursor = .atMax ∧ (await9 1).view.idxZero = false) ∧
    ((nak9 0).view.idxZero = true ∧ nakPolicy.retryIdx0 = false) ∧
    (done20.view.faulted = false ∧ done20.view.st = .done) := by decide

/-- A state for each clause of the step. -/
theorem witness_StepRunsSelectedOperation :
    ((onEvent .start idle9).inputs = .event .start :: [] ∧
      decode idle9.cfg (.seq (onEvent .start idle9).view (.input .start)) = .ok .seqStart) ∧
    decode idle9.cfg (.seq { idle9 with st := .sending }.view (.input .start)) = .error .noRowForSending ∧
    { pacing with inputs := [.pacerWrite 1 0] }.inputs = .pacerWrite 1 0 :: [] ∧
    { pacing with inputs := [.pacerFail 0 0] }.inputs = .pacerFail 0 0 :: [] ∧
    { idle9 with inputs := [.len 0] }.inputs = .len 0 :: [] ∧ idle9.inputs = [] := ⟨⟨rfl, rfl⟩, rfl, rfl, rfl, rfl, rfl⟩

/-- All five at one instant; without `reset`; and an instant the step takes. -/
theorem witness_SimultaneousEventsAreSerialised :
    (⟨true, true, true, some 0, true⟩ : Together).reset = true ∧
    (let x : Together := ⟨false, true, true, some 0x6B, true⟩
     x.reset = false ∧ x.start = true ∧ x.wrErr = true ∧ x.rxByte = some 0x6B ∧ x.txDone = true ∧
       { idle9 with inputs := [.together x] }.inputs = .together x :: [] ∧ serialise x ≠ []) := by decide

/-- A state and an event for each of the five cases. -/
theorem witness_IgnoredEventsChangeNothing :
    (faulted20.fault ≠ .none ∧ BlockEvent.wrErr ≠ .reset) ∧
    (done20.st = .done ∧ BlockEvent.start ≠ .reset) ∧ (await9 0).st = .await ∧ idle9.st = .idle ∧
    (onEvent .txDone idle9).inputs = .event .txDone :: [] ∧ (onEvent .txDone idle9).st ≠ .sending := by decide

theorem witness_PayloadMemoryIsNeverWritten : ∃ t, exec .curInc (await9 0) = .next t := ⟨_, rfl⟩

theorem witness_LoadedPayloadReadsBack :
    { State.reset with inputs := [.mem [0x73]] }.inputs = .mem [0x73] :: [] ∧ [(0x73 : Byte)].length ≤ 2 ^ State.reset.cfg.addrW := by
  decide

/-- The first chunk and the short last one. -/
theorem witness_ChunkReadsPayloadBytes :
    ∀ i ∈ [0, 1], let s := await9 0
      1 ≤ s.cfg.n ∧ s.cfg.n ≤ 8 ∧ i ≤ s.max ∧ i * s.cfg.n < s.L ∧ PayloadLoaded s s.L := by decide

/-- Lengths 1 and `N`, for the least and the greatest `N`; also for the frame and its layout. -/
theorem witness_PadAppendsZeros :
    ∀ c ∈ [[(0x01 : Byte)], [1, 2, 3, 4, 5, 6, 7, 8]],
      1 ≤ State.reset.cfg.n ∧ State.reset.cfg.n ≤ 8 ∧ 1 ≤ c.length ∧ c.length ≤ State.reset.cfg.n := by decide

theorem witness_ChecksumIsTheClosedForm :
    (1 ≤ (small 1).cfg.n ∧ (small 1).cfg.n ≤ 8 ∧ [(0xFF : Byte)].length = (small 1).cfg.n) ∧
    (1 ≤ (small 8).cfg.n ∧ (small 8).cfg.n ≤ 8 ∧ (List.replicate 8 (0xFF : Byte)).length = (small 8).cfg.n) := by decide

/-- Byte 0 and byte 7 of eight; bit 8 is above. -/
theorem witness_ChecksumBitOrder :
    (List.replicate 8 (0xFF : Byte)).length ≤ 8 ∧ 0 < (List.replicate 8 (0xFF : Byte)).length ∧
      7 < (List.replicate 8 (0xFF : Byte)).length ∧ (List.replicate 8 (0xFF : Byte)).length ≤ 8 := by decide

theorem witness_FrameIsPaddedChunkAndChecksum :
    1 ≤ (small 1).cfg.n ∧ (small 1).cfg.n ≤ 8 ∧ 1 ≤ [(0x01 : Byte)].length ∧ [(0x01 : Byte)].length ≤ (small 1).cfg.n := by
  decide

/-- Byte 3 is the chunk's last, byte 7 a padding byte, of `N = 8`. -/
theorem witness_FrameLayout :
    1 ≤ 8 ∧ 8 ≤ 8 ∧ 1 ≤ [(0x10 : Byte), 0x11, 0x12, 0x13].length ∧ [(0x10 : Byte), 0x11, 0x12, 0x13].length ≤ 8 ∧
      3 < 8 ∧ 7 < 8 ∧ 8 ≤ 8 := by decide

/-- `N = 0`, `N = 9`; length 0, length 9; the index after the last chunk's. -/
theorem witness_ComposerDomain :
    (small 0).cfg.n < 1 ∧ 8 < (small 9).cfg.n ∧
    (1 ≤ State.reset.cfg.n ∧ State.reset.cfg.n ≤ 8 ∧ ([] : List Byte).length = 0 ∧
      State.reset.cfg.n < (List.replicate 9 (0 : Byte)).length) ∧ (await9 0).max < 2 := by decide

theorem witness_ChunksCoverThePayload :
    1 ≤ idle9.cfg.n ∧ idle9.mem = Memory.load [0x73, 0x69, 0x78, 0x74, 0x79, 0x35, 0x6F, 0x32, 0x21] ∧
      0 + 1 < chunkCount idle9.cfg.n 9 ∧ 1 < chunkCount idle9.cfg.n 9 := by decide

/-- A transmission with more characters than one, and one with its last. -/
theorem witness_PacerActs :
    pacing.backlog[0]? = some (0x41 :: 0x42 :: []) ∧ pacing.backlog[1]? = some [0x43] := by decide

/-- An environment that has the pacer write three characters, and then only reports on `tx_done`. -/
def threeWrites (k : Nat) : List Input :=
  if k = 0 then List.replicate 3 (.pacerWrite 0 0) else [.event .txDone]

/-- `pacing` there before step 3. -/
def oneLeft : State :=
  { pacing with
    sink := [0x41, 0x42]
    backlog := [[0x43]]
    inputs := [.pacerWrite 0 0, .event .txDone, .event .txDone] }

/-- What is left of `pacing` there once all is written. -/
def allWritten : State :=
  { pacing with sink := [0x41, 0x42, 0x43], backlog := [], inputs := List.replicate 4 (.event .txDone) }

theorem threeWrites_end (k : Nat) : fedRun threeWrites (k + 4) pacing = .next allWritten := by
  induction k with
  | zero => rfl
  | succ k ih => rw [Nat.add_right_comm, fedRun_succ, ih]; rfl

/-- The pacer is fair in that run: the last character is written in step 3. -/
theorem threeWrites_fair : PacerFair threeWrites pacing := by
  intro k t h hb
  rcases Nat.lt_or_ge k 4 with hk | hk
  · exact ⟨3, oneLeft, by omega, rfl, 0, Or.inl rfl⟩
  · obtain ⟨m, rfl⟩ := Nat.exists_eq_add_of_le' hk
    rw [threeWrites_end] at h
    exact absurd (congrArg State.backlog (Host.Outcome.next.inj h)).symm hb

/-- Two transmissions written in turn, with an event and a failure in between; a fair run whose sink keeps accepting, from its
first state on; and one transmission written without interruption. -/
theorem witness_PacerWritesTextInOrder :
    (let s := { pacing with inputs := [.pacerWrite 1 0, .event .txDone, .pacerWrite 0 3, .pacerFail 0 0] }
     [] ∉ s.backlog ∧ ask (runSteps 4 s) (fun t => (t.sink, t.backlog)) = some ([0x43, 0x41], [[0x42]])) ∧
    ([] ∉ pacing.backlog ∧ PacerFair threeWrites pacing ∧ fedRun threeWrites 0 pacing = .next pacing ∧
      SinkAccepts threeWrites pacing) ∧
    (let s := { pacing with inputs := [.pacerWrite 0 0, .pacerWrite 0 0, .event .start] }
     [(0x41 : Byte), 0x42] ≠ [] ∧ s.backlog = [0x41, 0x42] :: [[0x43]] ∧
       s.inputs = List.replicate [(0x41 : Byte), 0x42].length (Input.pacerWrite 0 0) ++ [Input.event .start]) :=
  ⟨by decide, ⟨by decide, threeWrites_fair, rfl,
    fun _ _ => ⟨by simp [pacing, State.reset, State.afterReset], fun _ => by unfold threeWrites; split <;> simp⟩⟩, by decide⟩

/-- Two states that differ in the pacer's part only; an act of the pacer; two states that differ in the block's part only, one
idle and one waiting. -/
theorem witness_BlockAndPacerAreIndependent :
    ((onEvent .wrErr pacing).block = (onEvent .wrErr State.reset).block ∧
      (onEvent .wrErr pacing).fresh = (onEvent .wrErr State.reset).fresh ∧
      ∃ t, step (onEvent .wrErr pacing) = .next t) ∧
    (∃ t, exec (.tx (.write 1 0)) pacing = .next t) ∧
    (let s' := { await9 1 with backlog := pacing.backlog }
     pacing.block ≠ s'.block ∧ pacing.backlog = s'.backlog ∧ pacing.sink = s'.sink ∧ pacing.inputs = s'.inputs ∧
       (∃ t, exec (.tx (.accept ⟨0, [0x41], false⟩)) pacing = .next t) ∧
       (∃ t, exec (.tx (.write 0 0)) pacing = .next t) ∧ ∃ t, exec (.tx (.fail 1 0)) pacing = .next t) :=
  ⟨⟨rfl, rfl, _, rfl⟩, ⟨_, rfl⟩, by decide, rfl, rfl, rfl, ⟨_, rfl⟩, ⟨_, rfl⟩, ⟨_, rfl⟩⟩

/-- The first chunk acknowledged, the last one acknowledged, a retry at index 0 and above it, the reference policy. -/
theorem witness_LineOperationsDriveTheSequencer :
    ((await9 0).st = .await ∧ (await9 0).fault = .none ∧ (await9 0).idx < (await9 0).max ∧
      CanSend { await9 0 with idx := (await9 0).idx + 1 }) ∧
    (await9 1).idx = (await9 1).max ∧ ((await9 1).idx ≠ 0 ∧ CanSend (await9 1)) ∧
    ((await9 0).cfg.retryIdx0 = true ∧ CanSend (await9 0)) ∧
    ((nak9 0).st = .await ∧ (nak9 0).fault = .none ∧ (nak9 0).idx = 0 ∧ (nak9 0).cfg.retryIdx0 = false) := by decide

/-- With an infinite `LINE_MAX` and with a finite one. -/
theorem witness_ByteTransitions :
    (await9 0).st = .await ∧ (await9 0).fault = .none ∧ (await9 0).cfg.lineMax = none ∧
    (let s := { await9 0 with cfg := { Config.reference with lineMax := some 0 } }
     s.st = .await ∧ s.fault = .none ∧ s.cfg.lineMax = some 0) := by decide

/-- Each value of `cls`, with the conditions of its clause. -/
theorem witness_DelimiterCompletesTheLine :
    ((await9 0).st = .await ∧ (await9 0).fault = .none ∧ (await9 0).cls = .E) ∧
    { await9 0 with cls := .X }.cls = .X ∧
    (let s := { await9 0 with cls := .K }
     s.cls = .K ∧ s.idx < s.max ∧ CanSend { s with idx := s.idx + 1 }) ∧
    (let s := { await9 1 with cls := .K }
     s.cls = .K ∧ s.idx = s.max) ∧
    (let s := { await9 0 with cls := .F }
     s.cls = .F ∧ s.cfg.retryIdx0 = true ∧ CanSend s) ∧
    (let s := { nak9 0 with cls := .F }
     s.st = .await ∧ s.fault = .none ∧ s.cls = .F ∧ s.idx = 0 ∧ s.cfg.retryIdx0 = false) := by decide

theorem witness_BytesOutsideAwaitAreDiscarded :
    (onByte 0x0A idle9).st = .idle ∧ (onByte 0x0A done20).st = .done ∧
      (onByte 0x0A idle9).inputs = .event (.rxByte 0x0A) :: [] := by decide

theorem witness_ClassifierAgreesWithReference : Config.reference.lineMax = none := by decide

theorem witness_WholeLineActsAsItsVerdict :
    let s := { await9 0 with inputs := rxInputs ([0x6B, 0x0D] ++ [0x0A]) ++ [Input.event .txDone] }
    s.st = .await ∧ s.fault = .none ∧ s.cls = .E ∧ s.lbuf = [] ∧ s.cfg.delim ∉ [(0x6B : Byte), 0x0D] ∧
      s.inputs = rxInputs ([0x6B, 0x0D] ++ [s.cfg.delim]) ++ [Input.event .txDone] := by decide

/-- Two sessions at different indices. -/
theorem witness_ClassifierReadsNoProtocolState :
    let s := onByte 0x6B (await9 0)
    let s' := onByte 0x6B (await20 2)
    s.cfg = s'.cfg ∧ s.waiting = s'.waiting ∧ s.cls = s'.cls ∧ s.lbuf = s'.lbuf ∧ s.idx ≠ s'.idx ∧ s.L ≠ s'.L ∧
      (∃ t, step s = .next t) ∧ (∃ t, step s' = .next t) :=
  ⟨rfl, rfl, rfl, rfl, by decide, by decide, ⟨_, rfl⟩, ⟨_, rfl⟩⟩

/-- Eight bytes at addresses of three bits, and a level of `cfg_len` one above the legal ones. -/
def illegal9 : State :=
  { idle9 with
    cfg := { Config.reference with addrW := 3 }
    mem := Memory.load [0x73, 0x69, 0x78, 0x74, 0x79, 0x35, 0x6F, 0x32] }

/-- The same with a legal level. -/
def legal (l : Nat) : State := { illegal9 with cfgLen := l }

/-- Index registers of one bit, and a payload of as many chunks as they can count. -/
def twoChunks : State := { legal 2 with cfg := { withN 1 with addrW := 3, idxW := 1 } }

/-- The least legal level, the greatest one, and the first illegal one; a level that needs all indexes. -/
theorem witness_StartSendsChunkZero :
    (∀ l, l = 1 ∨ l = 8 → (legal l).st = .idle ∧ (legal l).fault = .none ∧ 1 ≤ (legal l).cfg.n ∧ (legal l).cfg.n ≤ 8 ∧
      1 ≤ (legal l).cfgLen ∧ (legal l).cfgLen ≤ 2 ^ (legal l).cfg.addrW ∧
      chunkCount (legal l).cfg.n (legal l).cfgLen ≤ 2 ^ (legal l).cfg.idxW ∧ PayloadLoaded (legal l) (legal l).cfgLen) ∧
    2 ^ (legal 8).cfg.addrW = 8 ∧
    (chunkCount twoChunks.cfg.n twoChunks.cfgLen = 2 ^ twoChunks.cfg.idxW ∧ PayloadLoaded twoChunks twoChunks.cfgLen) ∧
    (idle9.st = .idle ∧ idle9.fault = .none ∧ 1 ≤ idle9.cfg.n ∧ idle9.cfg.n ≤ 8 ∧ 1 ≤ idle9.cfgLen ∧
      idle9.cfgLen ≤ 2 ^ idle9.cfg.addrW ∧ chunkCount idle9.cfg.n idle9.cfgLen ≤ 2 ^ idle9.cfg.idxW ∧
      PayloadLoaded idle9 idle9.cfgLen) ∧
    (illegal9.st = .idle ∧ illegal9.fault = .none ∧ 1 ≤ illegal9.cfg.n ∧ illegal9.cfg.n ≤ 8 ∧
      2 ^ illegal9.cfg.addrW < illegal9.cfgLen ∧
      PayloadLoaded illegal9 (min illegal9.cfg.n (2 ^ illegal9.cfg.addrW))) :=
  ⟨by rintro l (rfl | rfl) <;> decide, by decide, by decide, by decide, by decide⟩

theorem witness_StartBeyondIndexWidth :
    narrow9.st = .idle ∧ narrow9.fault = .none ∧ 1 ≤ narrow9.cfg.n ∧ narrow9.cfg.n ≤ 8 ∧ 1 ≤ narrow9.cfgLen ∧
      narrow9.cfgLen ≤ 2 ^ narrow9.cfg.addrW ∧ 2 ^ narrow9.cfg.idxW < chunkCount narrow9.cfg.n narrow9.cfgLen ∧
      PayloadLoaded narrow9 narrow9.cfgLen := by decide

theorem witness_StartWithoutPayloadFaults :
    State.reset.st = .idle ∧ State.reset.fault = .none ∧ State.reset.cfgLen = 0 := by decide

/-- The first and the last chunk; also for the retry's premises. -/
theorem witness_SendComposesAndHandsOver : CanSend (await9 0) ∧ CanSend (await9 1) := by decide

theorem witness_AdvanceSendsTheNextChunk :
    (await9 0).st = .await ∧ (await9 0).fault = .none ∧ (await9 0).idx < (await9 0).max ∧
      CanSend { await9 0 with idx := (await9 0).idx + 1 } := by decide

theorem witness_FinishClosesTheSession :
    (await9 1).st = .await ∧ (await9 1).fault = .none ∧ (await9 1).idx = (await9 1).max := by decide

theorem witness_RetrySendsTheSameChunk :
    ((await9 0).st = .await ∧ (await9 0).fault = .none ∧ (await9 0).cfg.retryIdx0 = true ∧ CanSend (await9 0)) ∧
    ((nak9 1).st = .await ∧ (nak9 1).fault = .none ∧ (nak9 1).idx ≠ 0 ∧ CanSend (nak9 1)) := by decide

theorem witness_ReferencePolicyFinishesAtIndexZero :
    (nak9 0).st = .await ∧ (nak9 0).fault = .none ∧ (nak9 0).idx = 0 ∧ (nak9 0).cfg.retryIdx0 = false := by decide

theorem witness_DiagAndIgnoreKeepTheState : (await9 0).st = .await ∧ (await9 0).fault = .none := by decide

theorem witness_RetryIsByteIdentical :
    (await9 1).fault = .none ∧ ((await9 1).idx ≠ 0 ∨ (await9 1).cfg.retryIdx0 = true) ∧ CanSend (await9 1) ∧
      ∃ t, exec (.seqSend false) (await9 1) = .next t :=
  ⟨by decide, by decide, by decide, _, send_eq (r := false) (s := await9 1) (by decide)⟩

/-- The step of a Success on the last chunk. -/
def lastAck : State := onByte 0x0A { await9 1 with cls := .K }

theorem step_lastAck :
    step lastAck = .next (afterFinish { lastAck with cls := .E, inputs := [] }) := rfl

theorem witness_AwaitIsLeftOnlyByAnAcknowledgment :
    ∃ t, step lastAck = .next t ∧ lastAck.st = .await ∧ t.st ≠ .await := ⟨_, step_lastAck, rfl, by decide⟩

/-- The step of `START` with a payload. -/
theorem step_start9 : step (onEvent .start idle9) =
    .next (afterSend false { idle9 with L := 9, max := 1, idx := 0 }) :=
  send_eq (r := false) (s := { idle9 with L := 9, max := 1, idx := 0 }) (by decide)

theorem witness_OneFrameForEachAcknowledgment : ∃ t, step (onEvent .start idle9) = .next t := ⟨_, step_start9⟩

theorem witness_SuccessesSendEveryChunkOnce :
    let s := { idle9 with inputs := .event .start :: rxInputs [0x6B, 0x0A, 0x6B, 0x0A] }
    s.cfg.Wf ∧ s.st = .idle ∧ s.fault = .none ∧ s.cls = .E ∧ s.lbuf = [] ∧ 1 ≤ s.cfgLen ∧
      s.cfgLen ≤ 2 ^ s.cfg.addrW ∧ chunkCount s.cfg.n s.cfgLen ≤ 2 ^ s.cfg.idxW ∧ PayloadLoaded s s.cfgLen ∧
      s.inputs = .event .start :: rxInputs
        (List.replicate (chunkCount s.cfg.n s.cfgLen) [s.cfg.ackOk, s.cfg.delim]).flatten ++ [] := by decide

theorem witness_CursorOperations :
    (await9 1).idx = (await9 1).max ∧ (await9 0).idx ≠ (await9 0).max := by decide

/-- The step of a Success below `max`: the cursor moves. -/
theorem witness_CursorMovesOnlyOnSuccess :
    ∃ t, step (onByte 0x0A { await9 0 with cls := .K }) = .next t ∧ t.idx = 1 :=
  ⟨_, send_eq (s := { await9 0 with idx := 1 }) (by decide), rfl⟩

theorem witness_SessionRegistersAreFixed : ∃ t, step (onEvent .start idle9) = .next t ∧ t.max ≠ idle9.max :=
  ⟨_, step_start9, by decide⟩

/-- The fault taken, the fault cleared, and a faulted block with another event. -/
theorem witness_FaultIsStickyUntilReset :
    (∃ t, step (onEvent .start State.reset) = .next t ∧ t.fault ≠ State.reset.fault) ∧
    (∃ t, step (onEvent .reset faulted20) = .next t ∧ t.fault ≠ faulted20.fault) ∧
    (∃ t, step (onEvent .wrErr faulted20) = .next t ∧ faulted20.fault ≠ .none ∧
      (onEvent .wrErr faulted20).nextEvent = some .wrErr ∧ BlockEvent.wrErr ≠ .reset) :=
  ⟨⟨_, rfl, by decide⟩, ⟨_, rfl, by decide⟩, ⟨_, rfl, by decide, rfl, by decide⟩⟩

theorem witness_WriteErrorIsOnlyLogged :
    ((await9 0).fault = .none ∧ (await9 0).st ≠ .done) ∧ faulted20.fault ≠ .none ∧ done20.st = .done := by decide

theorem witness_CloseIsEmittedOnEnteringDone :
    ∃ t, step lastAck = .next t ∧ lastAck.st ≠ .done ∧ t.st = .done := ⟨_, step_lastAck, by decide, rfl⟩

/-- The run completes; is completed and sees a late byte; is stalled with a polluted line to come, or with nothing to come;
and a block that can retry for ever, at index 0 and above it. -/
theorem witness_RunCompletesOnlyThroughFinish :
    (∃ t, step lastAck = .next t ∧ lastAck.status ≠ .completed ∧ t.status = .completed) ∧
    (∃ t, step (onByte 0x6B done20) = .next t ∧ (onByte 0x6B done20).status = .completed ∧
      (onByte 0x6B done20).nextEvent ≠ some .reset) ∧
    (let s := { await9 0 with inputs := rxInputs [0x6B, 0x6B, 0x0A] }
     (∃ t, step s = .next t) ∧ s.status = .stalled ∧ s.nextEvent ≠ some .reset) ∧
    ((await9 0).st = .await ∧ (await9 0).fault = .none ∧ (await9 0).inputs = []) ∧
    ((await9 0).cfg.Wf ∧ (await9 0).cls = .E ∧ (await9 0).lbuf = [] ∧ (await9 0).cfg.retryIdx0 = true ∧
      CanSend (await9 0) ∧ (await9 0).backlog = []) ∧
    ((nak9 1).cfg.Wf ∧ (nak9 1).idx ≠ 0 ∧ CanSend (nak9 1)) :=
  ⟨⟨_, step_lastAck, by decide, by decide⟩, ⟨_, rfl, by decide, by decide⟩, ⟨⟨_, rfl⟩, by decide, by decide⟩,
    by decide, by decide, by decide⟩

theorem witness_UnspecifiedRegistersAreNotObserved : idle9.st = .idle ∧ ∃ t, step (onEvent .start idle9) = .next t :=
  ⟨rfl, _, step_start9⟩

theorem witness_InvHoldsAfterReset : Config.reference.Wf ∧ nakPolicy.Wf ∧ (withN 1).Wf := by decide

/-- The invariant in the middle of a session. -/
theorem inv_await9 (i : Nat) (hi : i ≤ 1) : Inv (await9 i) where
  cfgWf := by show Config.reference.Wf; decide
  notSending := fun h => nomatch h
  session := fun _ => ⟨by show 1 ≤ 9; decide, by show 9 ≤ 2 ^ 32; decide,
    by show MaxFits Config.reference 9 1; decide, hi⟩
  idleClear := fun h => nomatch h
  doneClear := fun h => nomatch h
  faultIdle := fun h => absurd rfl h
  exitValid := rfl
  maxWidth := by show 1 < 2 ^ 32; decide
  lenWidth := by show 9 < 2 ^ 33; decide
  frameWidth := rfl
  lineWidth := fun _ h => nomatch h
  memWf := load_wf _
  memRange := fun a b h => by
    have h2 : [0x73, 0x69, 0x78, 0x74, 0x79, 0x35, 0x6F, 0x32, 0x21][a]? = some b := (read_load _ a).symm.trans h
    have h3 : a < 9 := (List.getElem?_eq_some_iff.mp h2).1
    show a < 2 ^ 32
    omega
  backlogOpen := fun h => nomatch h

theorem inv_onEvent {e : BlockEvent} {s : State} (h : Inv s) : Inv (onEvent e s) :=
  ⟨h.cfgWf, h.notSending, h.session, h.idleClear, h.doneClear, h.faultIdle, h.exitValid, h.maxWidth, h.lenWidth,
    h.frameWidth, h.lineWidth, h.memWf, h.memRange, h.backlogOpen⟩

theorem witness_StepKeepsInv :
    Inv (onEvent .wrErr (await9 0)) ∧ ∃ t, step (onEvent .wrErr (await9 0)) = .next t :=
  ⟨inv_onEvent (inv_await9 0 (by decide)), _, rfl⟩

theorem witness_EveryEventIsAccepted :
    Inv (onEvent .start (await9 0)) ∧ (onEvent .start (await9 0)).inputs = .event .start :: [] ∧
      PayloadLoaded (onEvent .start (await9 0)) (onEvent .start (await9 0)).L ∧
      (idle9.st = .idle ∧ PayloadLoaded idle9 (if idle9.cfgLen ≤ 2 ^ idle9.cfg.addrW then idle9.cfgLen
        else min idle9.cfg.n (2 ^ idle9.cfg.addrW))) :=
  ⟨inv_onEvent (inv_await9 0 (by decide)), rfl, by decide, by decide⟩

end Sys2Proof.Tests
end

section
/-! The bit order of the checksum (20_memory.md R43). -/

namespace Sys2Proof.Machine

theorem cksumByte_getLsbD_of_byte {p : List Byte} (hp : p.length ≤ 8) {i : Nat} (hi : i < p.length) :
    (cksumByte p).getLsbD (p.length - 1 - i) = p[i].getLsbD 0 := by
  have hback : p.length - 1 - (p.length - 1 - i) = i := by omega
  rw [cksumByte_getLsbD p _ (by omega), dif_pos (by omega)]
  simp only [hback]

theorem cksumByte_getLsbD_of_length_le {p : List Byte} {j : Nat} (hj : p.length ≤ j) :
    (cksumByte p).getLsbD j = false := by
  by_cases hj8 : j < 8
  · rw [cksumByte_getLsbD p j hj8, dif_neg (by omega)]
  · exact BitVec.getLsbD_of_ge _ _ (by omega)

/-- A byte reaches the checksum through its bit 0 alone, so replacing byte `i` leaves every bit but `N-1-i`. -/
theorem cksumByte_set_getLsbD {p : List Byte} {i j : Nat} (b : Byte) (hi : i < p.length) (hj : j < 8) :
    (cksumByte (p.set i b)).getLsbD j =
      if j = p.length - 1 - i then b.getLsbD 0 else (cksumByte p).getLsbD j := by
  rw [cksumByte_getLsbD _ j hj, cksumByte_getLsbD p j hj]
  simp only [List.length_set, List.getElem_set]
  by_cases hin : j < p.length
  · have hplace : i = p.length - 1 - j ↔ j = p.length - 1 - i := by omega
    simp only [hin, dif_pos, hplace]
    split <;> rfl
  · rw [dif_neg hin, dif_neg hin, if_neg (by omega)]

theorem cksumByte_set_xor_one {p : List Byte} (hp : p.length ≤ 8) {i : Nat} (hi : i < p.length) :
    cksumByte (p.set i (p[i] ^^^ 1)) = cksumByte p ^^^ ((1 : Byte) <<< (p.length - 1 - i)) := by
  have hpow : (1 : Byte) <<< (p.length - 1 - i) = BitVec.twoPow 8 (p.length - 1 - i) :=
    (BitVec.twoPow_eq 8 _).symm
  rw [hpow]
  apply BitVec.eq_of_getLsbD_eq
  intro j hj
  rw [cksumByte_set_getLsbD _ hi hj, BitVec.getLsbD_xor, BitVec.getLsbD_xor, BitVec.getLsbD_twoPow]
  by_cases hbit : j = p.length - 1 - i
  · subst hbit
    rw [cksumByte_getLsbD_of_byte hp hi]
    simp [hj]
  · simp [hbit, Ne.symm hbit]

/-- Settles O15: each bit is read off the checksum's bits (`cksumByte_getLsbD`), and the flip off them before and after. -/
theorem checksumBitOrder : Obligations.ChecksumBitOrder := fun _ hp =>
  ⟨fun _ hi => cksumByte_getLsbD_of_byte hp hi, fun _ hj => cksumByte_getLsbD_of_length_le hj,
    fun _ hi => cksumByte_set_xor_one hp hi⟩

end Sys2Proof.Machine
end

section
/-! The flags as conditions on the registers (10_state.md R16), and the numeric codes (30_encoding.md R65 to R70). -/

namespace Sys2Proof.Machine

@[simp] theorem State.doneFlag_iff (s : State) : s.doneFlag = true ↔ s.st = .done :=
  decide_eq_true_iff

@[simp] theorem State.busyFlag_iff (s : State) : s.busyFlag = true ↔ s.st = .await ∨ s.st = .sending := by
  rw [State.busyFlag, Bool.or_eq_true, decide_eq_true_iff, decide_eq_true_iff]

@[simp] theorem State.atMaxFlag_iff (s : State) : s.atMaxFlag = true ↔ s.idx = s.max :=
  decide_eq_true_iff

@[simp] theorem State.rxEnFlag_iff (s : State) : s.rxEnFlag = true ↔ s.st = .await :=
  decide_eq_true_iff

@[simp] theorem State.faultedFlag_iff (s : State) : s.faultedFlag = true ↔ s.fault ≠ .none :=
  decide_eq_true_iff

/-- Settles O6: the codes are the tables' own entries and the ports copies of registers, by `rfl`; each flag is decided
by its condition on the registers (`doneFlag_iff` and the like). -/
theorem codesFlagsAndStatusPorts : Obligations.CodesFlagsAndStatusPorts := by
  refine ⟨?sig, ?st, ?cls, ?fault, ?logSend, ?logOther, ?flags⟩
  case sig => exact ⟨rfl, rfl, rfl, fun _ => rfl⟩
  case st => exact ⟨rfl, rfl, rfl, rfl⟩
  case cls => exact ⟨rfl, rfl, rfl, rfl⟩
  case fault => exact ⟨rfl, rfl⟩
  case logSend => exact fun _ => ⟨rfl, rfl⟩
  case logOther => exact ⟨rfl, fun _ => rfl, rfl⟩
  case flags =>
    exact fun s => ⟨s.doneFlag_iff, s.busyFlag_iff, s.atMaxFlag_iff, s.rxEnFlag_iff, s.faultedFlag_iff, rfl, rfl, rfl⟩

end Sys2Proof.Machine
end

section
/-! The checksum as a number (40_frame_composer.md R92): the sum of the bytes' lowest bits, the first byte's weighted most. -/

namespace Sys2Proof.Machine

/-- The sum over `i` of bit 0 of byte `i` times `2^(N-1-i)`, the right side of R92's closed form. -/
def weightedLowBits (p : List Byte) : Nat :=
  ∑ i : Fin p.length, (p[i].getLsbD 0).toNat * 2 ^ (p.length - 1 - i)

theorem weightedLowBits_cons (b : Byte) (p : List Byte) :
    weightedLowBits (b :: p) = (b.getLsbD 0).toNat * 2 ^ p.length + weightedLowBits p := by
  have hweight (i : Fin p.length) : p.length - (i + 1) = p.length - 1 - i := by omega
  calc weightedLowBits (b :: p)
      = (b.getLsbD 0).toNat * 2 ^ p.length +
          ∑ i : Fin p.length, (p[i].getLsbD 0).toNat * 2 ^ (p.length - (i + 1)) :=
        Fin.sum_univ_succ (n := p.length) fun i => ((b :: p)[i].getLsbD 0).toNat * 2 ^ (p.length - i)
    _ = (b.getLsbD 0).toNat * 2 ^ p.length + weightedLowBits p := by
        simp only [hweight, weightedLowBits]

theorem weightedLowBits_lt (p : List Byte) : weightedLowBits p < 2 ^ p.length := by
  induction p with
  | nil => exact Nat.one_pos
  | cons b p ih =>
    have hbit : (b.getLsbD 0).toNat * 2 ^ p.length ≤ 1 * 2 ^ p.length :=
      Nat.mul_le_mul_right _ (Bool.toNat_le _)
    rw [weightedLowBits_cons, List.length_cons, Nat.pow_succ]
    omega

/-- One iteration doubles the accumulator and adds the byte's lowest bit, in eight bits. -/
theorem cksumStep_toNat (acc b : Byte) :
    (cksumStep acc b).toNat = (acc.toNat * 2 + (b.getLsbD 0).toNat) % 2 ^ 8 := by
  have hlow : (b &&& 1).toNat = (b.getLsbD 0).toNat := by
    rw [BitVec.getLsbD, Nat.toNat_testBit, Nat.pow_zero, Nat.div_one]
    exact Nat.and_one_is_mod b.toNat
  rw [cksumStep, BitVec.toNat_add, BitVec.toNat_shiftLeft, Nat.shiftLeft_eq, hlow, Nat.mod_add_mod]

/-- The iterations shift what the accumulator held out at the top and add the weighted bits. -/
theorem foldl_cksumStep_toNat (p : List Byte) (acc : Byte) :
    (p.foldl cksumStep acc).toNat = (acc.toNat * 2 ^ p.length + weightedLowBits p) % 2 ^ 8 := by
  induction p generalizing acc with
  | nil => simp [weightedLowBits, Nat.mod_eq_of_lt acc.isLt]
  | cons b p ih =>
    rw [List.foldl_cons, ih, cksumStep_toNat, weightedLowBits_cons, List.length_cons, Nat.pow_succ,
      ← Nat.mod_add_mod, Nat.mod_mul_mod, Nat.mod_add_mod]
    ring_nf

/-- The closed form of R92: up to eight bytes nothing is shifted out. -/
theorem cksumByte_toNat {p : List Byte} (hp : p.length ≤ 8) : (cksumByte p).toNat = weightedLowBits p := by
  have hstart : (0 : Byte).toNat = 0 := rfl
  have hfits : weightedLowBits p < 2 ^ 8 :=
    (weightedLowBits_lt p).trans_le (Nat.pow_le_pow_right Nat.two_pos hp)
  rw [cksumByte, foldl_cksumStep_toNat, hstart, Nat.zero_mul, Nat.zero_add, Nat.mod_eq_of_lt hfits]

/-- `CKSUM` inside its domain: the checksum, also in `acc` (R92). -/
theorem cksumRun_eq {p : List Byte} {s : State} (hn : 1 ≤ s.cfg.n ∧ s.cfg.n ≤ 8) (hp : p.length = s.cfg.n) :
    cksumRun p s = .next (cksumByte p, { s with acc := cksumByte p }) := by
  have hsize := (chunkSizeOk_iff s.cfg).mpr hn
  simp [cksumRun, hsize, hp]

/-- Settles O14: `CKSUM` answers `cksumByte p` (`cksumRun_eq`), whose value is the weighted sum (`cksumByte_toNat`). -/
theorem checksumIsTheClosedForm : Obligations.ChecksumIsTheClosedForm := by
  intro s p hn1 hn8 hp
  have hvalue := cksumByte_toNat (hp.trans_le hn8)
  refine ⟨cksumByte p, ?exec, hvalue, ?bound⟩
  case exec =>
    change execCksum p s = _
    rw [execCksum, cksumRun_eq ⟨hn1, hn8⟩ hp, bindRun_next]
  case bound =>
    rw [hvalue, ← hp]
    exact weightedLowBits_lt p

end Sys2Proof.Machine
end

section
/-! The slice, the padding and the frame inside their domain (40_frame_composer.md R90, R91, R93). -/

namespace Sys2Proof.Machine

/-- Settles O12: the chunk is loaded where the payload is, so the slice answers its bytes (`chunkAt_loaded`). -/
theorem chunkReadsPayloadBytes : Obligations.ChunkReadsPayloadBytes := by
  intro s i hn1 hn8 hi hb hload
  change execChunk i s = _
  rw [execChunk, chunkAt_loaded ⟨hn1, hn8⟩ hi hb (hload.chunk i), bindRun_next]
  rfl

/-- Zeros a chunk ends in are zeros that padding would have put there (70_reset_and_hazards.md R264). -/
theorem padBytes_append_zeros {n m : Nat} {c : List Byte} (h : c.length + m ≤ n) :
    padBytes n (c ++ List.replicate m 0) = padBytes n c := by
  have hsplit : m + (n - (c.length + m)) = n - c.length := by omega
  rw [padBytes, padBytes, List.length_append, List.length_replicate, List.append_assoc,
    List.replicate_append_replicate, hsplit]

theorem padBytes_idem {n : Nat} {c : List Byte} (h : c.length ≤ n) :
    padBytes n (padBytes n c) = padBytes n c :=
  padBytes_append_zeros (by omega)

/-- `PAD` inside its domain: the padded chunk (R91). -/
theorem padRun_eq {cfg : Config} {c : List Byte} (hn : 1 ≤ cfg.n ∧ cfg.n ≤ 8)
    (hc : 1 ≤ c.length ∧ c.length ≤ cfg.n) : padRun cfg c = .next (padBytes cfg.n c) := by
  have hsize := (chunkSizeOk_iff cfg).mpr hn
  simp [padRun, inComposerDomain, hsize, hc]

/-- Settles O13: `PAD` answers `padBytes` (`padRun_eq`); the zeros added once are zeros the chunk may as well have ended in
(`padBytes_append_zeros`). -/
theorem padAppendsZeros : Obligations.PadAppendsZeros := by
  intro s c hn1 hn8 hc1 hcn
  refine ⟨?exec, padBytes_length hcn, padBytes_idem hcn, fun m hm => padBytes_append_zeros hm⟩
  case exec =>
    change execPad c s = _
    rw [execPad, padRun_eq ⟨hn1, hn8⟩ ⟨hc1, hcn⟩, bindRun_next, padBytes]

/-- Settles O16: `FRAME` answers the frame and leaves it in `FB` and its checksum in `acc` (`frameRun_eq`). -/
theorem frameIsPaddedChunkAndChecksum : Obligations.FrameIsPaddedChunkAndChecksum := by
  intro s c hn1 hn8 hc1 hcn
  change execFrame c s = _
  rw [execFrame, frameRun_eq ⟨hn1, hn8⟩ ⟨hc1, hcn⟩, bindRun_next, frameBytes]

end Sys2Proof.Machine
end

section
/-! `LINE.SPLIT` (42_ack_classifier.md R130), with the line so far as the part of the first line that was seen before. -/

namespace Sys2Proof.Machine

@[simp] theorem splitLines_nil (c : Config) (cur : List Byte) : splitLines c cur [] = ([], cur) := rfl

@[simp] theorem splitLines_delim (c : Config) (cur bs : List Byte) :
    splitLines c cur (c.delim :: bs) = (cur :: (splitLines c [] bs).1, (splitLines c [] bs).2) :=
  if_pos rfl

theorem splitLines_other {c : Config} {b : Byte} (cur bs : List Byte) (hb : b ≠ c.delim) :
    splitLines c cur (b :: bs) = splitLines c (cur ++ [b]) bs :=
  if_neg hb

/-- The lines, a delimiter after each, and the incomplete line are the line so far and the bytes. -/
theorem splitLines_join (c : Config) (cur bs : List Byte) :
    (splitLines c cur bs).1.flatMap (· ++ [c.delim]) ++ (splitLines c cur bs).2 = cur ++ bs := by
  induction bs generalizing cur with
  | nil => simp
  | cons b bs ih =>
    by_cases hb : b = c.delim
    · subst hb
      simp [ih []]
    · simp [splitLines_other cur bs hb, ih (cur ++ [b])]

/-- No line holds a delimiter, complete or not, unless the line so far did. -/
theorem delim_notMem_splitLines {c : Config} {cur : List Byte} (bs : List Byte) (hcur : c.delim ∉ cur) :
    (∀ l ∈ (splitLines c cur bs).1, c.delim ∉ l) ∧ c.delim ∉ (splitLines c cur bs).2 := by
  induction bs generalizing cur with
  | nil => simpa using hcur
  | cons b bs ih =>
    by_cases hb : b = c.delim
    · subst hb
      obtain ⟨hlines, hpart⟩ := ih List.not_mem_nil
      simpa [hcur, hpart] using hlines
    · have hnext : c.delim ∉ cur ++ [b] := by simp [hcur, Ne.symm hb]
      rw [splitLines_other cur bs hb]
      exact ih hnext

/-- Settles O26: `LINE.SPLIT` starts from an empty line, so the bytes are what `splitLines_join` puts together, and no line
holds a delimiter (`delim_notMem_splitLines`). -/
theorem linesAreCutAtDelimiters : Obligations.LinesAreCutAtDelimiters := fun s bs =>
  ⟨(splitLines s.cfg [] bs).1, (splitLines s.cfg [] bs).2, rfl, (splitLines_join s.cfg [] bs).symm,
    delim_notMem_splitLines bs List.not_mem_nil⟩

end Sys2Proof.Machine
end

section
/-! The byte operations in a waiting block and outside of `AWAIT` (42_ack_classifier.md R135 to R140, R142, R143). -/

namespace Sys2Proof.Machine

/-! ## The transition of `cls` (R135), by the class of the byte -/

@[simp] theorem clsNext_ws (q : Cls) : clsNext q .ws = q := by cases q <;> rfl

@[simp] theorem clsNext_k (q : Cls) : clsNext q .k = if q = .E then .K else .X := by cases q <;> rfl

@[simp] theorem clsNext_f (q : Cls) : clsNext q .f = if q = .E then .F else .X := by cases q <;> rfl

@[simp] theorem clsNext_other (q : Cls) : clsNext q .other = .X := by cases q <;> rfl

/-! ## `append` (R143) -/

theorem appendLbuf_infinite {c : Config} (h : c.lineMax = none) (lbuf : List Byte) (b : Byte) :
    appendLbuf c lbuf b = lbuf ++ [b] := by
  simp [appendLbuf, h]

theorem appendLbuf_finite {c : Config} {m : Nat} (h : c.lineMax = some m) (lbuf : List Byte) (b : Byte) :
    appendLbuf c lbuf b = if lbuf.length < m then lbuf ++ [b] else lbuf := by
  simp [appendLbuf, h]

/-! ## The gate (R142) -/

theorem takeByte_waiting {s : State} (hw : s.waiting = true) (q : ByteClass) (b : Byte) :
    takeByte q b s = { s with cls := clsNext s.cls q, lbuf := appendLbuf s.cfg s.lbuf b } :=
  if_pos hw

theorem takeByte_notWaiting {s : State} (hw : ¬ s.waiting = true) (q : ByteClass) (b : Byte) : takeByte q b s = s :=
  if_neg hw

theorem execRxbDelim_waiting {s : State} (hw : s.waiting = true) :
    execRxbDelim s = handSignal (lineSignal s.cfg s.cls s.lbuf) (clearLine s) :=
  if_pos hw

theorem execRxbDelim_notWaiting {s : State} (hw : ¬ s.waiting = true) : execRxbDelim s = .next s :=
  if_neg hw

/-- Settles O29: in a waiting block a byte is taken (`takeByte_waiting`); the rest is the transition of `cls` for its
class. -/
theorem byteTransitions : Obligations.ByteTransitions := by
  intro s b hst hfault
  have hw : s.waiting = true := (waiting_iff s).mpr ⟨hst, hfault⟩
  refine ⟨?ws, ?k, ?f, ?other, fun h => appendLbuf_infinite h s.lbuf b, fun _ h => appendLbuf_finite h s.lbuf b⟩
  case ws =>
    change execRxbWs b s = _
    rw [execRxbWs, takeByte_waiting hw, clsNext_ws]
  case k =>
    change execRxbK s = _
    rw [execRxbK, takeByte_waiting hw, clsNext_k]
  case f =>
    change execRxbF s = _
    rw [execRxbF, takeByte_waiting hw, clsNext_f]
  case other =>
    change execRxbOther b s = _
    rw [execRxbOther, takeByte_waiting hw, clsNext_other]

/-- Settles O30: the delimiter hands the signal of `cls` to the sequencer with the line cleared
(`execRxbDelim_waiting`), and the sequencer, still waiting, reacts as `handSignal_advance` and the like say. -/
theorem delimiterCompletesTheLine : Obligations.DelimiterCompletesTheLine := by
  intro s hst hfault
  have hw : s.waiting = true := (waiting_iff s).mpr ⟨hst, hfault⟩
  have hclear : (clearLine s).waiting = true := hw
  have hreact {q : Cls} (hcls : s.cls = q) :
      exec .rxbDelim s = handSignal (lineSignal s.cfg q s.lbuf) (clearLine s) :=
    hcls ▸ execRxbDelim_waiting hw
  refine ⟨?empty, ?diag, ?advance, ?finish, ?retry, ?nak0⟩
  case empty => exact fun hcls => (hreact hcls).trans (handSignal_diag hclear [])
  case diag => exact fun hcls => (hreact hcls).trans (handSignal_diag hclear _)
  case advance =>
    exact fun hcls hidx hsend => (hreact hcls).trans ((handSignal_advance hclear hidx).trans (send_eq hsend))
  case finish => exact fun hcls hidx => (hreact hcls).trans (handSignal_finish hclear hidx)
  case retry =>
    exact fun hcls hidx hsend => (hreact hcls).trans ((handSignal_retry hclear hidx).trans (send_eq hsend))
  case nak0 => exact fun hcls hidx hpolicy => (hreact hcls).trans (handSignal_nak0 hclear hidx hpolicy)

/-! ## The step over an inbound byte in `IDLE` and in `DONE` -/

/-- A block event in front is taken off the inputs, and the operation it selects runs (43_transfer_sequencer.md R160). -/
theorem step_event {s : State} {e : BlockEvent} {rest : List Input} {i : Instr} (hin : s.inputs = .event e :: rest)
    (hsel : decodeSeq s.cfg s.view (.input e) = .ok i) : step s = exec i { s with inputs := rest } := by
  simp [step, fetch, hin, deliver, decode, hsel]

/-- Outside of `AWAIT` an inbound byte selects `SEQ.IGNORE`, faulted or not (43_transfer_sequencer.md R168, R171). -/
theorem decodeSeq_rxByte_outsideAwait (c : Config) {v : SeqView} (b : Byte) (hst : v.st = .idle ∨ v.st = .done) :
    decodeSeq c v (.input (.rxByte b)) = .ok .seqIgnore := by
  rcases hst with h | h <;> simp [decodeSeq, decodeTableCell, h]

/-- Settles O31: a block in `IDLE` or `DONE` is not waiting, so the gate is closed to every byte operation, and the step
selects `SEQ.IGNORE`. -/
theorem bytesOutsideAwaitAreDiscarded : Obligations.BytesOutsideAwaitAreDiscarded := by
  intro s b hst
  have hw : ¬ s.waiting = true := fun hw => by
    obtain ⟨hawait, -⟩ := (waiting_iff s).mp hw
    simp [hawait] at hst
  have hdiscard (q : ByteClass) (x : Byte) : Host.Outcome.next (takeByte q x s) = (.next s : Run State) := by
    rw [takeByte_notWaiting hw]
  exact ⟨execRxbDelim_notWaiting hw, hdiscard .ws b, hdiscard .k s.cfg.ackOk, hdiscard .f s.cfg.ackFail,
    hdiscard .other b, fun _ hin => step_event hin (decodeSeq_rxByte_outsideAwait s.cfg b hst)⟩

end Sys2Proof.Machine
end

section
/-! The sequencer's operations outright, and the events it ignores (43_transfer_sequencer.md R162 to R169). -/

namespace Sys2Proof.Machine

/-! ## What ends `AWAIT` (R169) -/

/-- A signal ends `AWAIT` only through `finish()`: a Success on the last chunk (R164), or a Failure at index 0 under the
reference policy (R166). -/
theorem handSignal_leaves_await {g : Signal} {s t : State} (h : handSignal g s = .next t) (hs : s.st = .await)
    (ht : t.st ≠ .await) :
    (g = .success ∧ s.idx = s.max) ∨ (g = .failure ∧ s.idx = 0 ∧ s.cfg.retryIdx0 = false) := by
  rcases handSignal_next h with ⟨-, rfl⟩ | ⟨-, ⟨-, -, hsend⟩ | ⟨hg, hidx, -⟩ | ⟨-, -, hsend⟩ | ⟨hg, hidx, hpolicy, -⟩ |
    ⟨_, -, rfl⟩⟩
  · exact absurd hs ht
  · obtain ⟨-, -, -, rfl⟩ := send_next hsend
    exact absurd rfl ht
  · exact Or.inl ⟨hg, hidx⟩
  · obtain ⟨-, -, -, rfl⟩ := send_next hsend
    exact absurd rfl ht
  · exact Or.inr ⟨hg, hidx, hpolicy⟩
  · exact absurd hs ht

/-- The delimiter in a waiting block produces the signal of the line (42_ack_classifier.md R136). -/
theorem signalOf_delim {s : State} {b : Byte} (hw : s.waiting = true) (hb : byteClass s.cfg b = .delim) :
    s.signalOf (.rxByte b) = some (lineSignal s.cfg s.cls s.lbuf) :=
  if_pos ⟨hw, hb⟩

/-- The acts of the TX pacer leave `st` (41_transport_encoder.md R112, R113). -/
theorem pacerWrite_st {j d : Nat} {s t : State} (h : pacerWrite j d s = .next t) : t.st = s.st := by
  obtain ⟨-, -, -, rfl⟩ := pacerWrite_next h
  rfl

theorem pacerFail_st {j d : Nat} {s t : State} (h : pacerFail j d s = .next t) : t.st = s.st := by
  obtain ⟨-, -, -, rfl⟩ := pacerFail_next h
  rfl

/-- Settles O45: of all a step can do (`step_cases`), only `reset` and a signal write `st` of a block in `AWAIT`, and a
signal ends it only with `finish()` (`handSignal_leaves_await`). -/
theorem awaitIsLeftOnlyByAnAcknowledgment : Obligations.AwaitIsLeftOnlyByAnAcknowledgment := by
  intro s t hstep hs ht
  obtain ⟨rest, -, hcases⟩ := step_cases hstep
  rcases hcases with ⟨he, -⟩ | ⟨_, -, -, rfl⟩ | ⟨-, hstart⟩ | ⟨-, -, -, rfl⟩ | ⟨_, -, -, -, rfl⟩ |
    ⟨b, he, hw, hb, hsignal⟩ | ⟨-, j, d, ⟨-, hwrite⟩ | ⟨-, hfail⟩⟩ | ⟨-, rfl | ⟨_, rfl⟩ | ⟨_, -, rfl⟩⟩
  · exact ⟨.reset, he, Or.inl rfl⟩
  · exact absurd hs ht
  · obtain ⟨hidle, -⟩ := execSeqStart_next hstart
    exact absurd (hs.symm.trans hidle) (by decide)
  · exact absurd hs ht
  · exact absurd hs ht
  · have hends := handSignal_leaves_await hsignal hs ht
    refine ⟨.rxByte b, he, Or.inr ?_⟩
    rw [signalOf_delim hw hb, Option.some.injEq, Option.some.injEq]
    exact hends
  · exact absurd ((pacerWrite_st hwrite).trans hs) ht
  · exact absurd ((pacerFail_st hfail).trans hs) ht
  · exact absurd hs ht
  · exact absurd hs ht
  · exact absurd hs ht

/-! ## The ignored events (R168) -/

/-- Where the table says that an event is ignored it is ignored, faulted or not. -/
theorem decodeSeq_of_ignoreCell {c : Config} {v : SeqView} {e : BlockEvent}
    (h : decodeTableCell c v.st e = .ok .seqIgnore) : decodeSeq c v (.input e) = .ok .seqIgnore := by
  cases e with
  | reset => simp [decodeTableCell] at h
  | start | rxByte | wrErr | txDone => simp [decodeSeq, h]

/-- A faulted block ignores every event but `reset` (R168 e). -/
theorem decodeSeq_faulted (c : Config) {v : SeqView} {e : BlockEvent} (hv : v.faulted = true) (he : e ≠ .reset) :
    decodeSeq c v (.input e) = .ok .seqIgnore := by
  cases e with
  | reset => exact absurd rfl he
  | start | rxByte | wrErr | txDone => exact if_pos hv

/-- `DONE` ignores every event but `reset` (R168 f). -/
theorem decodeTableCell_done (c : Config) {e : BlockEvent} (he : e ≠ .reset) :
    decodeTableCell c .done e = .ok .seqIgnore := by
  cases e with
  | reset => exact absurd rfl he
  | start | rxByte | wrErr | txDone => rfl

/-- `tx_done` is ignored between steps (R168 c). -/
theorem decodeTableCell_txDone (c : Config) {st : St} (h : st ≠ .sending) :
    decodeTableCell c st .txDone = .ok .seqIgnore := by
  cases st with
  | sending => exact absurd rfl h
  | idle | await | done => rfl

/-- Settles O9: each of the events selects `SEQ.IGNORE`, in a faulted block (`decodeSeq_faulted`) or by its cell of the
table. -/
theorem ignoredEventsChangeNothing : Obligations.IgnoredEventsChangeNothing := by
  intro s e rest hin he hignored
  suffices hsel : decodeSeq s.cfg s.view (.input e) = .ok .seqIgnore from step_event hin hsel
  rcases hignored with hfault | hst | ⟨rfl, hst⟩ | ⟨⟨b, rfl⟩, hst⟩ | ⟨rfl, hst⟩
  · exact decodeSeq_faulted s.cfg (decide_eq_true hfault) he
  · exact decodeSeq_of_ignoreCell (by rw [view_st, hst, decodeTableCell_done _ he])
  · exact decodeSeq_of_ignoreCell (by rw [view_st, hst, decodeTableCell])
  · exact decodeSeq_of_ignoreCell (by rw [view_st, hst, decodeTableCell])
  · exact decodeSeq_of_ignoreCell (decodeTableCell_txDone s.cfg hst)

/-! ## The operations (R162 to R168) -/

/-- Settles O38: `send(r)` where the chunk can be read (`send_eq`), its two events written one after the other. -/
theorem sendComposesAndHandsOver : Obligations.SendComposesAndHandsOver := by
  intro s r hsend
  change send r s = _
  rw [send_eq hsend, List.append_assoc]
  rfl

/-- Settles O39: below `max` the cursor moves (`cursorIncrease_below`), and the chunk there is sent (`send_eq`). -/
theorem advanceSendsTheNextChunk : Obligations.AdvanceSendsTheNextChunk := by
  intro s hst hfault hidx hsend
  have hw : s.waiting = true := (waiting_iff s).mpr ⟨hst, hfault⟩
  change execSeqAdvance s = _
  rw [execSeqAdvance, if_pos ⟨hw, hidx⟩, cursorIncrease_below hidx, send_eq hsend]

/-- Settles O40: at `max` the cursor stays (`cursorIncrease_atMax`), and what is left is `finish()`. -/
theorem finishClosesTheSession : Obligations.FinishClosesTheSession := by
  intro s hst hfault hidx
  have hw : s.waiting = true := (waiting_iff s).mpr ⟨hst, hfault⟩
  change execSeqFinish s = _
  rw [execSeqFinish, if_pos ⟨hw, hidx⟩, cursorIncrease_atMax hidx]
  rfl

/-- Settles O41: the retry is a send at the same index (`send_eq`). -/
theorem retrySendsTheSameChunk : Obligations.RetrySendsTheSameChunk := by
  intro s hst hfault hretry hsend
  have hw : s.waiting = true := (waiting_iff s).mpr ⟨hst, hfault⟩
  change execSeqRetry s = _
  rw [execSeqRetry, if_pos ⟨hw, hretry⟩, send_eq hsend]

/-- Settles O42: index 0 under the reference policy selects `finish()`. -/
theorem referencePolicyFinishesAtIndexZero : Obligations.ReferencePolicyFinishesAtIndexZero := by
  intro s hst hfault hidx hpolicy
  have hw : s.waiting = true := (waiting_iff s).mpr ⟨hst, hfault⟩
  change execSeqNak0 s = _
  rw [execSeqNak0, if_pos ⟨hw, hidx, hpolicy⟩]
  rfl

/-- Settles O43: a waiting block logs the text, and `SEQ.IGNORE` answers its own state. -/
theorem diagAndIgnoreKeepTheState : Obligations.DiagAndIgnoreKeepTheState := by
  intro s t
  refine ⟨fun hst hfault => ?diag, rfl⟩
  case diag =>
    have hw : s.waiting = true := (waiting_iff s).mpr ⟨hst, hfault⟩
    change execSeqDiag t s = _
    rw [execSeqDiag, if_pos hw, emit]

end Sys2Proof.Machine
end

section
/-! The operations of the Index Cursor (44_index_cursor.md R200, R201). -/

namespace Sys2Proof.Machine

/-- Away from `max`, above it as well as below, the cursor moves: R201 stops it at `max` alone. -/
theorem cursorIncrease_of_ne_max {s : State} (h : s.idx ≠ s.max) :
    cursorIncrease s = (some (s.idx + 1), { s with idx := s.idx + 1 }) :=
  if_neg h

/-- Settles O48: `CUR.GET` answers `idx` by definition; `CUR.INC` is `increase()` at `max` (`cursorIncrease_atMax`) and away
from it (`cursorIncrease_of_ne_max`). -/
theorem cursorOperations : Obligations.CursorOperations := by
  intro s
  refine ⟨rfl, fun hmax => ?atMax, fun hmax => ?awayFromMax⟩
  case atMax =>
    change execCurInc s = _
    rw [execCurInc, cursorIncrease_atMax hmax]
  case awayFromMax =>
    change execCurInc s = _
    rw [execCurInc, cursorIncrease_of_ne_max hmax]

end Sys2Proof.Machine
end

section
/-! The block's own fault (60_exceptions.md R211, R212) and the failed write (R216). -/

namespace Sys2Proof.Machine

/-! ## Who writes `fault` (R211, R212) -/

/-- `send(r)` does not write `fault` (43_transfer_sequencer.md R162). -/
theorem send_fault {r : Bool} {s t : State} (h : send r s = .next t) : t.fault = s.fault := by
  obtain ⟨-, -, -, rfl⟩ := send_next h
  rfl

/-- No reaction of the sequencer writes `fault` (43_transfer_sequencer.md R163 to R168). -/
theorem handSignal_fault {g : Signal} {s t : State} (h : handSignal g s = .next t) : t.fault = s.fault := by
  rcases handSignal_next h with ⟨-, rfl⟩ | ⟨-, ⟨-, -, hsend⟩ | ⟨-, -, rfl⟩ | ⟨-, -, hsend⟩ | ⟨-, -, -, rfl⟩ | ⟨_, -, rfl⟩⟩
  · rfl
  · exact (send_fault hsend :)
  · rfl
  · exact send_fault hsend
  · rfl
  · rfl

/-- The acts of the TX pacer leave `fault` (41_transport_encoder.md R112, R113). -/
theorem pacerWrite_fault {j d : Nat} {s t : State} (h : pacerWrite j d s = .next t) : t.fault = s.fault := by
  obtain ⟨-, -, -, rfl⟩ := pacerWrite_next h
  rfl

theorem pacerFail_fault {j d : Nat} {s t : State} (h : pacerFail j d s = .next t) : t.fault = s.fault := by
  obtain ⟨-, -, -, rfl⟩ := pacerFail_next h
  rfl

/-- `START` writes `fault` only where it finds an empty payload (R211), and then keeps `L <- 0` (R212). -/
theorem execSeqStart_fault_changed {s t : State} (h : execSeqStart s = .next t) (ht : t.fault ≠ s.fault) :
    s.fault = .none ∧ s.st = .idle ∧ s.cfgLen = 0 ∧ t = { s with L := 0, fault := .emptyPayload } := by
  obtain ⟨hidle, hnone, ⟨hlen, rfl⟩ | ⟨-, hsend⟩⟩ := execSeqStart_next h
  · exact ⟨hnone, hidle, hlen, rfl⟩
  · have hkeep : t.fault = s.fault := by simpa using send_fault hsend
    exact absurd hkeep ht

/-- Of all a step can do (`step_cases`), only `reset` and `START` with an empty payload write `fault`. -/
theorem step_fault_changed {s t : State} (hstep : step s = .next t) (ht : t.fault ≠ s.fault) :
    (s.nextEvent = some .reset ∧ t.fault = .none) ∨
    (s.nextEvent = some .start ∧ s.fault = .none ∧ s.st = .idle ∧ s.cfgLen = 0 ∧
      t.block = { s.block with L := 0, fault := .emptyPayload }) := by
  obtain ⟨rest, -, hcases⟩ := step_cases hstep
  rcases hcases with ⟨he, rfl⟩ | ⟨_, -, -, rfl⟩ | ⟨he, hstart⟩ | ⟨-, -, -, rfl⟩ | ⟨_, -, -, -, rfl⟩ |
    ⟨_, -, -, -, hsignal⟩ | ⟨-, _, _, ⟨-, hwrite⟩ | ⟨-, hfail⟩⟩ | ⟨-, rfl | ⟨_, rfl⟩ | ⟨_, -, rfl⟩⟩
  · exact Or.inl ⟨he, rfl⟩
  · exact absurd rfl ht
  · obtain ⟨hnone, hidle, hlen, rfl⟩ := execSeqStart_fault_changed hstart ht
    exact Or.inr ⟨he, hnone, hidle, hlen, rfl⟩
  · exact absurd rfl ht
  · exact absurd rfl ht
  · exact absurd (handSignal_fault hsignal) ht
  · exact absurd (pacerWrite_fault hwrite) ht
  · exact absurd (pacerFail_fault hfail) ht
  · exact absurd rfl ht
  · exact absurd rfl ht
  · exact absurd rfl ht

/-- A faulted block is not waiting, so no byte reaches the classifier (42_ack_classifier.md R142). -/
theorem not_waiting_of_faulted {s : State} (hf : s.fault ≠ .none) : ¬ s.waiting = true := fun hw =>
  hf ((waiting_iff s).mp hw).2

/-- A faulted block takes an event other than `reset` and stays as it was (R212). -/
theorem step_faulted_block {s t : State} {e : BlockEvent} (hstep : step s = .next t) (hf : s.fault ≠ .none)
    (he : s.nextEvent = some e) (hne : e ≠ .reset) : t.block = s.block := by
  obtain ⟨rest, -, hcases⟩ := step_cases hstep
  rcases hcases with ⟨hreset, -⟩ | ⟨_, -, -, rfl⟩ | ⟨-, hstart⟩ | ⟨-, hnone, -⟩ | ⟨_, -, hw, -⟩ | ⟨_, -, hw, -⟩ |
    ⟨hno, -⟩ | ⟨hno, -⟩
  · exact absurd (Option.some.inj (he.symm.trans hreset)) hne
  · rfl
  · obtain ⟨-, hnone, -⟩ := execSeqStart_next hstart
    exact absurd hnone hf
  · exact absurd hnone hf
  · exact absurd hw (not_waiting_of_faulted hf)
  · exact absurd hw (not_waiting_of_faulted hf)
  · exact nomatch he.symm.trans hno
  · exact nomatch he.symm.trans hno

/-- Settles O51: `reset` and `START` are all that writes `fault` (`step_fault_changed`), and a faulted block ignores
everything but `reset` (`step_faulted_block`). -/
theorem faultIsStickyUntilReset : Obligations.FaultIsStickyUntilReset :=
  ⟨fun _ _ => step_fault_changed, rfl, fun _ _ hstep hf _ he hne => step_faulted_block hstep hf he hne⟩

/-! ## The failed write (R216) -/

/-- Settles O52: the two outcomes are the branches of `WRERR`. -/
theorem writeErrorIsOnlyLogged : Obligations.WriteErrorIsOnlyLogged := by
  intro s
  change (_ → _ → execWrErr s = .next (emit (.log .wrErr) s)) ∧ (_ → execWrErr s = _)
  refine ⟨fun hnone hst => if_pos ⟨hnone, hst⟩, fun hignored => if_neg fun ⟨hnone, hst⟩ => ?ignored⟩
  case ignored => exact hignored.elim (absurd hnone) (absurd · hst)

end Sys2Proof.Machine
end

section
/-! Reset (70_reset_and_hazards.md R250). -/

namespace Sys2Proof.Machine

theorem resetBlock_max_lt (s : State) : (resetBlock s).max < 2 ^ s.cfg.idxW := by
  rw [resetBlock_max]
  exact Nat.mod_lt _ (Nat.two_pow_pos _)

theorem resetBlock_L_lt (s : State) : (resetBlock s).L < 2 ^ (s.cfg.addrW + 1) := by
  rw [resetBlock_L]
  exact Nat.mod_lt _ (Nat.two_pow_pos _)

theorem resetBlock_FB_length (s : State) : (resetBlock s).FB.length = s.cfg.n + 1 := by
  rw [resetBlock_FB, List.length_map, List.length_range]

/-- Settles O55: the values of the four unspecified registers are those `resetBlock` draws, and they fit their widths; that
nothing else changes is the definition of `resetBlock`. -/
theorem resetReturnsTheBlock : Obligations.ResetReturnsTheBlock := fun s =>
  ⟨(resetBlock s).max, (resetBlock s).L, (resetBlock s).FB, (resetBlock s).acc,
    resetBlock_max_lt s, resetBlock_L_lt s, resetBlock_FB_length s, rfl⟩

end Sys2Proof.Machine
end

section
/-! A selector gives its operation back (30_encoding.md R63, R64, R76). -/

namespace Sys2Proof.Machine

open Sys2Proof.Laws

/-- Settles O1: the round trip holds of each operation, by the lemma of `Laws.RoundTrip` for its constructor. -/
theorem selectorRoundTrip : Obligations.SelectorRoundTrip := by
  intro i
  cases i with
  | chunk k => exact RoundTrip.chunk k
  | pad l => exact RoundTrip.pad l
  | cksum p => exact RoundTrip.cksum p
  | frame l => exact RoundTrip.frame l
  | b64 f => exact RoundTrip.b64 f
  | tx a => exact RoundTrip.tx a
  | lineSplit bs => exact RoundTrip.lineSplit bs
  | trim l => exact RoundTrip.trim l
  | ackK => exact RoundTrip.ackK
  | ackF => exact RoundTrip.ackF
  | lineDiag t => exact RoundTrip.lineDiag t
  | rxbDelim => exact RoundTrip.rxbDelim
  | rxbWs b => exact RoundTrip.rxbWs b
  | rxbK => exact RoundTrip.rxbK
  | rxbF => exact RoundTrip.rxbF
  | rxbOther b => exact RoundTrip.rxbOther b
  | seqStart => exact RoundTrip.seqStart
  | seqSend r => exact RoundTrip.seqSend r
  | seqAdvance => exact RoundTrip.seqAdvance
  | seqFinish => exact RoundTrip.seqFinish
  | seqRetry => exact RoundTrip.seqRetry
  | seqNak0 => exact RoundTrip.seqNak0
  | seqDiag t => exact RoundTrip.seqDiag t
  | seqIgnore => exact RoundTrip.seqIgnore
  | curGet => exact RoundTrip.curGet
  | curInc => exact RoundTrip.curInc
  | wrErr => exact RoundTrip.wrErr
  | reset => exact RoundTrip.reset

end Sys2Proof.Machine
end

section
/-! The invariant of 10_state.md R24: right after reset, and over every step. -/

namespace Sys2Proof.Machine

/-! ## What `START` latches (43_transfer_sequencer.md R161) -/

/-- `START` writes `L`, `max` and the model's counter, to a legal length and a last index that fits it; which ones, the
parameters, `cfg_len` and the counter say. -/
theorem latch_eq {s : State} (hn : 1 ≤ s.cfg.n) (hlen : s.cfgLen ≠ 0) :
    ∃ l m k, 1 ≤ l ∧ l ≤ 2 ^ s.cfg.addrW ∧ MaxFits s.cfg l m ∧ m < 2 ^ s.cfg.idxW ∧
      (s.cfgLen ≤ 2 ^ s.cfg.addrW → l = s.cfgLen) ∧
      ∀ u : State, u.cfg = s.cfg → u.cfgLen = s.cfgLen → u.fresh = s.fresh →
        latchMax (latchLen u) = { u with L := l, max := m, fresh := k } := by
  obtain ⟨hle, hzero⟩ := latchLen_L s
  have hpos : 1 ≤ (latchLen s).L := Nat.one_le_iff_ne_zero.mpr (mt hzero.mp hlen)
  obtain ⟨hfits, hmax⟩ := latchMax_fits hpos (by simpa using hn)
  rw [latchLen_cfg] at hfits hmax
  refine ⟨_, _, (latchMax (latchLen s)).fresh, hpos, hle, hfits, hmax, fun h => by rw [latchLen_of_le h],
    fun u hcfg hlevel hfresh => ?_⟩
  simp only [latchMax, latchLen, hcfg, hlevel, hfresh]
  split <;> split <;> rfl

/-! ## Lengths -/

theorem chunkLen_le (n l i : Nat) : chunkLen n l i ≤ n := Nat.min_le_left _ _

@[simp] theorem frameBytes_length {n : Nat} {c : List Byte} (h : c.length ≤ n) : (frameBytes n c).length = n + 1 := by
  rw [frameBytes, List.length_append, padBytes_length h, List.length_singleton]

theorem length_appendLbuf_le {c : Config} {lbuf : List Byte} {m : Nat} (b : Byte) (hm : c.lineMax = some m)
    (h : lbuf.length ≤ m) : (appendLbuf c lbuf b).length ≤ m := by
  rw [appendLbuf_finite hm]
  split
  · rw [List.length_append, List.length_singleton]; omega
  · exact h

/-! ## What each write of the state keeps of the invariant -/

/-- The invariant does not speak of the inputs, the port `cfg_len`, the events emitted, the sink and `fresh`. -/
theorem Inv.frame {s : State} (h : Inv s) (inputs : List Input) (cfgLen : Nat) (out : List Output) (sink : List Byte)
    (fresh : Nat) :
    Inv { s with inputs := inputs, cfgLen := cfgLen, out := out, sink := sink, fresh := fresh } :=
  ⟨h.cfgWf, h.notSending, h.session, h.idleClear, h.doneClear, h.faultIdle, h.exitValid, h.maxWidth, h.lenWidth,
    h.frameWidth, h.lineWidth, h.memWf, h.memRange, h.backlogOpen⟩

theorem Inv.withInputs {s : State} (h : Inv s) (rest : List Input) : Inv { s with inputs := rest } :=
  h.frame rest s.cfgLen s.out s.sink s.fresh

theorem Inv.withOut {s : State} (h : Inv s) (out : List Output) : Inv { s with out := out } :=
  h.frame s.inputs s.cfgLen out s.sink s.fresh

theorem Inv.withBacklog {s : State} (h : Inv s) {backlog : List (List Byte)} (hb : [] ∉ backlog) :
    Inv { s with backlog := backlog } :=
  { h with backlogOpen := hb }

/-- The host's load leaves the canonical form and addresses in range (20_memory.md R40, R47). -/
theorem Inv.withLoad {s : State} (h : Inv s) {bs : List Byte} (hlen : bs.length ≤ 2 ^ s.cfg.addrW) :
    Inv { s with mem := Memory.load bs } := by
  refine { h with memWf := load_wf bs, memRange := fun a b hread => ?_ }
  rw [read_load] at hread
  obtain ⟨ha, -⟩ := List.getElem?_eq_some_iff.mp hread
  exact ha.trans_le hlen

/-- In a waiting block `cls` may be any class, and `lbuf` any bytes up to `LINE_MAX`. -/
theorem Inv.withLine {s : State} (h : Inv s) (hw : s.st = .await) (cls : Cls) {lbuf : List Byte}
    (hl : ∀ m, s.cfg.lineMax = some m → lbuf.length ≤ m) : Inv { s with cls := cls, lbuf := lbuf } :=
  { h with
    idleClear := fun hidle => absurd (hw.symm.trans hidle) (by decide)
    doneClear := fun hdone => absurd (hw.symm.trans hdone) (by decide)
    lineWidth := hl }

theorem Inv.of_resetBlock {s : State} (h : Inv s) : Inv (resetBlock s) where
  cfgWf := h.cfgWf
  notSending := nofun
  session hne := absurd rfl hne
  idleClear _ := ⟨rfl, rfl, rfl⟩
  doneClear := nofun
  faultIdle _ := rfl
  exitValid := rfl
  maxWidth := resetBlock_max_lt s
  lenWidth := resetBlock_L_lt s
  frameWidth := resetBlock_FB_length s
  lineWidth _ _ := Nat.zero_le _
  memWf := h.memWf
  memRange := h.memRange
  backlogOpen := h.backlogOpen

/-- `START` with an empty payload (60_exceptions.md R212). -/
theorem Inv.of_emptyPayload {s : State} (h : Inv s) (hs : s.st = .idle) :
    Inv { s with L := 0, fault := .emptyPayload } :=
  { h with
    session := absurd hs
    faultIdle := fun _ => hs
    lenWidth := Nat.two_pow_pos _ }

/-- A send at an index of a chunk, with session registers that fit each other, from a block that is not closed. -/
theorem Inv.of_afterSend {s : State} (h : Inv s) (r : Bool) {l m i k : Nat} (hdone : s.st ≠ .done) (hf : s.fault = .none)
    (hl : 1 ≤ l) (hl' : l ≤ 2 ^ s.cfg.addrW) (hm : MaxFits s.cfg l m) (hm' : m < 2 ^ s.cfg.idxW) (hi : i ≤ m) :
    Inv (afterSend r { s with L := l, max := m, idx := i, fresh := k }) where
  cfgWf := h.cfgWf
  notSending := nofun
  session _ := ⟨hl, hl', hm, hi⟩
  idleClear := nofun
  doneClear := nofun
  faultIdle hne := absurd hf hne
  exitValid := h.exitValid.trans (if_neg hdone)
  maxWidth := hm'
  lenWidth := hl'.trans_lt (Nat.pow_lt_pow_right Nat.one_lt_two (Nat.lt_succ_self _))
  frameWidth := frameBytes_length (by rw [chunkBytes_length]; exact chunkLen_le _ _ _)
  lineWidth := h.lineWidth
  memWf := h.memWf
  memRange := h.memRange
  backlogOpen hmem := by
    rcases List.mem_append.mp hmem with hmem | hmem
    · exact h.backlogOpen hmem
    · exact b64Chars_ne_nil (frameBytes_ne_nil _ _) (List.mem_singleton.mp hmem).symm

/-- `finish()` in a waiting block with the line off (43_transfer_sequencer.md R172). -/
theorem Inv.of_afterFinish {s : State} (h : Inv s) (hw : s.st = .await) (hf : s.fault = .none) (hcls : s.cls = .E)
    (hline : s.lbuf = []) : Inv (afterFinish s) :=
  { h with
    notSending := nofun
    session := fun _ => h.session (by simp [hw])
    idleClear := nofun
    doneClear := fun _ => ⟨hcls, hline⟩
    faultIdle := fun hne => absurd hf hne
    exitValid := rfl }

/-! ## The operations that write more than one register -/

/-- The sequencer's reaction to a signal, with the line off. -/
theorem Inv.of_handSignal {s t : State} {g : Signal} (h : Inv s) (hcls : s.cls = .E) (hline : s.lbuf = [])
    (hg : handSignal g s = .next t) : Inv t := by
  rcases handSignal_next hg with ⟨-, rfl⟩ | ⟨hw, hcases⟩
  · exact h
  obtain ⟨hst, hf⟩ := (waiting_iff s).mp hw
  obtain ⟨hl, hl', hfits, hidx⟩ := h.session (by simp [hst])
  rcases hcases with ⟨-, hlt, hsend⟩ | ⟨-, -, rfl⟩ | ⟨-, -, hsend⟩ | ⟨-, -, -, rfl⟩ | ⟨_, -, rfl⟩
  · obtain ⟨-, -, -, rfl⟩ := send_next hsend
    exact h.of_afterSend false (by simp [hst]) hf hl hl' hfits h.maxWidth hlt
  · exact h.of_afterFinish hst hf hcls hline
  · obtain ⟨-, -, -, rfl⟩ := send_next hsend
    exact h.of_afterSend true (by simp [hst]) hf hl hl' hfits h.maxWidth hidx
  · exact h.of_afterFinish hst hf hcls hline
  · exact h.withOut _

theorem Inv.of_execSeqStart {s t : State} (h : Inv s) (hstart : execSeqStart s = .next t) : Inv t := by
  obtain ⟨hst, hf, ⟨-, rfl⟩ | ⟨hlen, hsend⟩⟩ := execSeqStart_next hstart
  · exact h.of_emptyPayload hst
  · obtain ⟨hn, -⟩ := h.cfgWf
    obtain ⟨l, m, k, hl, hl', hfits, hm, -, hlatch⟩ := latch_eq hn hlen
    rw [hlatch s rfl rfl rfl] at hsend
    obtain ⟨-, -, -, rfl⟩ := send_next hsend
    exact h.of_afterSend false (by simp [hst]) hf hl hl' hfits hm (Nat.zero_le m)

theorem Inv.of_pacerWrite {s t : State} {j d : Nat} (h : Inv s) (hp : pacerWrite j d s = .next t) : Inv t := by
  obtain ⟨ch, rest, -, rfl⟩ := pacerWrite_next hp
  exact (h.withBacklog (advanceJob_open h.backlogOpen)).frame _ s.cfgLen s.out _ s.fresh

theorem Inv.of_pacerFail {s t : State} {j d : Nat} (h : Inv s) (hp : pacerFail j d s = .next t) : Inv t := by
  obtain ⟨ch, rest, -, rfl⟩ := pacerFail_next hp
  exact (h.withBacklog (advanceJob_open h.backlogOpen)).withInputs _

/-- Settles O59: each case of `step_cases` is an operation that keeps the invariant, by its lemma above. -/
theorem stepKeepsInv : Obligations.StepKeepsInv := by
  intro s t h hstep
  obtain ⟨rest, -, hcases⟩ := step_cases hstep
  have hu := h.withInputs rest
  rcases hcases with ⟨-, rfl⟩ | ⟨_, -, -, rfl⟩ | ⟨-, hstart⟩ | ⟨-, -, -, rfl⟩ | ⟨b, -, hw, -, rfl⟩ |
    ⟨b, -, hw, -, hsignal⟩ | ⟨-, _, _, ⟨-, hwrite⟩ | ⟨-, hfail⟩⟩ | ⟨-, rfl | ⟨l, rfl⟩ | ⟨bs, hbs, rfl⟩⟩
  · exact hu.of_resetBlock
  · exact hu
  · exact hu.of_execSeqStart hstart
  · exact hu.withOut _
  · obtain ⟨hst, -⟩ := (waiting_iff s).mp hw
    exact hu.withLine hst _ fun m hm => length_appendLbuf_le b hm (h.lineWidth m hm)
  · obtain ⟨hst, -⟩ := (waiting_iff s).mp hw
    have hclear : Inv (clearLine { s with inputs := rest }) := hu.withLine hst .E fun _ _ => Nat.zero_le _
    exact hclear.of_handSignal rfl rfl hsignal
  · exact hu.of_pacerWrite hwrite
  · exact hu.of_pacerFail hfail
  · exact hu
  · exact h.frame rest l s.out s.sink s.fresh
  · exact hu.withLoad hbs

/-- Settles O58: `afterReset` writes each register the invariant speaks of. -/
theorem invHoldsAfterReset : Obligations.InvHoldsAfterReset := fun _ hwf => {
  cfgWf := hwf
  notSending := nofun
  session := absurd rfl
  idleClear := fun _ => ⟨rfl, rfl, rfl⟩
  doneClear := nofun
  faultIdle := fun _ => rfl
  exitValid := rfl
  maxWidth := Nat.two_pow_pos _
  lenWidth := Nat.two_pow_pos _
  frameWidth := List.length_replicate
  lineWidth := fun _ _ => Nat.zero_le _
  memWf := List.Pairwise.nil
  memRange := nofun
  backlogOpen := List.not_mem_nil }

end Sys2Proof.Machine
end

section
/-! Trimming (42_ack_classifier.md R131): what comes off, and what stays. -/

namespace Sys2Proof.Machine

/-- The line is whitespace, the trimmed line, whitespace. -/
theorem trimBytes_decomp (c : Config) (l : List Byte) : ∃ front back : List Byte,
    l = front ++ trimBytes c l ++ back ∧ (∀ b ∈ front, b ∈ c.ws) ∧ (∀ b ∈ back, b ∈ c.ws) ∧
    l.dropWhile (isWs c) = trimBytes c l ++ back := by
  have hws {b : Byte} (h : isWs c b = true) : b ∈ c.ws := by simpa [isWs] using h
  have hrest : l.dropWhile (isWs c) = trimBytes c l ++ (l.dropWhile (isWs c)).rtakeWhile (isWs c) :=
    List.rdropWhile_append_rtakeWhile.symm
  refine ⟨l.takeWhile (isWs c), _, ?_, fun b hb => hws (List.mem_takeWhile_imp hb),
    fun b hb => hws (List.mem_rtakeWhile_imp hb), hrest⟩
  rw [List.append_assoc, ← hrest, List.takeWhile_append_dropWhile]

theorem head?_trimBytes {c : Config} {l : List Byte} {b : Byte} (hb : b ∈ (trimBytes c l).head?) : b ∉ c.ws := by
  obtain ⟨-, back, -, -, -, hrest⟩ := trimBytes_decomp c l
  have hhead : (l.dropWhile (isWs c)).head? = some b := by
    rw [hrest, List.head?_append, Option.mem_def.mp hb, Option.some_or]
  have hfirst := List.head?_dropWhile_not (isWs c) l
  rw [hhead] at hfirst
  simpa [isWs] using hfirst

theorem getLast?_trimBytes {c : Config} {l : List Byte} {b : Byte} (hb : b ∈ (trimBytes c l).getLast?) : b ∉ c.ws := by
  obtain ⟨hne, rfl⟩ := List.mem_getLast?_eq_getLast hb
  have hlast := List.rdropWhile_last_not (isWs c) (l.dropWhile (isWs c)) hne
  simpa [isWs, trimBytes, List.rdropWhile] using hlast

theorem mem_of_mem_trimBytes {c : Config} {l : List Byte} {b : Byte} (hb : b ∈ trimBytes c l) : b ∈ l := by
  obtain ⟨front, back, hl, -⟩ := trimBytes_decomp c l
  rw [hl]
  exact List.mem_append_left _ (List.mem_append_right _ hb)

/-- Settles O27: `TRIM` answers `trimBytes`, which leaves whitespace at both ends of the line (`trimBytes_decomp`), and none
at its own (`head?_trimBytes`, `getLast?_trimBytes`). -/
theorem trimRemovesSurroundingWhitespace : Obligations.TrimRemovesSurroundingWhitespace := by
  intro s l
  obtain ⟨front, back, hl, hfront, hback, -⟩ := trimBytes_decomp s.cfg l
  exact ⟨front, trimBytes s.cfg l, back, rfl, hl, hfront, hback, fun _ => head?_trimBytes, fun _ => getLast?_trimBytes⟩

end Sys2Proof.Machine
end

section
/-! What the decoder selects (30_encoding.md R63, R64, R76), and the step over it (43_transfer_sequencer.md R160, R171). -/

namespace Sys2Proof.Machine

/-! ## Bytes and lines -/

/-- Settles O3: the rows in their order are the conditions of `byteClass_eq` in theirs. -/
theorem byteClassIsFirstMatchingRow : Obligations.ByteClassIsFirstMatchingRow := by
  intro c b
  refine ⟨fun hd => (byteClass_delim_iff c b).mpr hd, fun hd hw => byteClass_ws hw hd, fun hd hw hk => ?k,
    fun hd hw hk hf => ?f, fun hd hw hk hf => byteClass_other hd hw hk hf⟩
  case k => rw [byteClass_eq, if_neg hd, if_neg hw, if_pos hk]
  case f => rw [byteClass_eq, if_neg hd, if_neg hw, if_neg hk, if_pos hf]

theorem isTrimmedLine_trimBytes {c : Config} {line : List Byte} (hline : c.delim ∉ line) :
    isTrimmedLine c (trimBytes c line) = true := by
  simp only [isTrimmedLine, Bool.and_eq_true, Bool.not_eq_true', Option.any_eq_false, List.contains_eq_mem,
    decide_eq_false_iff_not]
  exact ⟨⟨fun _ => head?_trimBytes, fun _ => getLast?_trimBytes⟩, fun hmem => hline (mem_of_mem_trimBytes hmem)⟩

/-- Settles O4: the trimmed line holds no delimiter and has no whitespace at an end, so the decoder gets to its comparisons,
which are those of `classifyLine`. -/
theorem trimmedLineSelectsItsVerdict : Obligations.TrimmedLineSelectsItsVerdict := by
  intro c line hline
  have hdelim : c.delim ∉ trimBytes c line := fun hmem => hline (mem_of_mem_trimBytes hmem)
  have htrim := isTrimmedLine_trimBytes hline
  have hcompare : decode c (.line (trimBytes c line)) =
      if trimBytes c line = [c.ackOk] then .ok .ackK
      else if trimBytes c line = [c.ackFail] then .ok .ackF
      else .ok (.lineDiag (trimBytes c line)) := by
    simp [decode, decodeLine, hdelim, htrim]
  rw [hcompare, classifyLine]
  split_ifs <;> rfl

/-- Settles O2: the decoder evaluates each of the words. -/
theorem specWordsDecode : Obligations.SpecWordsDecode :=
  ⟨rfl, rfl, rfl, rfl, rfl, rfl, rfl, rfl, rfl, rfl, rfl, rfl, rfl, rfl, rfl, rfl, rfl⟩

/-! ## The transition table (R171) -/

/-- A block that is not faulted takes an event other than `reset` by its cell of the table. -/
theorem decodeSeq_notFaulted (c : Config) {v : SeqView} {e : BlockEvent} (hv : v.faulted = false) (he : e ≠ .reset) :
    decodeSeq c v (.input e) = decodeTableCell c v.st e := by
  cases e with
  | reset => exact absurd rfl he
  | start | rxByte | wrErr | txDone => exact if_neg (by simp [hv])

/-- The view of a waiting block, in which the signals have their columns. -/
theorem awaitView_of_waiting {v : SeqView} (hv : v.faulted = false) (hs : v.st = .await) :
    awaitView v.cursor v.idxZero = v := by
  rw [awaitView, ← hv, ← hs]

/-- Settles O5: a faulted block ignores (`decodeSeq_faulted`); any other takes an event by its cell
(`decodeSeq_notFaulted`), and a signal, where it waits, by the signal's column. -/
theorem transitionTable : Obligations.TransitionTable := by
  intro c v
  refine ⟨rfl, fun hv => ⟨fun e he => decodeSeq_faulted c hv he, fun g => ?signal⟩, fun hv hs => ?idle,
    fun hv hs => ?await, fun hv hs e he => ?done⟩
  case signal => simp [decodeSeq, reaction, hv, Except.map, Reaction.instr]
  case idle =>
    have hcell {e : BlockEvent} (he : e ≠ .reset) : decodeSeq c v (.input e) = decodeTableCell c .idle e :=
      hs ▸ decodeSeq_notFaulted c hv he
    exact ⟨hcell nofun, fun b => hcell nofun, hcell nofun, hcell nofun⟩
  case await =>
    have hcell {e : BlockEvent} (he : e ≠ .reset) : decodeSeq c v (.input e) = decodeTableCell c .await e :=
      hs ▸ decodeSeq_notFaulted c hv he
    have hreact (g : Signal) : decodeSeq c v (.signal g) =
        (reaction c (awaitView v.cursor v.idxZero) g).map Reaction.instr := by
      rw [awaitView_of_waiting hv hs, decodeSeq]
    refine ⟨hcell nofun, fun b => hcell nofun, fun hb => ?_, fun ha => ?_, fun hr => ?_, fun hz hr => ?_, fun t => hreact _,
      hcell nofun, hcell nofun⟩
    · rw [hreact, hb]; rfl
    · rw [hreact, ha]; rfl
    · rw [hreact]
      rcases hr with hr | hr <;> simp [reaction, awaitView, hr, Except.map, Reaction.instr]
    · simp [hreact, reaction, awaitView, hz, hr, Except.map, Reaction.instr]
  case done => rw [decodeSeq_notFaulted c hv he, hs, decodeTableCell_done c he]

/-! ## The step (R160) -/

/-- Where the event selects no operation the step is refused by the decoder's name for it (log 24). -/
theorem step_event_rejected {s : State} {e : BlockEvent} {rest : List Input} {d : DecodeError}
    (hin : s.inputs = .event e :: rest) (hsel : decodeSeq s.cfg s.view (.input e) = .error d) :
    step s = .refused (.rejected d) := by
  simp [step, fetch, hin, deliver, decode, hsel]

theorem step_len {s : State} {l : Nat} {rest : List Input} (hin : s.inputs = .len l :: rest) :
    step s = .next { s with cfgLen := l, inputs := rest } := by
  simp [step, fetch, hin]

theorem step_noInput {s : State} (hin : s.inputs = []) : step s = .refused .noEventPending := by
  simp [step, fetch, hin]

/-- Settles O7: one step lemma for each kind of input. -/
theorem stepRunsSelectedOperation : Obligations.StepRunsSelectedOperation := fun _ _ =>
  ⟨fun _ _ hin hsel => step_event hin hsel, fun _ _ hin hsel => step_event_rejected hin hsel,
    fun _ _ hin => step_pacerWrite hin, fun _ _ hin => step_pacerFail hin, fun _ hin => step_len hin, step_noInput⟩

/-! ## Events of one instant (60_exceptions.md R215) -/

theorem serialise_reset {x : Together} (h : x.reset = true) : serialise x = [.reset] := if_pos h

/-- Without `reset`, the events present, in the order of R215. -/
theorem serialise_noReset {x : Together} (h : x.reset = false) :
    serialise x = (if x.start then [.start] else []) ++ (if x.wrErr then [.wrErr] else []) ++
      (x.rxByte.map BlockEvent.rxByte).toList ++ (if x.txDone then [.txDone] else []) := by
  cases hb : x.rxByte <;> simp [serialise, h, hb]

/-- The step takes the first event and leaves the others in front, as if they had come one by one. -/
theorem step_together {s : State} {x : Together} {rest : List Input} (hin : s.inputs = .together x :: rest)
    (hx : serialise x ≠ []) : step s = step { s with inputs := (serialise x).map .event ++ rest } := by
  obtain ⟨e, es, hes⟩ := List.exists_cons_of_ne_nil hx
  simp only [step, fetch, hin, hes]
  rfl

/-- Settles O8: without `reset` the events present stand in the order (`serialise_noReset`), each kept or dropped by
itself. -/
theorem simultaneousEventsAreSerialised : Obligations.SimultaneousEventsAreSerialised := by
  refine ⟨fun x => serialise_reset, fun x b hr hs hw hb ht => ?all, fun x hr => ?some,
    fun s x rest hin hx => step_together hin hx⟩
  case all => simp [serialise_noReset hr, hs, hw, hb, ht]
  case some =>
    rw [serialise_noReset hr, serialise_noReset (by exact hr)]
    simp only [if_true, Option.map_some, Option.toList_some, List.filter_append, List.filter_singleton,
      Bool.cond_eq_ite]
    cases hb : x.rxByte <;> simp

end Sys2Proof.Machine
end

section
/-! The payload memory (20_memory.md R40, R47) and the chunks of a payload (40_frame_composer.md R94, R95). -/

namespace Sys2Proof.Machine

/-! ## No operation writes the memory -/

/-- An operation with a guard answers only where the guard holds (30_encoding.md R76). -/
theorem guarded_next {p : Prop} [Decidable p] {m : Run State} {r : Refusal} {t : State}
    (h : (if p then m else .refused r) = .next t) : p ∧ m = .next t := by
  split at h
  · exact ⟨‹p›, h⟩
  · cases h

theorem send_mem {r : Bool} {s t : State} (h : send r s = .next t) : t.mem = s.mem := by
  obtain ⟨-, -, -, rfl⟩ := send_next h
  rfl

/-- The sequencer writes neither the memory nor the registers of the classifier. -/
theorem handSignal_keeps {g : Signal} {s t : State} (h : handSignal g s = .next t) :
    t.mem = s.mem ∧ t.cls = s.cls ∧ t.lbuf = s.lbuf := by
  rcases handSignal_next h with ⟨-, rfl⟩ | ⟨-, ⟨-, -, hsend⟩ | ⟨-, -, rfl⟩ | ⟨-, -, hsend⟩ | ⟨-, -, -, rfl⟩ | ⟨_, -, rfl⟩⟩
  · exact ⟨rfl, rfl, rfl⟩
  · obtain ⟨-, -, -, rfl⟩ := send_next hsend
    exact ⟨rfl, rfl, rfl⟩
  · exact ⟨rfl, rfl, rfl⟩
  · obtain ⟨-, -, -, rfl⟩ := send_next hsend
    exact ⟨rfl, rfl, rfl⟩
  · exact ⟨rfl, rfl, rfl⟩
  · exact ⟨rfl, rfl, rfl⟩

theorem execSeqStart_mem {s t : State} (h : execSeqStart s = .next t) : t.mem = s.mem := by
  obtain ⟨-, -, ⟨-, rfl⟩ | ⟨-, hsend⟩⟩ := execSeqStart_next h
  · rfl
  · simpa using send_mem hsend

/-- `CKSUM` writes `acc` alone (40_frame_composer.md R92). -/
theorem cksumRun_mem {p : List Byte} {s : State} {q : Byte × State} (h : cksumRun p s = .next q) : q.2.mem = s.mem := by
  unfold cksumRun at h
  split at h
  · cases h
  · split at h
    · rw [← Host.Outcome.next.inj h]
    · cases h

theorem frameRun_mem {l : List Byte} {s : State} {q : List Byte × State} (h : frameRun l s = .next q) :
    q.2.mem = s.mem := by
  obtain ⟨hn, hl⟩ := frameRun_next h
  rw [frameRun_eq hn hl] at h
  rw [← Host.Outcome.next.inj h]

/-- An act of the TX pacer leaves the block. -/
theorem execTx_block {a : TxAct} {s t : State} (h : execTx a s = .next t) : t.block = s.block := by
  cases a with
  | accept x =>
    rw [← Host.Outcome.next.inj h]
    rfl
  | write j d =>
    obtain ⟨-, -, -, rfl⟩ := pacerWrite_next h
    rfl
  | fail j d =>
    obtain ⟨-, -, -, rfl⟩ := pacerFail_next h
    rfl

theorem exec_mem {i : Instr} {s t : State} (h : exec i s = .next t) : t.mem = s.mem := by
  cases i with
  | chunk k | pad c =>
    obtain ⟨_, -, hv⟩ := bindRun_eq_next.mp h
    rw [← Host.Outcome.next.inj hv]
  | cksum p =>
    obtain ⟨q, hq, hv⟩ := bindRun_eq_next.mp h
    rw [← Host.Outcome.next.inj hv]
    exact cksumRun_mem hq
  | frame c =>
    obtain ⟨q, hq, hv⟩ := bindRun_eq_next.mp h
    rw [← Host.Outcome.next.inj hv]
    exact frameRun_mem hq
  | b64 | lineSplit | trim | curGet => rw [← Host.Outcome.next.inj h]
  | tx a => exact congrArg BlockPart.mem (execTx_block h)
  | ackK | ackF | lineDiag => exact (handSignal_keeps h).1
  | rxbDelim =>
    by_cases hw : s.waiting = true
    · exact (handSignal_keeps ((execRxbDelim_waiting hw).symm.trans h)).1
    · rw [← Host.Outcome.next.inj ((execRxbDelim_notWaiting hw).symm.trans h)]
  | rxbWs | rxbK | rxbF | rxbOther => rw [← Host.Outcome.next.inj h, takeByte_mem]
  | seqStart => exact execSeqStart_mem h
  | seqSend r => exact send_mem h
  | seqAdvance => simpa using send_mem (guarded_next h).2
  | seqFinish => simp [← Host.Outcome.next.inj (guarded_next h).2]
  | seqRetry => exact send_mem (guarded_next h).2
  | seqNak0 => rw [← Host.Outcome.next.inj (guarded_next h).2, finish_mem]
  | seqDiag x => rw [← Host.Outcome.next.inj (guarded_next h).2, emit_mem]
  | seqIgnore => rw [← Host.Outcome.next.inj h]
  | curInc => simp [← Host.Outcome.next.inj h]
  | wrErr =>
    simp only [exec, execWrErr] at h
    split at h <;> rw [← Host.Outcome.next.inj h]
    exact emit_mem _ s
  | reset => rw [← Host.Outcome.next.inj h, resetBlock_mem]

/-- Settles O10: by its operation, an `exec` leaves the memory itself as it was (`exec_mem`). -/
theorem payloadMemoryIsNeverWritten : Obligations.PayloadMemoryIsNeverWritten := fun _ _ _ h a => by rw [exec_mem h]

/-- Settles O11: the load puts `Memory.load bs` in place, which reads back (`read_load`) and is canonical (`load_wf`). -/
theorem loadedPayloadReadsBack : Obligations.LoadedPayloadReadsBack := by
  intro s bs rest hin hlen
  refine ⟨{ s with mem := Memory.load bs, inputs := rest }, ?step, load_wf bs, read_load bs, rfl,
    fun a ha => if_neg (Nat.not_lt.mpr ha)⟩
  case step => simp [step, fetch, hin, hlen]

/-! ## Chunks -/

/-- The indices of the chunks are those whose first byte is one of the payload. -/
theorem lt_chunkCount_iff {n l i : Nat} (hn : 1 ≤ n) : i < chunkCount n l ↔ chunkBase n i < l := by
  unfold chunkCount chunkBase
  rw [Nat.lt_iff_add_one_le, Nat.le_div_iff_mul_le (by omega), Nat.add_mul]
  omega

/-- Every chunk with one after it is full. -/
theorem chunkLen_of_next {n l i : Nat} (hn : 1 ≤ n) (h : i + 1 < chunkCount n l) : chunkLen n l i = n := by
  have hbase := (lt_chunkCount_iff hn).mp h
  unfold chunkBase at hbase
  rw [Nat.add_mul] at hbase
  unfold chunkLen chunkBase
  omega

theorem chunkBytes_load {s : State} {bs : List Byte} (hm : s.mem = Memory.load bs) (i : Nat) :
    chunkBytes s bs.length i = (bs.drop (chunkBase s.cfg.n i)).take s.cfg.n := by
  apply List.ext_getElem
  · simp [chunkLen]
  · intro j h1 h2
    simp only [List.length_take, List.length_drop] at h2
    have hj : chunkBase s.cfg.n i + j < bs.length := by omega
    simp [chunkBytes, payloadByte, hm, read_load, hj]

/-- The first `k` pieces of `n` bytes are the first `k * n` bytes. -/
theorem flatMap_pieces (n : Nat) (bs : List Byte) (k : Nat) :
    (List.range k).flatMap (fun i => (bs.drop (chunkBase n i)).take n) = bs.take (chunkBase n k) := by
  induction k with
  | zero => simp [chunkBase]
  | succ k ih =>
    rw [List.range_succ, List.flatMap_append, ih, List.flatMap_singleton, ← List.take_add]
    simp [chunkBase, Nat.add_mul]

/-- Settles O19: each chunk is a piece of the payload (`chunkBytes_load`), the pieces join (`flatMap_pieces`), and the byte
after the last chunk is past the end (`lt_chunkCount_iff`). -/
theorem chunksCoverThePayload : Obligations.ChunksCoverThePayload := by
  intro s bs hn hm
  refine ⟨?join, fun i hi => ?full, fun i hi => ?some⟩
  case join =>
    have hend : bs.length ≤ chunkBase s.cfg.n (chunkCount s.cfg.n bs.length) :=
      Nat.not_lt.mp (mt (lt_chunkCount_iff hn).mpr (Nat.lt_irrefl _))
    rw [funext (chunkBytes_load hm), flatMap_pieces, List.take_of_length_le hend]
  case full => rw [chunkBytes_length, chunkLen_of_next hn hi]
  case some =>
    rw [chunkBytes_length]
    exact chunkLen_pos hn ((lt_chunkCount_iff hn).mp hi)

/-! ## The frame (30_encoding.md R61) and the composer's domain (40_frame_composer.md R97) -/

theorem frameBytes_getElem?_of_lt {n i : Nat} {c : List Byte} (hc : c.length ≤ n) (hi : i < n) :
    (frameBytes n c)[i]? = some (c.getD i 0) := by
  have hpad : i < (padBytes n c).length := by rwa [padBytes_length hc]
  rw [frameBytes, List.getElem?_append_left hpad, List.getElem?_eq_getElem hpad, padBytes_getElem]

theorem frameBytes_getD_last {n : Nat} {c : List Byte} (hc : c.length ≤ n) :
    (frameBytes n c).getD n 0 = cksumByte (padBytes n c) := by
  simp [frameBytes, padBytes_length hc]

/-- Settles O17: the bytes are those of the padded chunk and its checksum, whose bits are `cksumByte_getLsbD_of_byte` and
`cksumByte_getLsbD_of_length_le`. -/
theorem frameLayout : Obligations.FrameLayout := by
  intro n c _ hn8 _ hc
  have hpad := padBytes_length hc
  refine ⟨frameBytes_length hc, fun i hi => frameBytes_getElem?_of_lt hc hi, fun i hi => ?bit, fun j hj => ?high⟩
  case bit =>
    have hbit := cksumByte_getLsbD_of_byte (hpad.trans_le hn8) (hpad.symm ▸ hi : i < (padBytes n c).length)
    rwa [padBytes_getElem, hpad, ← frameBytes_getD_last hc] at hbit
  case high => rw [frameBytes_getD_last hc, cksumByte_getLsbD_of_length_le (hpad.trans_le hj)]

theorem inComposerDomain_badN {c : Config} (h : chunkSizeOk c = false) (l : List Byte) :
    inComposerDomain c l = .refused .badN := by
  simp [inComposerDomain, h]

theorem inComposerDomain_badLen {c : Config} {l : List Byte} (h : chunkSizeOk c = true)
    (hl : ¬ (1 ≤ l.length ∧ l.length ≤ c.n)) : inComposerDomain c l = .refused .badChunkLen := by
  rw [inComposerDomain, h, if_neg (by decide), if_neg hl]

/-- Settles O18: `PAD` and `FRAME` begin with the test of their domain, `CKSUM` and `CHUNK` with the same test of the chunk
size and one of their own. -/
theorem composerDomain : Obligations.ComposerDomain := by
  intro s c
  refine ⟨fun hn => ?badN, fun hn1 hn8 hc => ?badLen, fun hn1 hn8 i hi => ?badIndex⟩
  case badN =>
    have hsize : chunkSizeOk s.cfg = false := Bool.eq_false_iff.mpr fun h => by
      have := (chunkSizeOk_iff s.cfg).mp h
      omega
    have hdom := inComposerDomain_badN hsize c
    exact ⟨by simp [exec, execPad, padRun, hdom], by simp [exec, execCksum, cksumRun, hsize],
      by simp [exec, execFrame, frameRun, padRun, hdom]⟩
  case badLen =>
    have hsize : chunkSizeOk s.cfg = true := (chunkSizeOk_iff s.cfg).mpr ⟨hn1, hn8⟩
    have hdom := inComposerDomain_badLen (l := c) hsize (by omega)
    have hne : c.length ≠ s.cfg.n := by omega
    exact ⟨by simp [exec, execPad, padRun, hdom], by simp [exec, execCksum, cksumRun, hsize, hne],
      by simp [exec, execFrame, frameRun, padRun, hdom]⟩
  case badIndex =>
    have hsize : chunkSizeOk s.cfg = true := (chunkSizeOk_iff s.cfg).mpr ⟨hn1, hn8⟩
    simp [exec, execChunk, chunkAt, hsize, Nat.not_le.mpr hi]

end Sys2Proof.Machine
end

section
/-! What a step leaves, once for each way it can go, and what follows for the cursor, the session registers, the frames and
`tr_close` (10_state.md R13, R14, R23; 43_transfer_sequencer.md R170). -/

namespace Sys2Proof.Machine

/-! ## The events that a send and a finish emit -/

@[simp] theorem afterSend_txStream (r : Bool) (s : State) : (afterSend r s).txStream =
    s.txStream ++ [⟨s.idx, frameBytes s.cfg.n (chunkBytes s s.L s.idx), r⟩] := by
  simp [afterSend, State.txStream]

@[simp] theorem afterFinish_txStream (s : State) : (afterFinish s).txStream = s.txStream := by
  simp [afterFinish, State.txStream]

@[simp] theorem emit_log_txStream (e : LogEvent) (s : State) : (emit (.log e) s).txStream = s.txStream := by
  simp [State.txStream]

@[simp] theorem afterSend_closeCount (r : Bool) (s : State) : (afterSend r s).closeCount = s.closeCount := by
  simp [afterSend, State.closeCount]

@[simp] theorem afterFinish_closeCount (s : State) : (afterFinish s).closeCount = s.closeCount + 1 := by
  simp [afterFinish, State.closeCount]

@[simp] theorem emit_log_closeCount (e : LogEvent) (s : State) : (emit (.log e) s).closeCount = s.closeCount := by
  simp [State.closeCount]

/-! ## An inbound byte in a waiting block -/

theorem decodeSeq_rxByte_waiting {s : State} (hw : s.waiting = true) (b : Byte) :
    decodeSeq s.cfg s.view (.input (.rxByte b)) = .ok (decodeRxb s.cfg b) := by
  obtain ⟨hst, hf⟩ := (waiting_iff s).mp hw
  rw [decodeSeq_notFaulted s.cfg (e := .rxByte b) (by simp [hf]) nofun, view_st, hst, decodeTableCell]

/-- The delimiter in a waiting block hands over the signal of the line (42_ack_classifier.md R136). -/
theorem exec_decodeRxb_delim {s : State} {b : Byte} (hw : s.waiting = true) (hb : byteClass s.cfg b = .delim) :
    exec (decodeRxb s.cfg b) s = handSignal (lineSignal s.cfg s.cls s.lbuf) (clearLine s) :=
  (exec_decodeRxb b hw).trans (if_pos hb)

/-- Any other byte is taken into the line (42_ack_classifier.md R137 to R140). -/
theorem exec_decodeRxb_other {s : State} {b : Byte} (hw : s.waiting = true) (hb : byteClass s.cfg b ≠ .delim) :
    exec (decodeRxb s.cfg b) s =
      .next { s with cls := clsNext s.cls (byteClass s.cfg b), lbuf := appendLbuf s.cfg s.lbuf b } :=
  (exec_decodeRxb b hw).trans (if_neg hb)

/-! ## The ways a step can go -/

/-- What a step leaves, by what it took: `step_cases` with the sequencer's reactions carried out. -/
inductive StepEffect (s : State) (rest : List Input) : State → Prop where
  | reset (he : s.nextEvent = some .reset) : StepEffect s rest (resetBlock { s with inputs := rest })
  | ignored {e : BlockEvent} (he : s.nextEvent = some e) (hne : e ≠ .reset)
    (hb : s.waiting = true → ∀ b, e ≠ .rxByte b) : StepEffect s rest { s with inputs := rest }
  | noPayload (he : s.nextEvent = some .start) (hst : s.st = .idle) (hf : s.fault = .none) (hlen : s.cfgLen = 0) :
    StepEffect s rest { s with inputs := rest, L := 0, fault := .emptyPayload }
  | started {l m k : Nat} (he : s.nextEvent = some .start) (hst : s.st = .idle) (hf : s.fault = .none)
    (hl : l ≤ 2 ^ s.cfg.addrW) (hlegal : s.cfgLen ≤ 2 ^ s.cfg.addrW → l = s.cfgLen) :
    StepEffect s rest (afterSend false { s with inputs := rest, L := l, max := m, idx := 0, fresh := k })
  | writeError (he : s.nextEvent = some .wrErr) (hf : s.fault = .none) (hst : s.st = .idle ∨ s.st = .await) :
    StepEffect s rest (emit (.log .wrErr) { s with inputs := rest })
  | tookByte {b : Byte} (he : s.nextEvent = some (.rxByte b)) (hw : s.waiting = true)
    (hb : byteClass s.cfg b ≠ .delim) : StepEffect s rest { s with
      inputs := rest, cls := clsNext s.cls (byteClass s.cfg b), lbuf := appendLbuf s.cfg s.lbuf b }
  | advanced {b : Byte} (he : s.nextEvent = some (.rxByte b)) (hw : s.waiting = true)
    (hg : s.signalOf (.rxByte b) = some .success) (hidx : s.idx < s.max) :
    StepEffect s rest (afterSend false { s with inputs := rest, cls := .E, lbuf := [], idx := s.idx + 1 })
  | finished {b : Byte} {g : Signal} (he : s.nextEvent = some (.rxByte b)) (hw : s.waiting = true)
    (hg : s.signalOf (.rxByte b) = some g) (hack : Signal.isAck g = true) :
    StepEffect s rest (afterFinish { s with inputs := rest, cls := .E, lbuf := [] })
  | retried {b : Byte} (he : s.nextEvent = some (.rxByte b)) (hw : s.waiting = true)
    (hg : s.signalOf (.rxByte b) = some .failure) :
    StepEffect s rest (afterSend true { s with inputs := rest, cls := .E, lbuf := [] })
  | diagnosed {b : Byte} {x : List Byte} (he : s.nextEvent = some (.rxByte b)) (hw : s.waiting = true)
    (hg : s.signalOf (.rxByte b) = some (.diag x)) :
    StepEffect s rest (emit (.log (.diag x)) { s with inputs := rest, cls := .E, lbuf := [] })
  | wrote {j d : Nat} {ch : Byte} {r : List Byte} (he : s.nextEvent = none) : StepEffect s rest { s with
      sink := s.sink ++ [ch], backlog := advanceJob s.backlog j r
      inputs := if r = [] then report d .txDone rest else rest }
  | writeFailed {j d : Nat} {r : List Byte} (he : s.nextEvent = none) : StepEffect s rest { s with
      backlog := advanceJob s.backlog j r, inputs := report d .wrErr rest }
  | host {l : Nat} {m : Memory} (he : s.nextEvent = none) : StepEffect s rest { s with
      inputs := rest, cfgLen := l, mem := m }

theorem StepEffect.of_start {s t : State} {rest : List Input} (he : s.nextEvent = some .start)
    (h : execSeqStart { s with inputs := rest } = .next t) : StepEffect s rest t := by
  obtain ⟨hst, hf, ⟨hlen, rfl⟩ | ⟨hlen, hsend⟩⟩ := execSeqStart_next h
  · exact .noPayload he hst hf hlen
  · obtain ⟨⟨hn, -⟩, -⟩ := send_next hsend
    obtain ⟨l, m, k, -, hl, -, -, hlegal, hlatch⟩ := latch_eq (s := { s with inputs := rest }) (by simpa using hn) hlen
    rw [hlatch _ rfl rfl rfl] at hsend
    obtain ⟨-, -, -, rfl⟩ := send_next hsend
    exact .started he hst hf hl hlegal

theorem StepEffect.of_signal {s t : State} {rest : List Input} {b : Byte} (he : s.nextEvent = some (.rxByte b))
    (hw : s.waiting = true) (hb : byteClass s.cfg b = .delim)
    (h : handSignal (lineSignal s.cfg s.cls s.lbuf) (clearLine { s with inputs := rest }) = .next t) :
    StepEffect s rest t := by
  have hg := signalOf_delim hw hb
  rcases handSignal_next h with ⟨hf, -⟩ | ⟨-, ⟨hs, hidx, hsend⟩ | ⟨hs, -, rfl⟩ | ⟨hs, -, hsend⟩ | ⟨hs, -, -, rfl⟩ |
    ⟨x, hs, rfl⟩⟩
  · exact absurd hw (not_waiting_of_faulted hf)
  · obtain ⟨-, -, -, rfl⟩ := send_next hsend
    exact .advanced he hw (hs ▸ hg) hidx
  · exact .finished he hw (hs ▸ hg) rfl
  · obtain ⟨-, -, -, rfl⟩ := send_next hsend
    exact .retried he hw (hs ▸ hg)
  · exact .finished he hw (hs ▸ hg) rfl
  · exact .diagnosed he hw (hs ▸ hg)

/-- A waiting block ignores no inbound byte. -/
theorem step_effect_rxByte {s t : State} {b : Byte} (h : step s = .next t) (he : s.nextEvent = some (.rxByte b))
    (hw : s.waiting = true) : ∃ rest, s.Leaves rest ∧ StepEffect s rest t := by
  rcases step_next_cases h with ⟨i, u, hop, hexec⟩ | hhost
  · obtain ⟨rest, rfl, hleaves, ⟨e, he', hsel⟩ | ⟨hno, -⟩⟩ := fetch_op_cases hop
    · obtain rfl : e = .rxByte b := Option.some.inj (he'.symm.trans he)
      obtain rfl : i = decodeRxb s.cfg b := Except.ok.inj (hsel.symm.trans (decodeSeq_rxByte_waiting hw b))
      refine ⟨rest, hleaves, ?_⟩
      by_cases hb : byteClass s.cfg b = .delim
      · exact .of_signal he hw hb ((exec_decodeRxb_delim (s := { s with inputs := rest }) hw hb).symm.trans hexec)
      · rw [← Host.Outcome.next.inj ((exec_decodeRxb_other (s := { s with inputs := rest }) hw hb).symm.trans hexec)]
        exact .tookByte he hw hb
    · exact nomatch hno.symm.trans he
  · obtain ⟨hno, -⟩ := fetch_host_cases hhost
    exact nomatch hno.symm.trans he

theorem step_effect {s t : State} (h : step s = .next t) : ∃ rest, s.Leaves rest ∧ StepEffect s rest t := by
  by_cases hbyte : s.waiting = true ∧ ∃ b, s.nextEvent = some (.rxByte b)
  · obtain ⟨hw, b, he⟩ := hbyte
    exact step_effect_rxByte h he hw
  obtain ⟨rest, hleaves, hcases⟩ := step_cases h
  refine ⟨rest, hleaves, ?_⟩
  rcases hcases with ⟨he, rfl⟩ | ⟨e, he, hne, rfl⟩ | ⟨he, hstart⟩ | ⟨he, hf, hst, rfl⟩ | ⟨b, he, hw, -⟩ |
    ⟨b, he, hw, -⟩ | ⟨he, j, d, ⟨-, hwrite⟩ | ⟨-, hfail⟩⟩ | ⟨he, rfl | ⟨l, rfl⟩ | ⟨bs, -, rfl⟩⟩
  · exact .reset he
  · exact .ignored he hne fun hw b hb => hbyte ⟨hw, b, hb ▸ he⟩
  · exact .of_start he hstart
  · exact .writeError he hf hst
  · exact absurd ⟨hw, b, he⟩ hbyte
  · exact absurd ⟨hw, b, he⟩ hbyte
  · obtain ⟨ch, r, -, rfl⟩ := pacerWrite_next hwrite
    exact .wrote he
  · obtain ⟨ch, r, -, rfl⟩ := pacerFail_next hfail
    exact .writeFailed he
  · exact .host he
  · exact .host he
  · exact .host he

/-! ## What every step keeps -/

/-- Settles O46: a send ends the three steps that emit a frame, and no other step does (`StepEffect`). -/
theorem oneFrameForEachAcknowledgment : Obligations.OneFrameForEachAcknowledgment := by
  intro s t hstep
  obtain ⟨rest, -, heffect⟩ := step_effect hstep
  cases heffect with
  | started he hst =>
    exact Or.inr ⟨_, .start, afterSend_txStream _ _, rfl, rfl, he, Or.inl ⟨hst, rfl, rfl⟩⟩
  | @advanced b he hw hg hidx =>
    exact Or.inr ⟨_, .rxByte b, afterSend_txStream _ _, rfl, rfl, he,
      Or.inr (Or.inl ⟨((waiting_iff s).mp hw).1, hg, hidx, rfl⟩)⟩
  | @retried b he hw hg =>
    exact Or.inr ⟨_, .rxByte b, afterSend_txStream _ _, rfl, rfl, he,
      Or.inr (Or.inr ⟨((waiting_iff s).mp hw).1, hg, rfl⟩)⟩
  | finished => exact Or.inl (afterFinish_txStream _)
  | writeError | diagnosed => exact Or.inl (emit_log_txStream _ _)
  | reset | ignored | noPayload | tookByte | wrote | writeFailed | host => exact Or.inl rfl

/-- Settles O49: of the ways a step can go, `reset`, a `START` and an advance write `idx`. -/
theorem cursorMovesOnlyOnSuccess : Obligations.CursorMovesOnlyOnSuccess := by
  intro s t hstep
  obtain ⟨rest, -, heffect⟩ := step_effect hstep
  cases heffect with
  | reset he => exact Or.inr (Or.inr ⟨rfl, Or.inl he⟩)
  | started he hst => exact Or.inr (Or.inr ⟨rfl, Or.inr ⟨he, hst⟩⟩)
  | @advanced b he hw hg hidx => exact Or.inr (Or.inl ⟨rfl, hidx, .rxByte b, he, hg⟩)
  | ignored | noPayload | writeError | tookByte | finished | retried | diagnosed | wrote | writeFailed | host =>
    exact Or.inl rfl

/-- Settles O50: of the ways a step can go, `reset` and `START` write `L` and `max`, and none the parameters. -/
theorem sessionRegistersAreFixed : Obligations.SessionRegistersAreFixed := by
  intro s t hstep
  obtain ⟨rest, -, heffect⟩ := step_effect hstep
  cases heffect with
  | reset he => exact ⟨rfl, Or.inr (Or.inl he)⟩
  | noPayload he hst _ hlen => exact ⟨rfl, Or.inr (Or.inr ⟨he, hst, Nat.zero_le _, fun _ => hlen.symm⟩)⟩
  | started he hst _ hl hlegal => exact ⟨rfl, Or.inr (Or.inr ⟨he, hst, hl, hlegal⟩)⟩
  | ignored | writeError | tookByte | advanced | finished | retried | diagnosed | wrote | writeFailed | host =>
    exact ⟨rfl, Or.inl ⟨rfl, rfl⟩⟩

/-- A step that emits no `tr_close` is to leave `DONE` as it finds it. -/
theorem closeCount_of_kept {s t : State} (hcount : t.closeCount = s.closeCount) (hst : t.st = .done → s.st = .done) :
    t.closeCount = s.closeCount + if s.st ≠ .done ∧ t.st = .done then 1 else 0 := by
  rw [if_neg fun ⟨hs, ht⟩ => hs (hst ht), Nat.add_zero, hcount]

/-- Settles O53: the one way to come to `DONE` is `finish()`, in `AWAIT`, which emits `tr_close`. -/
theorem closeIsEmittedOnEnteringDone : Obligations.CloseIsEmittedOnEnteringDone := by
  intro s t hstep
  obtain ⟨rest, -, heffect⟩ := step_effect hstep
  cases heffect with
  | finished he hw =>
    obtain ⟨hst, -⟩ := (waiting_iff s).mp hw
    rw [if_pos ⟨by simp [hst], rfl⟩]
    exact afterFinish_closeCount _
  | started | advanced | retried => exact closeCount_of_kept (afterSend_closeCount _ _) nofun
  | writeError | diagnosed => exact closeCount_of_kept (emit_log_closeCount _ _) id
  | reset => exact closeCount_of_kept rfl nofun
  | ignored | noPayload | tookByte | wrote | writeFailed | host => exact closeCount_of_kept rfl id

end Sys2Proof.Machine
end

section
/-! Where an operation answers: `START`, the signals, the acts of the TX pacer; and that no event is illegal
(43_transfer_sequencer.md R161 to R167, R171; 41_transport_encoder.md R112, R113). -/

namespace Sys2Proof.Machine

/-! ## `send` (R162) -/

/-- `CHUNK` answers only where the chunk is loaded (20_memory.md R40). -/
theorem chunkAt_next_loaded {s : State} {i : Nat} {c : List Byte} (h : chunkAt s i = .next c) : ChunkLoaded s s.L i := by
  obtain ⟨hn, hi, hb, -⟩ := chunkAt_next h
  rw [chunkAt, (chunkSizeOk_iff s.cfg).mpr hn, if_neg (by decide), if_pos ⟨hi, hb⟩] at h
  exact fun j hj => (readBytes_next h j hj).2

theorem send_canSend {r : Bool} {s t : State} (h : send r s = .next t) : CanSend s := by
  obtain ⟨⟨hn1, hn8⟩, hi, hb, -⟩ := send_next h
  rw [send, chunkAt_withSt] at h
  obtain ⟨c, hc, -⟩ := bindRun_eq_next.mp h
  exact ⟨hn1, hn8, hi, hb, chunkAt_next_loaded hc⟩

/-- Settles O44: the send leaves the registers that the slice reads, so the retry reads the same bytes. -/
theorem retryIsByteIdentical : Obligations.RetryIsByteIdentical := by
  intro s t hf hretry hcan hsend
  obtain rfl : t = afterSend false s := Host.Outcome.next.inj (hsend.symm.trans (send_eq hcan))
  have hw : (afterSend false s).waiting = true := (waiting_iff _).mpr ⟨rfl, hf⟩
  have hexec : exec .seqRetry (afterSend false s) = .next (afterSend true (afterSend false s)) := by
    change execSeqRetry (afterSend false s) = _
    rw [execSeqRetry, if_pos ⟨hw, hretry⟩]
    exact send_eq hcan
  exact ⟨_, frameBytes s.cfg.n (chunkBytes s s.L s.idx), hexec, afterSend_txStream _ _, afterSend_txStream _ _, rfl, rfl⟩

/-! ## The signals in a waiting block (42_ack_classifier.md R132 to R134) -/

/-- Settles O28: the three operations hand over their signal, and `handSignal_advance` and the like say what comes of it. -/
theorem lineOperationsDriveTheSequencer : Obligations.LineOperationsDriveTheSequencer := by
  intro s hst hf
  have hw : s.waiting = true := (waiting_iff s).mpr ⟨hst, hf⟩
  exact ⟨fun hidx hcan => (handSignal_advance hw hidx).trans (send_eq hcan), fun hidx => handSignal_finish hw hidx,
    fun hretry hcan => (handSignal_retry hw hretry).trans (send_eq hcan), fun hidx hr => handSignal_nak0 hw hidx hr,
    fun x => handSignal_diag hw x⟩

/-! ## `START` (R161) -/

theorem execSeqStart_noPayload {s : State} (hst : s.st = .idle) (hf : s.fault = .none) (hlen : s.cfgLen = 0) :
    execSeqStart s = .next { s with L := 0, fault := .emptyPayload } := by
  have hlatch := latchLen_of_le (hlen ▸ Nat.zero_le _ : s.cfgLen ≤ 2 ^ s.cfg.addrW)
  rw [execSeqStart, if_pos ⟨hst, hf⟩, hlatch, if_pos hlen, hlen]
  rfl

theorem execSeqStart_payload {s : State} (hst : s.st = .idle) (hf : s.fault = .none) (hlen : s.cfgLen ≠ 0) :
    execSeqStart s = send false { latchMax (latchLen s) with idx := 0 } := by
  rw [execSeqStart, if_pos ⟨hst, hf⟩, if_neg (mt (latchLen_L s).2.mp hlen)]

/-- A session of a payload that is not empty can send chunk 0 if that is loaded. -/
theorem canSend_zero {s : State} (hn1 : 1 ≤ s.cfg.n) (hn8 : s.cfg.n ≤ 8) {l m k : Nat} (hl : 1 ≤ l)
    (hload : ChunkLoaded s l 0) : CanSend { s with L := l, max := m, idx := 0, fresh := k } :=
  ⟨hn1, hn8, Nat.zero_le _, by rwa [chunkBase, Nat.zero_mul], hload⟩

/-- The payload in use holds chunk 0 of whatever length `START` latches. -/
theorem chunkLoaded_zero {s : State} {l : Nat}
    (hload : PayloadLoaded s (if s.cfgLen ≤ 2 ^ s.cfg.addrW then s.cfgLen else min s.cfg.n (2 ^ s.cfg.addrW)))
    (hl : l ≤ 2 ^ s.cfg.addrW) (hlegal : s.cfgLen ≤ 2 ^ s.cfg.addrW → l = s.cfgLen) : ChunkLoaded s l 0 := by
  split at hload
  · rw [hlegal ‹_›]
    exact hload.chunk 0
  · exact hload.chunk_zero hl

/-- `START` at any level but 0, with the payload in use loaded. -/
theorem execSeqStart_sends {s : State} (hst : s.st = .idle) (hf : s.fault = .none) (hn1 : 1 ≤ s.cfg.n)
    (hn8 : s.cfg.n ≤ 8) (hlen : s.cfgLen ≠ 0)
    (hload : PayloadLoaded s (if s.cfgLen ≤ 2 ^ s.cfg.addrW then s.cfgLen else min s.cfg.n (2 ^ s.cfg.addrW))) :
    ∃ l m k, 1 ≤ l ∧ l ≤ 2 ^ s.cfg.addrW ∧ MaxFits s.cfg l m ∧ m < 2 ^ s.cfg.idxW ∧
      execSeqStart s = .next (afterSend false { s with L := l, max := m, idx := 0, fresh := k }) := by
  obtain ⟨l, m, k, hl, hl', hfits, hm, hlegal, hlatch⟩ := latch_eq hn1 hlen
  refine ⟨l, m, k, hl, hl', hfits, hm, ?_⟩
  rw [execSeqStart_payload hst hf hlen, hlatch s rfl rfl rfl]
  exact send_eq (canSend_zero hn1 hn8 hl (chunkLoaded_zero hload hl' hlegal))

/-- Settles O35: what is latched is `latchLen_of_le` and `latchMax_of_le` at a legal level, and `execSeqStart_sends` speaks of
another; chunk 0 can then be sent (`canSend_zero`). -/
theorem startSendsChunkZero : Obligations.StartSendsChunkZero := by
  intro s hst hf hn1 hn8
  refine ⟨fun hlen hlegal hcount hload => ⟨?legal, rfl⟩, fun hlevel hload => ?illegal⟩
  case legal =>
    change execSeqStart s = _
    rw [execSeqStart_payload hst hf (Nat.ne_of_gt hlen), latchLen_of_le hlegal,
      latchMax_of_le (s := { s with L := s.cfgLen }) hcount]
    exact send_eq (canSend_zero hn1 hn8 hlen (hload.chunk 0))
  case illegal =>
    have hlen : s.cfgLen ≠ 0 := Nat.ne_of_gt ((Nat.zero_le _).trans_lt hlevel)
    exact execSeqStart_sends hst hf hn1 hn8 hlen (by rwa [if_neg (Nat.not_le.mpr hlevel)])

/-- Settles O36: `max` takes a free value of its range (`latchMax_of_lt`), and the rest is as at any legal level. -/
theorem startBeyondIndexWidth : Obligations.StartBeyondIndexWidth := by
  intro s hst hf hn1 hn8 hlen hlegal hcount hload
  refine ⟨Config.freeMax s.fresh % 2 ^ s.cfg.idxW, Nat.mod_lt _ (Nat.two_pow_pos _), ?_⟩
  change execSeqStart s = _
  rw [execSeqStart_payload hst hf (Nat.ne_of_gt hlen), latchLen_of_le hlegal,
    latchMax_of_lt (s := { s with L := s.cfgLen }) hcount]
  exact send_eq (canSend_zero hn1 hn8 hlen (hload.chunk 0))

/-- Settles O37: level 0 is latched, and the fault is raised. -/
theorem startWithoutPayloadFaults : Obligations.StartWithoutPayloadFaults := fun _ hst hf hlen =>
  ⟨execSeqStart_noPayload hst hf hlen, rfl⟩

/-! ## The TX pacer -/

theorem pacerWrite_eq {s : State} {j : Nat} (d : Nat) {ch : Byte} {rest : List Byte}
    (hb : s.backlog[j]? = some (ch :: rest)) : pacerWrite j d s = .next { s with
      sink := s.sink ++ [ch]
      backlog := advanceJob s.backlog j rest
      inputs := if rest = [] then report d .txDone s.inputs else s.inputs } := by
  simp [pacerWrite, hb]

theorem pacerFail_eq {s : State} {j : Nat} (d : Nat) {ch : Byte} {rest : List Byte}
    (hb : s.backlog[j]? = some (ch :: rest)) : pacerFail j d s = .next { s with
      backlog := advanceJob s.backlog j rest
      inputs := report d .wrErr s.inputs } := by
  simp [pacerFail, hb]

/-- Settles O23: the acts are `pacerAccept`, `pacerWrite_eq` and `pacerFail_eq`, at a character that is the last or not. -/
theorem pacerActs : Obligations.PacerActs := fun _ =>
  ⟨fun _ => rfl, fun _ d _ _ _ hb => pacerWrite_eq d hb, fun _ d _ hb => pacerWrite_eq d hb,
    fun _ d _ _ _ hb => pacerFail_eq d hb, fun _ d _ hb => pacerFail_eq d hb⟩

/-! ## Every event has a next state (R171) -/

/-- A waiting session with its payload loaded can send every chunk. -/
theorem Inv.canSend {s : State} (h : Inv s) (hst : s.st = .await) (hload : PayloadLoaded s s.L) {i : Nat}
    (hi : i ≤ s.max) : CanSend { s with idx := i } := by
  obtain ⟨hn1, hn8, -⟩ := h.cfgWf
  obtain ⟨hl, -, hfits, -⟩ := h.session (by simp [hst])
  exact ⟨hn1, hn8, hi, chunkBase_lt hn1 hl hfits hi, hload.chunk i⟩

/-- A waiting sequencer has a reaction to every signal. -/
theorem Inv.signal_answered {s : State} (h : Inv s) (hst : s.st = .await) (hf : s.fault = .none)
    (hload : PayloadLoaded s s.L) (g : Signal) : ∃ t, handSignal g s = .next t ∧ t.inputs = s.inputs := by
  have hw : s.waiting = true := (waiting_iff s).mpr ⟨hst, hf⟩
  obtain ⟨-, -, -, hidx⟩ := h.session (by simp [hst])
  cases g with
  | success =>
    rcases hidx.lt_or_eq with hlt | heq
    · exact ⟨_, (handSignal_advance hw hlt).trans (send_eq (h.canSend hst hload hlt)), rfl⟩
    · exact ⟨_, handSignal_finish hw heq, rfl⟩
  | failure =>
    by_cases hretry : s.idx ≠ 0 ∨ s.cfg.retryIdx0 = true
    · exact ⟨_, (handSignal_retry hw hretry).trans (send_eq (h.canSend hst hload hidx)), rfl⟩
    · simp only [not_or, not_not, Bool.not_eq_true] at hretry
      exact ⟨_, handSignal_nak0 hw hretry.1 hretry.2, rfl⟩
  | diag x => exact ⟨_, handSignal_diag hw x, rfl⟩

/-- `START` in `IDLE` faults on an empty payload, or sends chunk 0. -/
theorem Inv.start_answered {s : State} (h : Inv s) (hst : s.st = .idle) (hf : s.fault = .none)
    (hload : PayloadLoaded s (if s.cfgLen ≤ 2 ^ s.cfg.addrW then s.cfgLen else min s.cfg.n (2 ^ s.cfg.addrW))) :
    ∃ t, execSeqStart s = .next t ∧ t.inputs = s.inputs := by
  obtain ⟨hn1, hn8, -⟩ := h.cfgWf
  by_cases hlen : s.cfgLen = 0
  · exact ⟨_, execSeqStart_noPayload hst hf hlen, rfl⟩
  · obtain ⟨l, m, k, -, -, -, -, hexec⟩ := execSeqStart_sends hst hf hn1 hn8 hlen hload
    exact ⟨_, hexec, rfl⟩

/-- An inbound byte in a waiting block is taken, or completes a line whose signal has a reaction. -/
theorem Inv.byte_answered {s : State} (h : Inv s) (hst : s.st = .await) (hf : s.fault = .none)
    (hload : PayloadLoaded s s.L) (b : Byte) :
    ∃ t, exec (decodeRxb s.cfg b) s = .next t ∧ t.inputs = s.inputs := by
  rw [exec_decodeRxb b ((waiting_iff s).mpr ⟨hst, hf⟩)]
  split
  · have hclear : Inv (clearLine s) := h.withLine hst .E fun _ _ => Nat.zero_le _
    exact hclear.signal_answered hst hf hload _
  · exact ⟨_, rfl, rfl⟩

/-- Settles O60: `reset` and the ignored events are accepted in every state, and the others by the lemma of the operation
they select. -/
theorem everyEventIsAccepted : Obligations.EveryEventIsAccepted := by
  intro s e rest h hin hawait hidle
  have hu := h.withInputs rest
  have haccept {i : Instr} (hsel : decodeSeq s.cfg s.view (.input e) = .ok i)
      (hexec : ∃ t, exec i { s with inputs := rest } = .next t ∧ t.inputs = rest) :
      ∃ t, step s = .next t ∧ t.inputs = rest := by
    rwa [step_event hin hsel]
  have hignore (hsel : decodeSeq s.cfg s.view (.input e) = .ok .seqIgnore) : ∃ t, step s = .next t ∧ t.inputs = rest :=
    haccept hsel ⟨_, rfl, rfl⟩
  by_cases he : e = .reset
  · subst he
    exact haccept rfl ⟨_, rfl, rfl⟩
  by_cases hf : s.fault = .none
  case neg => exact hignore (decodeSeq_faulted s.cfg (decide_eq_true hf) he)
  have hcell : decodeSeq s.cfg s.view (.input e) = decodeTableCell s.cfg s.st e :=
    decodeSeq_notFaulted s.cfg (by simp [hf]) he
  have hlogged (hst : s.st ≠ .done) : ∃ t, exec .wrErr { s with inputs := rest } = .next t ∧ t.inputs = rest :=
    ⟨_, if_pos ⟨hf, hst⟩, rfl⟩
  cases hst : s.st with
  | sending => exact absurd hst h.notSending
  | done => exact hignore (by rw [hcell, hst, decodeTableCell_done _ he])
  | idle =>
    rw [hst] at hcell
    cases e with
    | reset => exact absurd rfl he
    | start => exact haccept hcell (hu.start_answered hst hf (hidle rfl hst))
    | wrErr => exact haccept hcell (hlogged (by simp [hst]))
    | rxByte | txDone => exact hignore hcell
  | await =>
    rw [hst] at hcell
    cases e with
    | reset => exact absurd rfl he
    | rxByte b => exact haccept hcell (hu.byte_answered hst hf (hawait hst) b)
    | wrErr => exact haccept hcell (hlogged (by simp [hst]))
    | start | txDone => exact hignore hcell

/-! ## The state right after reset (10_state.md R22) -/

/-- Settles O56: `afterReset` writes these values, and the flags and ports follow. -/
theorem resetValues : Obligations.ResetValues := fun _ =>
  ⟨rfl, rfl, rfl, rfl, rfl, rfl, rfl, rfl, rfl, rfl, rfl, rfl⟩

end Sys2Proof.Machine
end

section
/-! What a step does not read: the block nothing of the TX pacer, nor the pacer of the block (41_transport_encoder.md R114,
R116), and no operation of `IDLE` the registers that reset leaves unspecified (10_state.md R22). -/

namespace Sys2Proof.Machine

/-! ## What selects an operation -/

/-- An event selects by `st` and `fault` alone. -/
theorem decodeSeq_input_congr (c : Config) {v w : SeqView} (e : BlockEvent) (hst : v.st = w.st)
    (hf : v.faulted = w.faulted) : decodeSeq c v (.input e) = decodeSeq c w (.input e) := by
  cases e with
  | reset => rfl
  | start | rxByte | wrErr | txDone => simp only [decodeSeq, hst, hf]

/-- A step over an event that answers ran the operation the event selects. -/
theorem step_event_next {s t : State} {e : BlockEvent} {rest : List Input} (hin : s.inputs = .event e :: rest)
    (h : step s = .next t) :
    ∃ i, decodeSeq s.cfg s.view (.input e) = .ok i ∧ exec i { s with inputs := rest } = .next t := by
  cases hsel : decodeSeq s.cfg s.view (.input e) with
  | error d =>
    rw [step_event_rejected hin hsel] at h
    cases h
  | ok i => exact ⟨i, rfl, (step_event hin hsel).symm.trans h⟩

/-! ## The block does not read the TX pacer -/

/-- The state with another TX pacer, other inputs to come, and another `result` of the model's own. -/
def State.withPacer (s : State) (backlog : List (List Byte)) (sink : List Byte) (inputs : List Input)
    (result : OpResult) : State :=
  { s with backlog := backlog, sink := sink, inputs := inputs, result := result }

/-- Two states with the same block part differ in nothing else. -/
theorem eq_withPacer {s u : State} (hblock : s.block = u.block) (hfresh : s.fresh = u.fresh) :
    u = s.withPacer u.backlog u.sink u.inputs u.result := by
  obtain ⟨⟩ := s
  obtain ⟨⟩ := u
  simp only [State.block, BlockPart.mk.injEq] at hblock
  simp_all [State.withPacer]

section
variable {s t : State} (bl : List (List Byte)) (k : List Byte) (inp : List Input) (res : OpResult)

theorem send_withPacer {r : Bool} (h : send r s = .next t) :
    ∃ t', send r (s.withPacer bl k inp res) = .next t' ∧ t'.block = t.block := by
  obtain ⟨-, -, -, rfl⟩ := send_next h
  exact ⟨_, send_eq (s := s.withPacer bl k inp res) (send_canSend h :), rfl⟩

theorem handSignal_withPacer {g : Signal} (h : handSignal g s = .next t) :
    ∃ t', handSignal g (s.withPacer bl k inp res) = .next t' ∧ t'.block = t.block := by
  rcases handSignal_next h with ⟨hf, rfl⟩ | ⟨hw, ⟨rfl, hidx, hsend⟩ | ⟨rfl, hidx, rfl⟩ | ⟨rfl, hretry, hsend⟩ |
    ⟨rfl, hidx, hr, rfl⟩ | ⟨x, rfl, rfl⟩⟩
  · exact ⟨_, handSignal_faulted hf, rfl⟩
  · rw [handSignal_advance (s := s.withPacer bl k inp res) hw hidx]
    exact send_withPacer bl k inp res hsend
  · exact ⟨_, handSignal_finish (s := s.withPacer bl k inp res) hw hidx, rfl⟩
  · rw [handSignal_retry (s := s.withPacer bl k inp res) hw hretry]
    exact send_withPacer bl k inp res hsend
  · exact ⟨_, handSignal_nak0 (s := s.withPacer bl k inp res) hw hidx hr, rfl⟩
  · exact ⟨_, handSignal_diag (s := s.withPacer bl k inp res) hw x, rfl⟩

theorem execSeqStart_withPacer (h : execSeqStart s = .next t) :
    ∃ t', execSeqStart (s.withPacer bl k inp res) = .next t' ∧ t'.block = t.block := by
  obtain ⟨hst, hf, ⟨hlen, rfl⟩ | ⟨hlen, hsend⟩⟩ := execSeqStart_next h
  · exact ⟨_, execSeqStart_noPayload (s := s.withPacer bl k inp res) hst hf hlen, rfl⟩
  · obtain ⟨⟨hn, -⟩, -⟩ := send_next hsend
    obtain ⟨l, m, c, -, -, -, -, -, hlatch⟩ := latch_eq (s := s) (by simpa using hn) hlen
    rw [execSeqStart_payload (s := s.withPacer bl k inp res) hst hf hlen, hlatch (s.withPacer bl k inp res) rfl rfl rfl]
    rw [hlatch s rfl rfl rfl] at hsend
    exact send_withPacer bl k inp res hsend

theorem decodeRxb_withPacer {b : Byte} (hw : s.waiting = true) (h : exec (decodeRxb s.cfg b) s = .next t) :
    ∃ t', exec (decodeRxb s.cfg b) (s.withPacer bl k inp res) = .next t' ∧ t'.block = t.block := by
  by_cases hb : byteClass s.cfg b = .delim
  · obtain ⟨t', ht', hblock⟩ := handSignal_withPacer bl k inp res ((exec_decodeRxb_delim hw hb).symm.trans h)
    exact ⟨t', (exec_decodeRxb_delim (s := s.withPacer bl k inp res) hw hb).trans ht', hblock⟩
  · rw [← Host.Outcome.next.inj ((exec_decodeRxb_other hw hb).symm.trans h)]
    exact ⟨_, exec_decodeRxb_other (s := s.withPacer bl k inp res) hw hb, rfl⟩

/-- What an event selects does the same to the block whatever the pacer holds. -/
theorem exec_withPacer {e : BlockEvent} {i : Instr} (hsel : decodeSeq s.cfg s.view (.input e) = .ok i)
    (h : exec i s = .next t) : ∃ t', exec i (s.withPacer bl k inp res) = .next t' ∧ t'.block = t.block := by
  rcases decodeSeq_input_cases hsel with ⟨-, rfl⟩ | ⟨-, rfl⟩ | ⟨-, -, -, rfl⟩ | ⟨hv, hst, -, rfl⟩ | ⟨hv, hst, b, -, rfl⟩
  · exact ⟨_, rfl, by rw [← Host.Outcome.next.inj h]; rfl⟩
  · exact ⟨_, rfl, by rw [← Host.Outcome.next.inj h]; rfl⟩
  · exact execSeqStart_withPacer bl k inp res h
  · have hlog : s.fault = .none ∧ s.st ≠ .done := ⟨by simpa using hv, by rintro hd; simp [hd] at hst⟩
    obtain rfl : emit (.log .wrErr) s = t := Host.Outcome.next.inj ((if_pos hlog).symm.trans h)
    exact ⟨_, if_pos hlog, rfl⟩
  · exact decodeRxb_withPacer bl k inp res ((waiting_iff s).mpr ⟨hst, by simpa using hv⟩) h

end

/-- An act of the TX pacer reads and writes the backlog, the sink and the inputs, and nothing of the block. -/
theorem execTx_congr {a : TxAct} {s u t : State} (hb : s.backlog = u.backlog) (hk : s.sink = u.sink)
    (hi : s.inputs = u.inputs) (h : execTx a s = .next t) :
    ∃ t', execTx a u = .next t' ∧ t'.backlog = t.backlog ∧ t'.sink = t.sink ∧ t'.inputs = t.inputs := by
  cases a with
  | accept x =>
    rw [← Host.Outcome.next.inj h]
    exact ⟨_, rfl, by simp [hb], by simp [hk], by simp [hi]⟩
  | write j d =>
    obtain ⟨ch, r, hj, rfl⟩ := pacerWrite_next h
    exact ⟨_, pacerWrite_eq d (hb ▸ hj), by simp [hb], by simp [hk], by simp [hi]⟩
  | fail j d =>
    obtain ⟨ch, r, hj, rfl⟩ := pacerFail_next h
    exact ⟨_, pacerFail_eq d (hb ▸ hj), by simp [hb], hk.symm, by simp [hi]⟩

/-- Settles O25: with equal block parts the states differ as in `eq_withPacer`, the event selects the same operation, and that
is `exec_withPacer`; the pacer's acts are `execTx_block` and `execTx_congr`. -/
theorem blockAndPacerAreIndependent : Obligations.BlockAndPacerAreIndependent := by
  refine ⟨fun s u t e rest rest' hblock hfresh hin hin' hstep => ?block, fun s t a h => execTx_block h,
    fun s u t a hb hk hi h => execTx_congr hb hk hi h⟩
  case block =>
    obtain ⟨i, hsel, hexec⟩ := step_event_next hin hstep
    have hu := eq_withPacer hblock hfresh
    have hsel' : decodeSeq u.cfg u.view (.input e) = .ok i := by
      rw [hu]
      exact hsel
    obtain ⟨t', ht', hkeep⟩ := exec_withPacer u.backlog u.sink rest' u.result (s := { s with inputs := rest }) hsel hexec
    refine ⟨t', ?_, hkeep⟩
    rw [step_event hin' hsel', ← ht', hu]
    rfl

/-! ## `IDLE` does not read the registers that reset leaves unspecified -/

/-- The state with other values of `max`, `L`, `FB` and `acc`. -/
def State.withUnspecified (s : State) (m l : Nat) (f : List Byte) (a : Byte) : State :=
  { s with max := m, L := l, FB := f, acc := a }

/-- What an input comes to, in a state changed by `g`. -/
def Fetched.mapState (g : State → State) : Fetched → Fetched
  | .op i u => .op i (g u)
  | .host u => .host (g u)
  | .stop r => .stop r

section
variable {s t : State} (m l : Nat) (f : List Byte) (a : Byte)

theorem deliver_withUnspecified (e : BlockEvent) (rest : List Input) :
    deliver e rest (s.withUnspecified m l f a) =
      (deliver e rest s).mapState fun u => u.withUnspecified m l f a := by
  have hsel : decode (s.withUnspecified m l f a).cfg (.seq (s.withUnspecified m l f a).view (.input e)) =
      decode s.cfg (.seq s.view (.input e)) :=
    decodeSeq_input_congr s.cfg e rfl rfl
  rw [deliver, deliver, hsel]
  cases decode s.cfg (.seq s.view (.input e)) <;> rfl

theorem fetch_withUnspecified :
    fetch (s.withUnspecified m l f a) = (fetch s).mapState fun u => u.withUnspecified m l f a := by
  have hin : (s.withUnspecified m l f a).inputs = s.inputs := rfl
  rw [fetch, fetch, hin]
  cases s.inputs with
  | nil => rfl
  | cons x rest =>
    cases x with
    | event e => exact deliver_withUnspecified m l f a e rest
    | together y =>
      cases hy : serialise y with
      | nil => simp only [hy]; rfl
      | cons e es => simp only [hy]; exact deliver_withUnspecified m l f a e _
    | mem bs =>
      by_cases hbs : bs.length ≤ 2 ^ s.cfg.addrW
      · simp only [if_pos hbs]; exact if_pos hbs
      · simp only [if_neg hbs]; exact if_neg hbs
    | len | pacerWrite | pacerFail => rfl

/-- The outcome of an operation that agrees with `t` but for `max`, `L`, `FB` and `acc`, and in those too once `IDLE` is
left. -/
abbrev Agrees (o : Run State) (t : State) : Prop :=
  ∃ m' l' f' a', o = .next (t.withUnspecified m' l' f' a') ∧
    (t.st ≠ .idle → m' = t.max ∧ l' = t.L ∧ f' = t.FB ∧ a' = t.acc)

theorem Agrees.of_eq {o : Run State} (h : o = .next t) : Agrees o t :=
  ⟨t.max, t.L, t.FB, t.acc, h, fun _ => ⟨rfl, rfl, rfl, rfl⟩⟩

theorem Agrees.of_idle {o : Run State} {m l : Nat} {f : List Byte} {a : Byte} (hst : t.st = .idle)
    (h : o = .next (t.withUnspecified m l f a)) : Agrees o t :=
  ⟨m, l, f, a, h, absurd hst⟩

/-- `START` writes all four before it reads them, but where it finds an empty payload and stays in `IDLE`. -/
theorem execSeqStart_withUnspecified (h : execSeqStart s = .next t) :
    Agrees (execSeqStart (s.withUnspecified m l f a)) t := by
  obtain ⟨hst, hf, ⟨hlen, rfl⟩ | ⟨hlen, hsend⟩⟩ := execSeqStart_next h
  · exact .of_idle hst (execSeqStart_noPayload (s := s.withUnspecified m l f a) hst hf hlen :)
  · obtain ⟨⟨hn, -⟩, -⟩ := send_next hsend
    obtain ⟨l', m', k, -, -, -, -, -, hlatch⟩ := latch_eq (s := s) (by simpa using hn) hlen
    rw [hlatch s rfl rfl rfl] at hsend
    obtain ⟨-, -, -, rfl⟩ := send_next hsend
    have hcan : CanSend { s with L := l', max := m', idx := 0, fresh := k } := send_canSend hsend
    refine .of_eq ?_
    rw [execSeqStart_payload (s := s.withUnspecified m l f a) hst hf hlen,
      hlatch (s.withUnspecified m l f a) rfl rfl rfl]
    exact send_eq (s := { s.withUnspecified m l f a with L := l', max := m', idx := 0, fresh := k }) hcan

theorem execTx_withUnspecified {x : TxAct} (hst : s.st = .idle) (h : execTx x s = .next t) :
    Agrees (execTx x (s.withUnspecified m l f a)) t := by
  cases x with
  | accept y =>
    rw [← Host.Outcome.next.inj h]
    exact .of_idle (m := m) (l := l) (f := f) (a := a) hst rfl
  | write j d =>
    obtain ⟨ch, r, hb, rfl⟩ := pacerWrite_next h
    exact .of_idle hst (pacerWrite_eq (s := s.withUnspecified m l f a) d hb :)
  | fail j d =>
    obtain ⟨ch, r, hb, rfl⟩ := pacerFail_next h
    exact .of_idle hst (pacerFail_eq (s := s.withUnspecified m l f a) d hb :)

/-- The operations that `IDLE` selects. -/
theorem exec_withUnspecified {e : BlockEvent} {i : Instr} (hst : s.st = .idle)
    (hsel : decodeSeq s.cfg s.view (.input e) = .ok i) (h : exec i s = .next t) :
    Agrees (exec i (s.withUnspecified m l f a)) t := by
  rcases decodeSeq_input_cases hsel with ⟨-, rfl⟩ | ⟨-, rfl⟩ | ⟨-, -, -, rfl⟩ | ⟨hv, -, -, rfl⟩ | ⟨-, hawait, -⟩
  · rw [← Host.Outcome.next.inj h]
    exact .of_eq rfl
  · rw [← Host.Outcome.next.inj h]
    exact .of_idle (m := m) (l := l) (f := f) (a := a) hst rfl
  · exact execSeqStart_withUnspecified m l f a h
  · have hlog : s.fault = .none ∧ s.st ≠ .done := ⟨by simpa using hv, by simp [hst]⟩
    obtain rfl : emit (.log .wrErr) s = t := Host.Outcome.next.inj ((if_pos hlog).symm.trans h)
    exact .of_idle (m := m) (l := l) (f := f) (a := a) hst (if_pos hlog)
  · exact absurd (hst.symm.trans hawait) (by decide)

end

/-- Settles O57: the same input is taken (`fetch_withUnspecified`), and what it comes to agrees: an act of the host, an act of
the TX pacer, or an operation of `IDLE`. -/
theorem unspecifiedRegistersAreNotObserved : Obligations.UnspecifiedRegistersAreNotObserved := by
  intro s t m l f a hst hstep
  suffices hagree : Agrees (step (s.withUnspecified m l f a)) t from hagree
  have hfetch := fetch_withUnspecified (s := s) m l f a
  rcases step_next_cases hstep with ⟨i, u, hop, hexec⟩ | hhost
  · rw [hop] at hfetch
    have hrun : step (s.withUnspecified m l f a) = exec i (u.withUnspecified m l f a) := by rw [step, hfetch]; rfl
    rw [hrun]
    obtain ⟨rest, rfl, -, ⟨e, -, hsel⟩ | ⟨-, j, d, ⟨-, rfl⟩ | ⟨-, rfl⟩⟩⟩ := fetch_op_cases hop
    · exact exec_withUnspecified m l f a hst hsel hexec
    · exact execTx_withUnspecified (x := .write j d) (s := { s with inputs := rest }) m l f a hst hexec
    · exact execTx_withUnspecified (x := .fail j d) (s := { s with inputs := rest }) m l f a hst hexec
  · rw [hhost] at hfetch
    have hrun : step (s.withUnspecified m l f a) = .next (t.withUnspecified m l f a) := by rw [step, hfetch]; rfl
    have hst' : t.st = .idle := by
      obtain ⟨-, rest, -, rfl | ⟨_, rfl⟩ | ⟨_, -, rfl⟩⟩ := fetch_host_cases hhost <;> exact hst
    exact .of_idle hst' hrun

end Sys2Proof.Machine
end

section
/-! The four-state machine against the lines it is to recognise (42_ack_classifier.md R130 to R144), and a whole session of
Success lines (43_transfer_sequencer.md R173). -/

namespace Sys2Proof.Machine

/-! ## Signals and lines (R141) -/

theorem clsAgrees_nil (c : Config) : ClsAgrees c .E [] := rfl

/-- From any point of a line, the machine emits the verdicts on the lines that the bytes complete. -/
theorem machineSignals_eq {c : Config} {cls : Cls} {before : List Byte} (h : ClsAgrees c cls before) (bs : List Byte) :
    machineSignals c cls (keptBytes c before) bs = (splitLines c before bs).1.map (surfaced c) := by
  induction bs generalizing cls before with
  | nil => rfl
  | cons b bs ih =>
    by_cases hb : b = c.delim
    · subst hb
      have hnext := ih (clsAgrees_nil c)
      rw [keptBytes_nil] at hnext
      rw [machineSignals, if_pos ((byteClass_delim_iff c _).mpr rfl), lineSignal_eq h, hnext, splitLines_delim,
        List.map_cons]
    · rw [machineSignals, if_neg (mt (byteClass_delim_iff c b).mp hb), keptBytes_append, ih (clsAgrees_next h hb),
        splitLines_other before bs hb]

theorem surfaced_infinite {c : Config} (h : c.lineMax = none) : surfaced c = classifyLine c := by
  funext line
  have hkept : keptBytes c line = line := by simp [keptBytes, h]
  simp only [surfaced, classifyLine, hkept]
  split_ifs <;> rfl

theorem sigCode_surfaced (c : Config) (line : List Byte) :
    sigCode (some (surfaced c line)) = sigCode (some (classifyLine c line)) := by
  unfold surfaced
  cases classifyLine c line <;> rfl

/-- Settles O32: from an empty line the signals are the verdicts with their text (`machineSignals_eq`), which are the
classifications where every byte is kept, and have their codes in any case. -/
theorem classifierAgreesWithReference : Obligations.ClassifierAgreesWithReference := by
  intro c bs
  have hsignals : machineSignals c .E [] bs = (splitLines c [] bs).1.map (surfaced c) := by
    rw [← machineSignals_eq (clsAgrees_nil c), keptBytes_nil]
  refine ⟨hsignals, fun hmax => by rw [hsignals, surfaced_infinite hmax], ?codes⟩
  case codes =>
    rw [hsignals, List.map_map]
    exact List.map_congr_left fun line _ => sigCode_surfaced c line

/-! ## A line in steps (R130 to R136) -/

/-- A waiting block takes a byte of the line. -/
theorem step_lineByte {s : State} {b : Byte} {rest : List Input} (hw : s.waiting = true)
    (hin : s.inputs = .event (.rxByte b) :: rest) (hb : b ≠ s.cfg.delim) :
    step s = .next { s with
      inputs := rest, cls := clsNext s.cls (byteClass s.cfg b), lbuf := appendLbuf s.cfg s.lbuf b } := by
  rw [step_event hin (decodeSeq_rxByte_waiting hw b)]
  exact exec_decodeRxb_other (s := { s with inputs := rest }) hw (mt (byteClass_delim_iff s.cfg b).mp hb)

/-- A waiting block takes the delimiter. -/
theorem step_delim {s : State} {rest : List Input} (hw : s.waiting = true)
    (hin : s.inputs = .event (.rxByte s.cfg.delim) :: rest) :
    step s = handSignal (lineSignal s.cfg s.cls s.lbuf) { s with inputs := rest, cls := .E, lbuf := [] } := by
  rw [step_event hin (decodeSeq_rxByte_waiting hw _)]
  exact exec_decodeRxb_delim (s := { s with inputs := rest }) hw ((byteClass_delim_iff s.cfg _).mpr rfl)

/-- The rest of a line and its delimiter, from any point of it, hand over the verdict on the whole line. -/
theorem runSteps_line {s : State} {before line : List Byte} {rest : List Input} (hw : s.waiting = true)
    (hcls : ClsAgrees s.cfg s.cls before) (hbuf : s.lbuf = keptBytes s.cfg before) (hline : s.cfg.delim ∉ line)
    (hin : s.inputs = rxInputs (line ++ [s.cfg.delim]) ++ rest) :
    runSteps (line.length + 1) s =
      handSignal (surfaced s.cfg (before ++ line)) { s with inputs := rest, cls := .E, lbuf := [] } := by
  induction line generalizing s before with
  | nil =>
    change bindRun (step s) (runSteps 0) = _
    rw [bindRun_runSteps_zero, step_delim (rest := rest) hw hin, hbuf, lineSignal_eq hcls, List.append_nil]
  | cons b line ih =>
    obtain ⟨hb, hline⟩ : s.cfg.delim ≠ b ∧ s.cfg.delim ∉ line := by simpa using hline
    have hrest := ih (before := before ++ [b]) (s := { s with
        inputs := rxInputs (line ++ [s.cfg.delim]) ++ rest
        cls := clsNext s.cls (byteClass s.cfg b), lbuf := appendLbuf s.cfg s.lbuf b })
      hw (clsAgrees_next hcls hb.symm) (by rw [hbuf, keptBytes_append]) hline rfl
    rw [List.append_assoc, List.singleton_append] at hrest
    change bindRun (step s) (runSteps (line.length + 1)) = _
    rw [step_lineByte hw hin hb.symm, bindRun_next]
    exact hrest

theorem exec_signalInstr (g : Signal) (s : State) : exec (signalInstr g) s = handSignal g s := by
  cases g <;> rfl

/-- A whole line, from a block that has none of it yet. -/
theorem runSteps_wholeLine {s : State} {line : List Byte} {rest : List Input} (hw : s.waiting = true) (hcls : s.cls = .E)
    (hbuf : s.lbuf = []) (hline : s.cfg.delim ∉ line) (hin : s.inputs = rxInputs (line ++ [s.cfg.delim]) ++ rest) :
    runSteps (line.length + 1) s = handSignal (surfaced s.cfg line) { s with inputs := rest } := by
  have hrun := runSteps_line (before := []) hw (hcls ▸ clsAgrees_nil s.cfg) (hbuf.trans (keptBytes_nil s.cfg).symm) hline hin
  rw [List.nil_append] at hrun
  rw [hrun, ← hcls, ← hbuf]

/-- Settles O33: the run hands over the verdict (`runSteps_wholeLine`), as does the operation the verdict selects. -/
theorem wholeLineActsAsItsVerdict : Obligations.WholeLineActsAsItsVerdict := by
  intro s line rest hst hf hcls hbuf hline hin
  rw [exec_signalInstr, runSteps_wholeLine ((waiting_iff s).mpr ⟨hst, hf⟩) hcls hbuf hline hin]

/-! ## The classifier's registers (R144) -/

/-- What a byte makes of the line: from the gate, the parameters, `cls` and `lbuf` alone. -/
def lineAfter (c : Config) (waiting : Bool) (cls : Cls) (lbuf : List Byte) (b : Byte) : Cls × List Byte :=
  if waiting then
    if b = c.delim then (.E, []) else (clsNext cls (byteClass c b), appendLbuf c lbuf b)
  else (cls, lbuf)

theorem step_rxByte_line {s t : State} {b : Byte} {rest : List Input} (hin : s.inputs = .event (.rxByte b) :: rest)
    (h : step s = .next t) : (t.cls, t.lbuf) = lineAfter s.cfg s.waiting s.cls s.lbuf b := by
  by_cases hw : s.waiting = true
  · rw [lineAfter, if_pos hw]
    by_cases hb : b = s.cfg.delim
    · subst hb
      obtain ⟨-, hcls, hbuf⟩ := handSignal_keeps ((step_delim hw hin).symm.trans h)
      rw [if_pos rfl, hcls, hbuf]
    · rw [if_neg hb, ← Host.Outcome.next.inj ((step_lineByte hw hin hb).symm.trans h)]
  · rw [lineAfter, if_neg hw]
    obtain ⟨i, hsel, hexec⟩ := step_event_next hin h
    rcases decodeSeq_input_cases hsel with ⟨he, -⟩ | ⟨-, rfl⟩ | ⟨-, -, he, -⟩ | ⟨-, -, he, -⟩ | ⟨hv, hst, -⟩
    · cases he
    · rw [← Host.Outcome.next.inj hexec]
    · cases he
    · cases he
    · exact absurd ((waiting_iff s).mpr ⟨hst, by simpa using hv⟩) hw

/-- Settles O34: `lineAfter` and the signal are functions of what the two states agree on. -/
theorem classifierReadsNoProtocolState : Obligations.ClassifierReadsNoProtocolState := by
  intro s u t t' b rest rest' hcfg hw hcls hbuf hin hin' hstep hstep'
  have hline : (t.cls, t.lbuf) = (t'.cls, t'.lbuf) := by
    rw [step_rxByte_line hin hstep, step_rxByte_line hin' hstep', hcfg, hw, hcls, hbuf]
  obtain ⟨hc, hl⟩ := Prod.mk.inj hline
  refine ⟨hc, hl, ?_⟩
  simp only [State.signalOf, hcfg, hw, hcls, hbuf]

/-! ## A session of Success lines (43_transfer_sequencer.md R173) -/

theorem trimBytes_singleton {c : Config} {b : Byte} (hb : b ∉ c.ws) : trimBytes c [b] = [b] :=
  trimBytes_append_other [] hb

theorem surfaced_ackOk {c : Config} (hc : c.Wf) : surfaced c [c.ackOk] = .success := by
  obtain ⟨-, -, hk, -⟩ := hc
  simp [surfaced, classifyLine, trimBytes_singleton hk]

theorem surfaced_ackFail {c : Config} (hc : c.Wf) : surfaced c [c.ackFail] = .failure := by
  obtain ⟨-, -, -, hf, hne, -⟩ := hc
  simp [surfaced, classifyLine, trimBytes_singleton hf, hne.symm]

theorem runSteps_add (m k : Nat) (s : State) : runSteps (m + k) s = bindRun (runSteps m s) (runSteps k) := by
  induction m generalizing s with
  | zero => rw [Nat.zero_add]; rfl
  | succ m ih =>
    rw [Nat.add_right_comm]
    change bindRun (step s) (runSteps (m + k)) = bindRun (bindRun (step s) (runSteps m)) (runSteps k)
    cases step s with
    | next t => exact ih t
    | fault | refused => rfl

/-- The line `k` hands over Success. -/
theorem runSteps_ackOk {s : State} {rest : List Input} (hc : s.cfg.Wf) (hw : s.waiting = true) (hcls : s.cls = .E)
    (hbuf : s.lbuf = []) (hin : s.inputs = rxInputs [s.cfg.ackOk, s.cfg.delim] ++ rest) :
    runSteps 2 s = handSignal .success { s with inputs := rest } := by
  have hne : s.cfg.delim ≠ s.cfg.ackOk := by obtain ⟨-, -, -, -, -, hne, -⟩ := hc; exact hne
  rw [← surfaced_ackOk hc]
  exact runSteps_wholeLine hw hcls hbuf (line := [s.cfg.ackOk]) (by simpa using hne) hin

theorem runSteps_ackOk_advance {s : State} {rest : List Input} (hc : s.cfg.Wf) (hw : s.waiting = true)
    (hcls : s.cls = .E) (hbuf : s.lbuf = []) (hidx : s.idx < s.max) (hcan : CanSend { s with idx := s.idx + 1 })
    (hin : s.inputs = rxInputs [s.cfg.ackOk, s.cfg.delim] ++ rest) :
    runSteps 2 s = .next (afterSend false { s with idx := s.idx + 1, inputs := rest }) := by
  rw [runSteps_ackOk hc hw hcls hbuf hin, handSignal_advance (s := { s with inputs := rest }) hw hidx]
  exact send_eq (s := { s with idx := s.idx + 1, inputs := rest }) hcan

theorem runSteps_ackOk_finish {s : State} {rest : List Input} (hc : s.cfg.Wf) (hw : s.waiting = true)
    (hcls : s.cls = .E) (hbuf : s.lbuf = []) (hidx : s.idx = s.max)
    (hin : s.inputs = rxInputs [s.cfg.ackOk, s.cfg.delim] ++ rest) :
    runSteps 2 s = .next (afterFinish { s with inputs := rest }) := by
  rw [runSteps_ackOk hc hw hcls hbuf hin, handSignal_finish (s := { s with inputs := rest }) hw hidx]

theorem afterSend_waiting (r : Bool) {s : State} (hf : s.fault = .none) : (afterSend r s).waiting = true :=
  (waiting_iff _).mpr ⟨rfl, hf⟩

/-- A waiting session has come to its end, with these frames sent on the way. -/
structure SessionEnds (s : State) (rest : List Input) (frames : List TxFrame) (t : State) : Prop where
  st : t.st = .done
  exitCode : t.exitCode = some 0
  idx : t.idx = s.max
  max : t.max = s.max
  fault : t.fault = .none
  cls : t.cls = .E
  lbuf : t.lbuf = []
  inputs : t.inputs = rest
  closeCount : t.closeCount = s.closeCount + 1
  txStream : t.txStream = s.txStream ++ frames

/-- The lines `k`, one for each chunk from the next one on and one more, send these chunks and end the session. -/
theorem runSteps_successes {s : State} {rest : List Input} (k : Nat) (hc : s.cfg.Wf) (hw : s.waiting = true)
    (hcls : s.cls = .E) (hbuf : s.lbuf = []) (hL : 1 ≤ s.L) (hfits : MaxFits s.cfg s.L s.max) (hload : PayloadLoaded s s.L)
    (hk : s.idx + k = s.max)
    (hin : s.inputs = rxInputs (List.replicate (k + 1) [s.cfg.ackOk, s.cfg.delim]).flatten ++ rest) :
    ∃ t, runSteps (2 * (k + 1)) s = .next t ∧
      SessionEnds s rest ((List.range' (s.idx + 1) k).map (firstFrame s)) t := by
  obtain ⟨hst, hf⟩ := (waiting_iff s).mp hw
  induction k generalizing s with
  | zero =>
    have hend := runSteps_ackOk_finish hc hw hcls hbuf hk hin
    exact ⟨_, hend, rfl, rfl, hk, rfl, hf, hcls, hbuf, rfl, afterFinish_closeCount _,
      (afterFinish_txStream _).trans (List.append_nil _).symm⟩
  | succ k ih =>
    have hlt : s.idx < s.max := by omega
    have hcan : CanSend { s with idx := s.idx + 1 } := by
      obtain ⟨hn1, hn8, -⟩ := hc
      exact ⟨hn1, hn8, hlt, chunkBase_lt hn1 hL hfits hlt, hload.chunk _⟩
    have hfirst : s.inputs = rxInputs [s.cfg.ackOk, s.cfg.delim] ++
        (rxInputs (List.replicate (k + 1) [s.cfg.ackOk, s.cfg.delim]).flatten ++ rest) := hin
    have hsend := runSteps_ackOk_advance hc hw hcls hbuf hlt hcan hfirst
    obtain ⟨t, hrun, hend⟩ := ih (s := afterSend false { s with
        idx := s.idx + 1, inputs := rxInputs (List.replicate (k + 1) [s.cfg.ackOk, s.cfg.delim]).flatten ++ rest })
      hc (afterSend_waiting false hf) hcls hbuf hL hfits hload (by simp only [afterSend]; omega) rfl rfl hf
    refine ⟨t, ?_, { hend with closeCount := ?_, txStream := ?_ }⟩
    · rw [Nat.mul_succ, Nat.add_comm, runSteps_add, hsend, bindRun_next, hrun]
    · rw [hend.closeCount, afterSend_closeCount]
      rfl
    · rw [hend.txStream, afterSend_txStream, List.append_assoc, List.range'_succ, List.map_cons]
      rfl

/-- `START` at a legal level whose chunks the index registers can count, as a step. -/
theorem step_start {s : State} {rest : List Input} (hst : s.st = .idle) (hf : s.fault = .none) (hn1 : 1 ≤ s.cfg.n)
    (hn8 : s.cfg.n ≤ 8) (hlen : 1 ≤ s.cfgLen) (hlegal : s.cfgLen ≤ 2 ^ s.cfg.addrW)
    (hcount : chunkCount s.cfg.n s.cfgLen ≤ 2 ^ s.cfg.idxW) (hload : PayloadLoaded s s.cfgLen)
    (hin : s.inputs = .event .start :: rest) : step s = .next (afterSend false
      { s with inputs := rest, L := s.cfgLen, max := chunkCount s.cfg.n s.cfgLen - 1, idx := 0 }) := by
  have hsel : decodeSeq s.cfg s.view (.input .start) = .ok .seqStart := by
    rw [decodeSeq_notFaulted s.cfg (e := .start) (by simp [hf]) nofun, view_st, hst, decodeTableCell]
  obtain ⟨hlegalStart, -⟩ := startSendsChunkZero { s with inputs := rest } hst hf hn1 hn8
  obtain ⟨hexec, -⟩ := hlegalStart hlen hlegal hcount hload
  exact (step_event hin hsel).trans hexec

/-- Settles O47: `START` sends chunk 0 (`startSendsChunkZero`), and the lines the rest (`runSteps_successes`). -/
theorem successesSendEveryChunkOnce : Obligations.SuccessesSendEveryChunkOnce := by
  intro s rest hc hst hf hcls hbuf hlen hlegal hcount hload hin
  obtain ⟨hn1, hn8, -⟩ := id hc
  obtain ⟨k, hk⟩ : ∃ k, chunkCount s.cfg.n s.cfgLen = k + 1 :=
    Nat.exists_eq_add_one.mpr ((lt_chunkCount_iff hn1).mpr (by rw [chunkBase, Nat.zero_mul]; exact hlen))
  have hfits : MaxFits s.cfg s.cfgLen (chunkCount s.cfg.n s.cfgLen - 1) := by rw [MaxFits, if_pos hcount]
  have hstart := step_start hst hf hn1 hn8 hlen hlegal hcount hload
    (rest := rxInputs (List.replicate (chunkCount s.cfg.n s.cfgLen) [s.cfg.ackOk, s.cfg.delim]).flatten ++ rest) hin
  obtain ⟨t, hrun, hend⟩ := runSteps_successes (rest := rest) (s := afterSend false { s with
      inputs := rxInputs (List.replicate (chunkCount s.cfg.n s.cfgLen) [s.cfg.ackOk, s.cfg.delim]).flatten ++ rest
      L := s.cfgLen, max := chunkCount s.cfg.n s.cfgLen - 1, idx := 0 })
    k hc (afterSend_waiting false hf) hcls hbuf hlen hfits hload (by simp only [afterSend, hk]; omega)
    (by simp only [afterSend, hk])
  refine ⟨t, ?run, hend.st, hend.exitCode, hend.idx, hend.max.trans hend.idx.symm, hend.fault, hend.cls, hend.lbuf,
    hend.inputs, ?close, ?frames⟩
  case run =>
    rw [Nat.add_comm, hk]
    change bindRun (step s) (runSteps (2 * (k + 1))) = _
    rw [hstart, bindRun_next, hrun]
  case close =>
    rw [hend.closeCount, afterSend_closeCount]
    rfl
  case frames =>
    rw [hend.txStream, afterSend_txStream, hk, List.range_eq_range', List.range'_succ, List.map_cons, List.append_assoc]
    rfl

end Sys2Proof.Machine
end

section
/-! Base64 (41_transport_encoder.md R110; 30_encoding.md R62): the alphabet, the groups, the text of nine bytes. -/

namespace Sys2Proof.Machine

/-- Settles O22: a finite table, evaluated. -/
theorem base64Alphabet : Obligations.Base64Alphabet := by
  unfold Obligations.Base64Alphabet
  decide

/-- The padding character is none of the alphabet's. -/
theorem sextetChar_ne_padChar : ∀ x : Sextet, sextetChar x ≠ padChar := by decide

/-! ## The groups of a byte sequence -/

theorem b64Chars_length (f : List Byte) : (b64Chars f).length = 4 * ((f.length + 2) / 3) := by
  induction f using b64Chars.induct with
  | case1 => rfl
  | case2 b0 => simp [b64Chars]
  | case3 b0 b1 => simp [b64Chars]
  | case4 b0 b1 b2 rest ih =>
    simp only [b64Chars, List.length_cons, ih]
    omega

/-- Alphabet characters, then one padding character for each byte that the last group misses. -/
theorem b64Chars_eq_append (f : List Byte) : ∃ x : List Sextet,
    b64Chars f = x.map sextetChar ++ List.replicate ((3 - f.length % 3) % 3) padChar := by
  induction f using b64Chars.induct with
  | case1 => exact ⟨[], rfl⟩
  | case2 b0 => exact ⟨[_, _], rfl⟩
  | case3 b0 b1 => exact ⟨[_, _, _], rfl⟩
  | case4 b0 b1 b2 rest ih =>
    obtain ⟨x, hx⟩ := ih
    have hlen : (b0 :: b1 :: b2 :: rest).length % 3 = rest.length % 3 := by simp only [List.length_cons]; omega
    exact ⟨_ :: _ :: _ :: _ :: x, by rw [hlen, b64Chars, hx]; rfl⟩

theorem count_padChar_b64Chars (f : List Byte) : (b64Chars f).count padChar = (3 - f.length % 3) % 3 := by
  obtain ⟨x, hx⟩ := b64Chars_eq_append f
  have hnone : padChar ∉ x.map sextetChar := by simp [sextetChar_ne_padChar]
  rw [hx, List.count_append, List.count_eq_zero_of_not_mem hnone, List.count_replicate_self, Nat.zero_add]

/-- The 24 bits of group `g` as a number, with bytes past the end taken as 0. -/
def groupValue (f : List Byte) (g : Nat) : Nat :=
  (f.getD (3 * g) 0).toNat * 65536 + (f.getD (3 * g + 1) 0).toNat * 256 + (f.getD (3 * g + 2) 0).toNat

/-- The four characters of group `g` stand where they should. -/
def GroupText (f t : List Byte) (g : Nat) : Prop :=
  t[4 * g]? = some (sextetChar (BitVec.ofNat 6 (groupValue f g / 2 ^ 18))) ∧
  t[4 * g + 1]? = some (sextetChar (BitVec.ofNat 6 (groupValue f g / 2 ^ 12))) ∧
  t[4 * g + 2]? = some (if 3 * g + 1 < f.length then sextetChar (BitVec.ofNat 6 (groupValue f g / 2 ^ 6)) else padChar) ∧
  t[4 * g + 3]? = some (if 3 * g + 2 < f.length then sextetChar (BitVec.ofNat 6 (groupValue f g)) else padChar)

/-- Behind a first group the groups of the rest follow. -/
theorem GroupText.cons {f t : List Byte} {g : Nat} (h : GroupText f t g) (b0 b1 b2 c0 c1 c2 c3 : Byte) :
    GroupText (b0 :: b1 :: b2 :: f) (c0 :: c1 :: c2 :: c3 :: t) (g + 1) := by
  have hvalue : groupValue (b0 :: b1 :: b2 :: f) (g + 1) = groupValue f g := rfl
  have hsecond : 3 * (g + 1) + 1 < (b0 :: b1 :: b2 :: f).length ↔ 3 * g + 1 < f.length := by
    simp only [List.length_cons]; omega
  have hthird : 3 * (g + 1) + 2 < (b0 :: b1 :: b2 :: f).length ↔ 3 * g + 2 < f.length := by
    simp only [List.length_cons]; omega
  simp only [GroupText, hvalue, hsecond, hthird]
  exact h

theorem groupText_b64Chars {f : List Byte} {g : Nat} (hg : g < (f.length + 2) / 3) : GroupText f (b64Chars f) g := by
  induction f using b64Chars.induct generalizing g with
  | case1 => simp at hg
  | case2 b0 =>
    obtain rfl : g = 0 := by simp only [List.length_singleton] at hg; omega
    simp [GroupText, groupValue, b64Chars, groupSextet_eq_ofNat]
  | case3 b0 b1 =>
    obtain rfl : g = 0 := by simp only [List.length_cons, List.length_nil] at hg; omega
    simp [GroupText, groupValue, b64Chars, groupSextet_eq_ofNat]
  | case4 b0 b1 b2 rest ih =>
    cases g with
    | zero => simp [GroupText, groupValue, b64Chars, groupSextet_eq_ofNat]
    | succ g => exact (ih (by simp only [List.length_cons] at hg; omega)).cons ..

/-- Settles O20: `B64` answers `b64Chars`, whose groups are counted, split off and read by induction over three bytes at a
time. -/
theorem base64LengthAndPadding : Obligations.Base64LengthAndPadding := fun _ f =>
  ⟨b64Chars f, rfl, b64Chars_length f, count_padChar_b64Chars f, b64Chars_eq_append f, fun _ hg => groupText_b64Chars hg⟩

/-! ## The text of nine bytes -/

theorem toNat_append_byte {n : Nat} (x : BitVec n) (b : Byte) : (x ++ b).toNat = x.toNat * 256 + b.toNat := by
  rw [BitVec.toNat_append, ← Nat.shiftLeft_add_eq_or_of_lt b.isLt, Nat.shiftLeft_eq]

theorem extractSextet_eq_ofNat {n : Nat} (x : BitVec n) (start : Nat) :
    x.extractLsb' start 6 = BitVec.ofNat 6 (x.toNat / 2 ^ start) := by
  apply BitVec.eq_of_toNat_eq
  rw [BitVec.extractLsb'_toNat, BitVec.toNat_ofNat, Nat.shiftRight_eq_div_pow]

theorem sextetChar_congr {a b : Nat} (h : a % 64 = b % 64) :
    sextetChar (BitVec.ofNat 6 a) = sextetChar (BitVec.ofNat 6 b) :=
  congrArg sextetChar (BitVec.eq_of_toNat_eq (by simpa using h))

/-- Settles O21: both sides are twelve characters of six-bit numbers, read off the groups' values and off the value of the
72-bit string, which agree modulo 64. -/
theorem wireTextOfNineBytes : Obligations.WireTextOfNineBytes := by
  intro f0 f1 f2 f3 f4 f5 f6 f7 f8
  have hrange : List.range 12 = [0, 1, 2, 3, 4, 5, 6, 7, 8, 9, 10, 11] := rfl
  simp only [b64Chars, groupSextet_eq_ofNat, hrange, List.map_cons, List.map_nil, extractSextet_eq_ofNat,
    toNat_append_byte, List.cons.injEq, and_true]
  have h0 := f0.isLt
  have h1 := f1.isLt
  have h2 := f2.isLt
  have h3 := f3.isLt
  have h4 := f4.isLt
  have h5 := f5.isLt
  have h6 := f6.isLt
  have h7 := f7.isLt
  have h8 := f8.isLt
  refine ⟨sextetChar_congr ?_, sextetChar_congr ?_, sextetChar_congr ?_, sextetChar_congr ?_, sextetChar_congr ?_,
    sextetChar_congr ?_, sextetChar_congr ?_, sextetChar_congr ?_, sextetChar_congr ?_, sextetChar_congr ?_,
    sextetChar_congr ?_, sextetChar_congr ?_⟩ <;> omega

end Sys2Proof.Machine
end

section
/-! The TX pacer over a run (41_transport_encoder.md R112 to R115): what has been taken and written of each transmission, and
that a fair pacer takes all of it. -/

namespace Sys2Proof.Machine

/-! ## Any run -/

theorem runSteps_succ_right (k : Nat) (s : State) : runSteps (k + 1) s = bindRun (runSteps k s) step := by
  rw [runSteps_add k 1]
  congr 1
  funext t
  exact bindRun_runSteps_zero (step t)

/-- No write that fails is next where none is to come. -/
theorem head?_ne_pacerFail {l : List Input} (h : ∀ j d, Input.pacerFail j d ∉ l) :
    ∀ j d, l.head? ≠ some (.pacerFail j d) := fun j d hhead => h j d (List.mem_of_mem_head? hhead)

/-- Along a run each transmission splits into a part taken and a part left; without a failed write to come, what is taken is
written. -/
theorem runSteps_progress {k : Nat} {s t : State} (hopen : [] ∉ s.backlog) (h : runSteps k s = .next t) :
    ∃ W T L, PacerProgress s t W T L ∧
      ((∀ j d, Input.pacerFail j d ∉ s.inputs) → W = T ∧ ∀ j d, Input.pacerFail j d ∉ t.inputs) := by
  induction k generalizing t with
  | zero =>
    cases h
    exact ⟨_, _, _, .refl hopen, fun hno => ⟨rfl, hno⟩⟩
  | succ k ih =>
    rw [runSteps_succ_right] at h
    obtain ⟨u, hrun, hstep⟩ := bindRun_eq_next.mp h
    obtain ⟨W, T, L, hp, hkeep⟩ := ih hrun
    obtain ⟨W', T', L', hp', -, hwritten, -⟩ := hp.step hstep
    refine ⟨W', T', L', hp', fun hno => ?_⟩
    obtain ⟨heq, hno'⟩ := hkeep hno
    exact ⟨hwritten (head?_ne_pacerFail hno') heq, fun j d hmem => hno' j d (step_inputs_fail hstep hmem)⟩

/-! ## A fair run -/

theorem unwritten_eq_zero_iff {n : Nat} {left : List (List Byte)} :
    unwritten n left = 0 ↔ ∀ a ∈ left.take n, a = [] := by
  rw [unwritten, List.sum_eq_zero_iff_forall_eq_nat]
  simp only [List.forall_mem_map, List.length_eq_zero_iff]

/-- Parts taken of which nothing is left are the whole. -/
theorem zipWith_append_replicate_nil (T : List (List Byte)) :
    List.zipWith (· ++ ·) T (List.replicate T.length []) = T := by
  induction T with
  | nil => rfl
  | cons a T ih => rw [List.length_cons, List.replicate_succ, List.zipWith_cons_cons, ih, List.append_nil]

/-- Where nothing is left of the transmissions of the start, all of them is taken. -/
theorem PacerProgress.taken_eq {s t : State} {W T L : List (List Byte)} (hp : PacerProgress s t W T L)
    (hdone : unwritten s.backlog.length L = 0) : T.take s.backlog.length = s.backlog := by
  obtain ⟨⟨frames, -, hlen, hsplit⟩, -⟩ := hp
  have hnone := unwritten_eq_zero_iff.mp hdone
  have htake := congrArg (List.take s.backlog.length) hsplit
  rw [List.take_left, List.take_zipWith] at htake
  have hleft : L.take s.backlog.length = List.replicate (T.take s.backlog.length).length [] :=
    List.eq_replicate_iff.mpr ⟨by simp [hlen], hnone⟩
  rw [hleft, zipWith_append_replicate_nil] at htake
  exact htake

/-- No step of the run brings in a failed write that the environment does not. -/
theorem fedRun_noFail {env : Nat → List Input} {s t : State} {m : Nat} (hsink : SinkAccepts env s)
    (h : fedRun env m s = .next t) : ∀ j d, Input.pacerFail j d ∉ (t.fed (env m)).inputs := by
  intro j d
  obtain ⟨hs, henv⟩ := hsink j d
  suffices ht : Input.pacerFail j d ∉ t.inputs by
    rw [fed_inputs, List.mem_append, not_or]
    exact ⟨ht, henv m⟩
  induction m generalizing t with
  | zero =>
    cases h
    exact hs
  | succ m ih =>
    obtain ⟨u, hrun, hstep⟩ := bindRun_eq_next.mp h
    intro hmem
    rcases List.mem_append.mp (step_inputs_fail hstep hmem) with hmem | hmem
    · exact ih hrun hmem
    · exact henv m hmem

/-- What the pacer has done from `t` to `u`, the state `m` steps into the run: nothing that was left of the first `n`
transmissions has come back, and what is taken is written if the sink keeps accepting. -/
structure FedProgress (env : Nat → List Input) (s t : State) (m : Nat) (u : State) (left : Nat) : Prop where
  run : fedRun env m s = .next u
  progress : ∃ W T L, PacerProgress t u W T L ∧ t.backlog.length ≤ L.length ∧ (SinkAccepts env s → W = T) ∧
    unwritten t.backlog.length L = left

section
variable {env : Nat → List Input} {s t u v : State} {m left : Nat}

/-- A step more. If it serves the oldest transmission while something is left, less is left. -/
theorem FedProgress.step (h : FedProgress env s t m u left) (hstep : step (u.fed (env m)) = .next v) :
    ∃ left', FedProgress env s t (m + 1) v left' ∧ left' ≤ left ∧
      (ServesOldest (u.fed (env m)) → left ≠ 0 → left' < left) := by
  obtain ⟨hrun, W, T, L, hp, hlen, hwritten, rfl⟩ := h
  have hfed : PacerProgress t (u.fed (env m)) W T L := ⟨hp.split, hp.backlog, hp.sink, hp.amongTaken⟩
  obtain ⟨W', T', L', hp', hlen', hwritten', hleft⟩ := hfed.step hstep
  obtain ⟨hle, hlt⟩ := hleft _ hlen
  have hrun' : fedRun env (m + 1) s = .next v := by rw [fedRun_succ, hrun, bindRun_next, hstep]
  refine ⟨_, ⟨hrun', W', T', L', hp', hlen.trans hlen',
    fun hsink => hwritten' (head?_ne_pacerFail (fedRun_noFail hsink hrun)) (hwritten hsink), rfl⟩, hle,
    fun hserve hne => hlt hserve ?_⟩
  rw [Ne, unwritten_eq_zero_iff] at hne
  push Not at hne
  exact hne

/-- Any number of steps more. -/
theorem FedProgress.later (h : FedProgress env s t m u left) {j : Nat} (hj : m ≤ j) (hv : fedRun env j s = .next v) :
    ∃ left', FedProgress env s t j v left' ∧ left' ≤ left := by
  induction j, hj using Nat.le_induction generalizing v with
  | base =>
    obtain rfl : u = v := Host.Outcome.next.inj (h.run.symm.trans hv)
    exact ⟨left, h, le_rfl⟩
  | succ j hj ih =>
    obtain ⟨w, hw, hstep⟩ := bindRun_eq_next.mp hv
    obtain ⟨left', h', hle⟩ := ih hw
    obtain ⟨left'', h'', hle', -⟩ := h'.step hstep
    exact ⟨left'', h'', hle'.trans hle⟩

/-- While something is left there is an unfinished transmission, and each has a character. -/
theorem FedProgress.backlog (h : FedProgress env s t m u left) :
    [] ∉ u.backlog ∧ (left ≠ 0 → u.backlog ≠ []) := by
  obtain ⟨-, W, T, L, hp, -, -, rfl⟩ := h
  rw [hp.backlog]
  refine ⟨by simp, fun hne hnil => hne (unwritten_eq_zero_iff.mpr fun a ha => ?_)⟩
  simpa using List.filter_eq_nil_iff.mp hnil a (List.mem_of_mem_take ha)

/-- An act of the pacer on the oldest transmission answers where there is one. -/
theorem step_of_servesOldest (hserve : ServesOldest u) (hopen : [] ∉ u.backlog) (hne : u.backlog ≠ []) :
    ∃ v, step u = .next v := by
  obtain ⟨a, more, hb⟩ := List.exists_cons_of_ne_nil hne
  obtain ⟨ch, r, rfl⟩ : ∃ ch r, a = ch :: r := List.exists_cons_of_ne_nil fun ha => hopen (by simp [hb, ha])
  have hfirst : u.backlog[0]? = some (ch :: r) := by simp [hb]
  obtain ⟨d, hhead | hhead⟩ := hserve
  · obtain ⟨rest, hin⟩ := List.head?_eq_some_iff.mp hhead
    exact ⟨_, (step_pacerWrite hin).trans (pacerWrite_eq (s := { u with inputs := rest }) d hfirst)⟩
  · obtain ⟨rest, hin⟩ := List.head?_eq_some_iff.mp hhead
    exact ⟨_, (step_pacerFail hin).trans (pacerFail_eq (s := { u with inputs := rest }) d hfirst)⟩

/-- A fair pacer takes all that is left, in the end. -/
theorem FedProgress.finish (hfair : PacerFair env s) (h : FedProgress env s t m u left) :
    ∃ m' v, m ≤ m' ∧ FedProgress env s t m' v 0 := by
  induction left using Nat.strong_induction_on generalizing m u with
  | _ left ih =>
    rcases Nat.eq_zero_or_pos left with rfl | hpos
    · exact ⟨m, u, le_rfl, h⟩
    obtain ⟨j, v, hj, hv, hserve⟩ := hfair m u h.run (h.backlog.2 hpos.ne')
    obtain ⟨left', h', hle⟩ := h.later hj hv
    rcases Nat.eq_zero_or_pos left' with rfl | hpos'
    · exact ⟨j, v, hj, h'⟩
    obtain ⟨hopen, hne⟩ := h'.backlog
    obtain ⟨w, hw⟩ := step_of_servesOldest hserve hopen (hne hpos'.ne')
    obtain ⟨left'', h'', -, hlt⟩ := h'.step hw
    obtain ⟨m', x, hm', hx⟩ := ih left'' ((hlt hserve hpos'.ne').trans_le hle) h''
    exact ⟨m', x, hj.trans (Nat.le_of_succ_le hm'), hx⟩

end

/-- No transmission of the run is left with no character. -/
theorem fedRun_backlogOpen {env : Nat → List Input} {s t : State} {m : Nat} (hopen : [] ∉ s.backlog)
    (h : fedRun env m s = .next t) : [] ∉ t.backlog := by
  have hstart : FedProgress env s s 0 s (unwritten s.backlog.length s.backlog) :=
    ⟨rfl, _, _, _, .refl hopen, le_rfl, fun _ => rfl, rfl⟩
  obtain ⟨left, hp, -⟩ := hstart.later (Nat.zero_le m) h
  exact hp.backlog.1

/-! ## Without interruption -/

/-- As many writes as the oldest transmission has characters put it on the sink. -/
theorem runSteps_writeAll {s : State} {text : List Byte} {more : List (List Byte)} {rest : List Input} (hne : text ≠ [])
    (hb : s.backlog = text :: more) (hin : s.inputs = List.replicate text.length (.pacerWrite 0 0) ++ rest) :
    runSteps text.length s = .next { s with
      sink := s.sink ++ text, backlog := more, inputs := .event .txDone :: rest } := by
  induction text generalizing s with
  | nil => exact absurd rfl hne
  | cons ch r ih =>
    have hstep : step s = _ := (step_pacerWrite (rest := List.replicate r.length (.pacerWrite 0 0) ++ rest) hin).trans
      (pacerWrite_eq (s := { s with inputs := List.replicate r.length (.pacerWrite 0 0) ++ rest }) 0
        (by simp [hb] : s.backlog[0]? = some (ch :: r)))
    change bindRun (step s) (runSteps r.length) = _
    rw [hstep, bindRun_next]
    cases r with
    | nil => simp [runSteps, advanceJob, hb, report]
    | cons c r =>
      refine (ih nofun (by simp [advanceJob, hb]) (by simp)).trans ?_
      simp

/-- Settles O24: progress along any run (`runSteps_progress`), its end in a fair one (`FedProgress.finish`), and the writes
one by one (`runSteps_writeAll`). -/
theorem pacerWritesTextInOrder : Obligations.PacerWritesTextInOrder := by
  refine ⟨fun k s t hopen hrun => ?run, fun env s t k hopen hfair hrun => ?fair,
    fun s text more rest hne hb hin => runSteps_writeAll hne hb hin⟩
  case run =>
    obtain ⟨W, T, L, hp, hwritten⟩ := runSteps_progress hopen hrun
    exact ⟨W, T, L, hp, fun hno => (hwritten hno).1⟩
  case fair =>
    have hstart : FedProgress env s t k t (unwritten t.backlog.length t.backlog) :=
      ⟨hrun, _, _, _, .refl (fedRun_backlogOpen hopen hrun), le_rfl, fun _ => rfl, rfl⟩
    obtain ⟨m, u, hm, hu, W, T, L, hp, -, hwritten, hdone⟩ := hstart.finish hfair
    exact ⟨m, u, W, T, L, hm, hu, hp, hp.taken_eq hdone, hwritten⟩

end Sys2Proof.Machine
end

section
/-! The ends of a run (70_reset_and_hazards.md R262, R266): completed, stalled, retrying for ever. -/

namespace Sys2Proof.Machine

/-! ## What is still to come, over a step -/

theorem rxAhead_of_rxByte {s : State} {rest : List Input} {b : Byte} (h : s.Leaves rest)
    (he : s.nextEvent = some (.rxByte b)) : rxAhead s.inputs = b :: rxAhead rest := by
  obtain ⟨hevents, -⟩ := h
  exact rxAhead_rxByte (by rw [hevents, he]; rfl)

theorem rxAhead_of_event {s : State} {rest : List Input} {e : BlockEvent} (h : s.Leaves rest) (he : s.nextEvent = some e)
    (hr : e ≠ .reset) (hb : ∀ b, e ≠ .rxByte b) : rxAhead s.inputs = rxAhead rest := by
  obtain ⟨hevents, -⟩ := h
  exact rxAhead_other (by rw [hevents, he]; rfl) hr hb

theorem rxAhead_of_noEvent {s : State} {rest : List Input} (h : s.Leaves rest) (he : s.nextEvent = none) :
    rxAhead s.inputs = rxAhead rest := by
  obtain ⟨hevents, -⟩ := h
  exact rxAhead_of_events (by rw [hevents, he]; rfl)

theorem ackAhead_of_rxAhead {s t : State} (hcfg : t.cfg = s.cfg) (hcls : t.cls = s.cls) (hbuf : t.lbuf = s.lbuf)
    (hin : rxAhead s.inputs = rxAhead t.inputs) : t.ackAhead = s.ackAhead := by
  rw [State.ackAhead, State.ackAhead, hcfg, hcls, hbuf, hin]

/-- The delimiter next to come completes a line whose signal is the first of those ahead. -/
theorem ackAhead_of_signal {s : State} {rest : List Input} {b : Byte} {g : Signal} (h : s.Leaves rest)
    (he : s.nextEvent = some (.rxByte b)) (hg : s.signalOf (.rxByte b) = some g) :
    s.ackAhead = (Signal.isAck g || { s with inputs := rest, cls := .E, lbuf := [] }.ackAhead) := by
  have hline : byteClass s.cfg b = .delim ∧ lineSignal s.cfg s.cls s.lbuf = g := by
    simp only [State.signalOf, Option.ite_none_right_eq_some, Option.some.injEq] at hg
    exact ⟨hg.1.2, hg.2⟩
  obtain ⟨hb, rfl⟩ := hline
  rw [State.ackAhead, rxAhead_of_rxByte h he, machineSignals, if_pos hb, List.any_cons]
  rfl

/-- A byte of the line next to come only carries the machine on. -/
theorem ackAhead_of_lineByte {s : State} {rest : List Input} {b : Byte} (h : s.Leaves rest)
    (he : s.nextEvent = some (.rxByte b)) (hb : byteClass s.cfg b ≠ .delim) :
    s.ackAhead = { s with
      inputs := rest, cls := clsNext s.cls (byteClass s.cfg b), lbuf := appendLbuf s.cfg s.lbuf b }.ackAhead := by
  rw [State.ackAhead, rxAhead_of_rxByte h he, machineSignals, if_neg hb]
  rfl

/-! ## Completed, and stalled -/

/-- A run completes in a waiting block, on an acknowledgment that was still to come, through `finish()`. -/
theorem step_completes {s t : State} (h : step s = .next t) (hs : s.status ≠ .completed) (ht : t.status = .completed) :
    s.status = .waiting ∧ t.out = s.out ++ [.log .done, .trClose] ∧ t.exitCode = some 0 ∧ t.idx = s.idx := by
  obtain ⟨rest, hleaves, heffect⟩ := step_effect h
  rw [Ne, status_completed] at hs
  rw [status_completed] at ht
  cases heffect with
  | finished he hw hg hack =>
    obtain ⟨hst, hf⟩ := (waiting_iff s).mp hw
    have hahead : s.ackAhead = true := by rw [ackAhead_of_signal hleaves he hg, hack, Bool.true_or]
    exact ⟨(status_waiting s).mpr ⟨hf, hst, hahead⟩, rfl, rfl, rfl⟩
  | reset | started | advanced | retried => exact nomatch ht.2
  | noPayload => exact nomatch ht.1
  | ignored | writeError | tookByte | diagnosed | wrote | writeFailed | host => exact absurd ht hs

/-- A completed run is left as it was, but for `reset`. -/
theorem step_completed {s t : State} (h : step s = .next t) (hs : s.status = .completed)
    (hreset : s.nextEvent ≠ some .reset) : t.status = .completed ∧ t.out = s.out ∧ t.idx = s.idx := by
  obtain ⟨rest, -, heffect⟩ := step_effect h
  rw [status_completed] at hs ⊢
  obtain ⟨hf, hst⟩ := hs
  have hnotWaiting : ¬ s.waiting = true := fun hw => by
    obtain ⟨hawait, -⟩ := (waiting_iff s).mp hw
    exact absurd (hst.symm.trans hawait) (by decide)
  have hnotIdle : s.st ≠ .idle := by simp [hst]
  cases heffect with
  | reset he => exact absurd he hreset
  | noPayload _ hidle | started _ hidle => exact absurd hidle hnotIdle
  | writeError _ _ hlogged => simp [hst] at hlogged
  | tookByte _ hw | advanced _ hw | finished _ hw | retried _ hw | diagnosed _ hw => exact absurd hw hnotWaiting
  | ignored | wrote | writeFailed | host => exact ⟨⟨hf, hst⟩, rfl, rfl⟩

/-- A stalled run stays stalled, sends nothing and closes nothing, but for `reset`. -/
theorem step_stalled {s t : State} (h : step s = .next t) (hs : s.status = .stalled)
    (hreset : s.nextEvent ≠ some .reset) :
    t.status = .stalled ∧ t.txStream = s.txStream ∧ t.idx = s.idx ∧ t.closeCount = s.closeCount := by
  obtain ⟨rest, hleaves, heffect⟩ := step_effect h
  rw [status_stalled] at hs ⊢
  obtain ⟨hf, hst, hahead⟩ := hs
  have hwaiting : s.waiting = true := (waiting_iff s).mpr ⟨hst, hf⟩
  have hnotIdle : s.st ≠ .idle := by simp [hst]
  have hnoAck {b : Byte} {g : Signal} (he : s.nextEvent = some (.rxByte b)) (hg : s.signalOf (.rxByte b) = some g) :
      Signal.isAck g = false := by
    rw [ackAhead_of_signal hleaves he hg, Bool.or_eq_false_iff] at hahead
    exact hahead.1
  have hkept {u : State} (hcfg : u.cfg = s.cfg) (hcls : u.cls = s.cls) (hbuf : u.lbuf = s.lbuf)
      (hin : rxAhead s.inputs = rxAhead u.inputs) : u.ackAhead = false :=
    (ackAhead_of_rxAhead hcfg hcls hbuf hin).trans hahead
  cases heffect with
  | reset he => exact absurd he hreset
  | noPayload _ hidle | started _ hidle => exact absurd hidle hnotIdle
  | advanced he _ hg | retried he _ hg => exact nomatch hnoAck he hg
  | finished he _ hg hack => exact absurd (hnoAck he hg) (by simp [hack])
  | ignored he hne hb =>
    exact ⟨⟨hf, hst, hkept rfl rfl rfl (rxAhead_of_event hleaves he hne (hb hwaiting))⟩, rfl, rfl, rfl⟩
  | writeError he =>
    exact ⟨⟨hf, hst, hkept rfl rfl rfl (rxAhead_of_event hleaves he nofun nofun)⟩, emit_log_txStream _ _, rfl,
      emit_log_closeCount _ _⟩
  | tookByte he _ hb =>
    exact ⟨⟨hf, hst, (ackAhead_of_lineByte hleaves he hb).symm.trans hahead⟩, rfl, rfl, rfl⟩
  | diagnosed he _ hg =>
    rw [ackAhead_of_signal hleaves he hg, Bool.or_eq_false_iff] at hahead
    exact ⟨⟨hf, hst, hahead.2⟩, emit_log_txStream _ _, rfl, emit_log_closeCount _ _⟩
  | @wrote j d ch r he =>
    refine ⟨⟨hf, hst, hkept rfl rfl rfl ?_⟩, rfl, rfl, rfl⟩
    rw [rxAhead_of_noEvent hleaves he]
    split
    · exact (rxAhead_report d (e := .txDone) rest nofun nofun).symm
    · rfl
  | @writeFailed j d r he =>
    refine ⟨⟨hf, hst, hkept rfl rfl rfl ?_⟩, rfl, rfl, rfl⟩
    rw [rxAhead_of_noEvent hleaves he]
    exact (rxAhead_report d (e := .wrErr) rest nofun nofun).symm
  | host he => exact ⟨⟨hf, hst, hkept rfl rfl rfl (rxAhead_of_noEvent hleaves he)⟩, rfl, rfl, rfl⟩

/-- A block that waits with nothing to come is stalled. -/
theorem status_noInput {s : State} (hst : s.st = .await) (hf : s.fault = .none) (hin : s.inputs = []) :
    s.status = .stalled := by
  rw [status_stalled]
  refine ⟨hf, hst, ?_⟩
  rw [State.ackAhead, hin]
  rfl

/-! ## Runs in an environment -/

theorem fed_nil (s : State) : s.fed [] = s := by rw [State.fed, List.append_nil]

/-- Steps before which the environment brings nothing are steps of the machine alone. -/
theorem fedRun_quiet {env : Nat → List Input} {k q : Nat} (hquiet : ∀ i, 0 < i → i ≤ q → env (k + i) = []) (s : State) :
    fedRun env (k + (q + 1)) s = bindRun (fedRun env k s) fun t => runSteps (q + 1) (t.fed (env k)) := by
  induction q with
  | zero =>
    rw [fedRun_succ]
    congr 1
    funext t
    exact (bindRun_runSteps_zero _).symm
  | succ q ih =>
    have hlast : env (k + (q + 1)) = [] := hquiet (q + 1) (Nat.succ_pos q) le_rfl
    rw [← Nat.add_assoc, fedRun_succ, ih fun i hi hiq => hquiet i hi (Nat.le_succ_of_le hiq)]
    simp only [hlast, fed_nil, runSteps_succ_right (q + 1)]
    cases fedRun env k s <;> rfl

/-- What a later point of a run has come from. -/
theorem fedRun_earlier {env : Nat → List Input} {k m : Nat} {s v : State} (hkm : k ≤ m) (h : fedRun env m s = .next v) :
    ∃ t, fedRun env k s = .next t := by
  induction m, hkm using Nat.le_induction generalizing v with
  | base => exact ⟨v, h⟩
  | succ m _ ih =>
    obtain ⟨u, hu, -⟩ := bindRun_eq_next.mp h
    exact ih hu

/-- As long as no `tr_close` is emitted the block does not come to `DONE`. -/
theorem fedRun_notDone {env : Nat → List Input} {k m : Nat} {s t v : State} (hs : s.st ≠ .done) (hkm : k ≤ m)
    (ht : fedRun env k s = .next t) (hv : fedRun env m s = .next v) (hclose : v.closeCount = s.closeCount) :
    t.st ≠ .done := by
  have hmono {k m : Nat} {t v : State} (hkm : k ≤ m) (ht : fedRun env k s = .next t) (hv : fedRun env m s = .next v) :
      t.closeCount ≤ v.closeCount := by
    induction m, hkm using Nat.le_induction generalizing v with
    | base => rw [Host.Outcome.next.inj (ht.symm.trans hv)]
    | succ m _ ih =>
      obtain ⟨u, hu, hstep⟩ := bindRun_eq_next.mp hv
      have hcount := closeIsEmittedOnEnteringDone _ _ hstep
      exact (ih hu).trans (hcount ▸ Nat.le_add_right _ _)
  have htclose : t.closeCount = s.closeCount :=
    Nat.le_antisymm (hclose ▸ hmono hkm ht hv) (hmono (Nat.zero_le k) rfl ht)
  clear hkm hv hclose
  induction k generalizing t with
  | zero => exact Host.Outcome.next.inj ht ▸ hs
  | succ k ih =>
    obtain ⟨u, hu, hstep⟩ := bindRun_eq_next.mp ht
    have hcount : t.closeCount = u.closeCount + if u.st ≠ .done ∧ t.st = .done then 1 else 0 :=
      closeIsEmittedOnEnteringDone (u.fed (env k)) t hstep
    have hu' : s.closeCount ≤ u.closeCount := hmono (Nat.zero_le k) rfl hu
    have hsame : u.closeCount = s.closeCount := by omega
    have hnotEntered : ¬ (u.st ≠ .done ∧ t.st = .done) := fun hentered => by
      rw [if_pos hentered] at hcount
      omega
    exact fun hdone => hnotEntered ⟨ih hu hsame, hdone⟩

/-! ## Retrying for ever -/

/-- A state of the session in `s` that waits with its line empty and nothing to come, and may send its chunk again. -/
structure Resting (s t : State) : Prop where
  st : t.st = .await
  fault : t.fault = .none
  cls : t.cls = .E
  lbuf : t.lbuf = []
  inputs : t.inputs = []
  cfg : t.cfg = s.cfg
  closeCount : t.closeCount = s.closeCount
  retry : t.idx ≠ 0 ∨ t.cfg.retryIdx0 = true
  canSend : CanSend t

/-- The Failure line as inputs, with what comes behind it. -/
abbrev failureLine (c : Config) (tail : List Input) : List Input := rxInputs [c.ackFail, c.delim] ++ tail

/-- The byte `f` is taken into the line. -/
theorem Resting.first_step {s t : State} (h : Resting s t) (hc : s.cfg.Wf) (tail : List Input) :
    ∃ u, runSteps 1 (t.fed (failureLine s.cfg tail)) = .next u ∧ u.st = .await ∧ u.idx = t.idx ∧
      u.txStream = t.txStream := by
  have hw : (t.fed (failureLine s.cfg tail)).waiting = true := (waiting_iff _).mpr ⟨h.st, h.fault⟩
  have hin : (t.fed (failureLine s.cfg tail)).inputs =
      .event (.rxByte s.cfg.ackFail) :: .event (.rxByte s.cfg.delim) :: tail := by
    rw [fed_inputs, h.inputs]
    rfl
  have hne : s.cfg.ackFail ≠ t.cfg.delim := by
    obtain ⟨-, -, -, -, -, -, hne⟩ := hc
    rw [h.cfg]
    exact hne.symm
  exact ⟨_, (bindRun_runSteps_zero _).trans (step_lineByte hw hin hne), h.st, rfl, rfl⟩

/-- The whole line makes the block send the chunk again. -/
theorem Resting.line_steps {s t : State} (h : Resting s t) (hc : s.cfg.Wf) (tail : List Input) :
    runSteps 2 (t.fed (failureLine s.cfg tail)) = .next (afterSend true { t with inputs := tail }) := by
  have hw : (t.fed (failureLine s.cfg tail)).waiting = true := (waiting_iff _).mpr ⟨h.st, h.fault⟩
  have hin : (t.fed (failureLine s.cfg tail)).inputs = rxInputs ([t.cfg.ackFail] ++ [t.cfg.delim]) ++ tail := by
    rw [fed_inputs, h.inputs, h.cfg]
    rfl
  have hne : t.cfg.delim ∉ [t.cfg.ackFail] := by
    obtain ⟨-, -, -, -, -, -, hne⟩ := hc
    rw [h.cfg]
    simpa using hne
  have hline := runSteps_wholeLine hw h.cls h.lbuf hne hin
  have hfailure : surfaced t.cfg [t.cfg.ackFail] = .failure := surfaced_ackFail (h.cfg ▸ hc)
  refine hline.trans ?_
  change handSignal (surfaced t.cfg [t.cfg.ackFail]) { t with inputs := tail } = _
  rw [hfailure, handSignal_retry (s := { t with inputs := tail }) ((waiting_iff _).mpr ⟨h.st, h.fault⟩) h.retry]
  exact send_eq (s := { t with inputs := tail }) h.canSend

/-- The state after the retransmission rests once its inputs are taken off. -/
theorem Resting.of_afterSend {s t : State} (h : Resting s t) :
    Resting s (afterSend true { t with inputs := [] }) where
  st := rfl
  fault := h.fault
  cls := h.cls
  lbuf := h.lbuf
  inputs := rfl
  cfg := h.cfg
  closeCount := (afterSend_closeCount _ _).trans h.closeCount
  retry := h.retry
  canSend := h.canSend

/-- The TX pacer's part does not matter for that. -/
theorem Resting.withPacer {s t : State} (h : Resting s t) (backlog : List (List Byte)) (sink : List Byte) :
    Resting s { t with backlog := backlog, sink := sink } :=
  ⟨h.st, h.fault, h.cls, h.lbuf, h.inputs, h.cfg, h.closeCount, h.retry, h.canSend⟩

section
variable {env : Nat → List Input} {s : State} {tail : List Input} {Rest : State → Prop}

/-- An environment that brings a Failure line every `q + 2` steps, and nothing in between. -/
structure FailsEvery (env : Nat → List Input) (c : Config) (q : Nat) (tail : List Input) : Prop where
  line : ∀ r, env ((q + 2) * r) = failureLine c tail
  quiet : ∀ r i, 0 < i → i ≤ q + 1 → env ((q + 2) * r + i) = []

/-- In such an environment the block rests before every line if it does so after each. -/
theorem FailsEvery.rests {q : Nat} (henv : FailsEvery env s.cfg q tail) (hstart : Rest s)
    (hround : ∀ t, Rest t → ∃ u, runSteps (q + 2) (t.fed (failureLine s.cfg tail)) = .next u ∧ Rest u) (r : Nat) :
    ∃ t, fedRun env ((q + 2) * r) s = .next t ∧ Rest t := by
  induction r with
  | zero => exact ⟨s, rfl, hstart⟩
  | succ r ih =>
    obtain ⟨t, ht, hrest⟩ := ih
    obtain ⟨u, hu, hrest'⟩ := hround t hrest
    refine ⟨u, ?_, hrest'⟩
    rw [Nat.mul_succ, fedRun_quiet (henv.quiet r), ht, bindRun_next, henv.line, hu]

/-- A stretch of steps from a line on. -/
theorem FailsEvery.steps {q i r : Nat} (henv : FailsEvery env s.cfg q tail) (hi : i ≤ q + 1) {t : State}
    (ht : fedRun env ((q + 2) * r) s = .next t) :
    fedRun env ((q + 2) * r + (i + 1)) s = runSteps (i + 1) (t.fed (failureLine s.cfg tail)) := by
  rw [fedRun_quiet (fun j hj hji => henv.quiet r j hj (hji.trans hi)), ht, bindRun_next, henv.line]

/-- Such a run never ends, and each line makes the block send its chunk again. -/
theorem FailsEvery.retriesForEver {q : Nat} (henv : FailsEvery env s.cfg q tail) (hc : s.cfg.Wf)
    (hrests : ∀ r, ∃ t, fedRun env ((q + 2) * r) s = .next t ∧ Resting s t) : RetriesForEver env s := by
  have hlater (k : Nat) : k ≤ (q + 2) * k := Nat.le_mul_of_pos_left k (Nat.succ_pos _)
  constructor
  · intro k
    obtain ⟨v, hv, hrest⟩ := hrests k
    obtain ⟨t, ht⟩ := fedRun_earlier (hlater k) hv
    have hs : s.st ≠ .done := by
      obtain ⟨u, hu, hstart⟩ := hrests 0
      rw [Host.Outcome.next.inj hu, hstart.st]
      nofun
    refine ⟨t, ht, fun hcompleted => ?_⟩
    obtain ⟨-, hdone⟩ := (status_completed t).mp hcompleted
    exact fedRun_notDone hs (hlater k) ht hv hrest.closeCount hdone
  · intro k
    obtain ⟨t, ht, hrest⟩ := hrests k
    obtain ⟨u, hu, hst, hidx, htx⟩ := hrest.first_step hc tail
    refine ⟨(q + 2) * k + 1, u, _, (hlater k).trans (Nat.le_succ _),
      (henv.steps (i := 0) (Nat.zero_le _) ht).trans hu,
      (henv.steps (i := 1) (Nat.le_add_left 1 q) ht).trans (hrest.line_steps hc tail), hst, rfl, hidx.symm, ?_⟩
    rw [hidx, htx]
    exact ⟨_, afterSend_txStream _ _⟩

end

/-! ## The two receivers -/

theorem alwaysFails_failsEvery (c : Config) : FailsEvery (alwaysFails c) c 0 [] where
  line r := by simp [alwaysFails]
  quiet r i hi hi' := by
    obtain rfl : i = 1 := by omega
    simp [alwaysFails]

theorem alwaysFails_rests {s : State} (hc : s.cfg.Wf) (h : Resting s s) (r : Nat) :
    ∃ t, fedRun (alwaysFails s.cfg) ((0 + 2) * r) s = .next t ∧ Resting s t :=
  (alwaysFails_failsEvery s.cfg).rests h (fun _ hrest => ⟨_, hrest.line_steps hc [], hrest.of_afterSend⟩) r

theorem textLen_pos (c : Config) : 0 < textLen c := by
  unfold textLen
  omega

/-- The writes of a whole text. -/
abbrev textWrites (c : Config) : List Input := List.replicate (textLen c) (.pacerWrite 0 0)

theorem failsEveryText_failsEvery (c : Config) : FailsEvery (failsEveryText c) c (textLen c + 1) (textWrites c) where
  line r := by simp [failsEveryText]
  quiet r i hi hi' := by
    have hlt : i < textLen c + 1 + 2 := by omega
    have hmod : ((textLen c + 1 + 2) * r + i) % (textLen c + 3) = i := by
      rw [Nat.mul_add_mod, Nat.mod_eq_of_lt hlt]
    rw [failsEveryText, hmod, if_neg hi.ne']

/-- The text of the frame that a send hands over. -/
def State.frameText (s : State) : List Byte := b64Chars (frameBytes s.cfg.n (chunkBytes s s.L s.idx))

theorem frameText_ne_nil (s : State) : s.frameText ≠ [] := b64Chars_ne_nil (frameBytes_ne_nil _ _)

theorem length_frameText (s : State) : s.frameText.length = textLen s.cfg := by
  have hlen : (chunkBytes s s.L s.idx).length ≤ s.cfg.n := by
    rw [chunkBytes_length]
    exact chunkLen_le _ _ _
  rw [State.frameText, b64Chars_length, frameBytes_length hlen, textLen]

theorem afterSend_backlog (r : Bool) (s : State) : (afterSend r s).backlog = s.backlog ++ [s.frameText] := rfl

/-- `tx_done` is ignored in a waiting block. -/
theorem step_txDone {s : State} {rest : List Input} (hst : s.st = .await) (hin : s.inputs = .event .txDone :: rest) :
    step s = .next { s with inputs := rest } :=
  ignoredEventsChangeNothing s .txDone rest hin nofun (by simp [hst])

/-- With no transmission unfinished, the line, the writes of the text it makes the block send again, and the report of the
last one leave the block resting, with no transmission unfinished. -/
theorem Resting.text_steps {s t : State} (h : Resting s t) (hc : s.cfg.Wf) (hb : t.backlog = []) :
    ∃ u, runSteps (textLen s.cfg + 1 + 2) (t.fed (failureLine s.cfg (textWrites s.cfg))) = .next u ∧
      Resting s u ∧ u.backlog = [] := by
  have hline := h.line_steps hc (textWrites s.cfg)
  have hlen : t.frameText.length = textLen s.cfg := h.cfg ▸ length_frameText t
  have hwrites := runSteps_writeAll (s := afterSend true { t with inputs := textWrites s.cfg }) (more := [])
    (rest := []) (frameText_ne_nil t) (by rw [afterSend_backlog, hb]; rfl) (by rw [hlen, List.append_nil]; rfl)
  rw [hlen] at hwrites
  have hreport := step_txDone (rest := []) (s := { afterSend true { t with inputs := textWrites s.cfg } with
    sink := t.sink ++ t.frameText, backlog := [], inputs := [.event .txDone] }) rfl rfl
  refine ⟨_, ?_, h.of_afterSend.withPacer [] (t.sink ++ t.frameText), rfl⟩
  rw [Nat.add_comm, runSteps_add, hline, bindRun_next, runSteps_succ_right]
  exact (congrArg (bindRun · step) hwrites).trans hreport

theorem failsEveryText_rests {s : State} (hc : s.cfg.Wf) (h : Resting s s) (hb : s.backlog = []) (r : Nat) :
    ∃ t, fedRun (failsEveryText s.cfg) ((textLen s.cfg + 1 + 2) * r) s = .next t ∧ Resting s t ∧ t.backlog = [] :=
  (failsEveryText_failsEvery s.cfg).rests (Rest := fun t => Resting s t ∧ t.backlog = []) ⟨h, hb⟩
    (fun _ ⟨hrest, hb⟩ => hrest.text_steps hc hb) r

/-- The pacer is fair: after every line the writes of the text come next. -/
theorem failsEveryText_fair {s : State} (hc : s.cfg.Wf) (h : Resting s s) (hb : s.backlog = []) :
    PacerFair (failsEveryText s.cfg) s := by
  intro k _ _ _
  obtain ⟨t, ht, hrest, -⟩ := failsEveryText_rests hc h hb k
  have henv := failsEveryText_failsEvery s.cfg
  have hquiet := henv.quiet k 2 Nat.two_pos (Nat.le_add_left 2 _)
  have hlater : k ≤ (textLen s.cfg + 1 + 2) * k + (1 + 1) :=
    (Nat.le_mul_of_pos_left k (Nat.succ_pos _)).trans (Nat.le_add_right _ _)
  refine ⟨_, _, hlater, (henv.steps (i := 1) (Nat.le_add_left 1 _) ht).trans (hrest.line_steps hc _), 0, Or.inl ?_⟩
  rw [hquiet, fed_nil]
  change (List.replicate (textLen s.cfg) (Input.pacerWrite 0 0)).head? = _
  rw [List.head?_replicate, if_neg (textLen_pos s.cfg).ne']

theorem failsEveryText_accepts {s : State} (hin : s.inputs = []) : SinkAccepts (failsEveryText s.cfg) s := by
  refine fun j d => ⟨by simp [hin], fun k => ?_⟩
  rw [failsEveryText]
  split
  · simp [rxInputs]
  · exact List.not_mem_nil

/-- Settles O54: the ends one by one (`step_completes`, `step_completed`, `step_stalled`, `status_noInput`), and the two
receivers that make the block retry for ever (`FailsEvery.retriesForEver`). -/
theorem runCompletesOnlyThroughFinish : Obligations.RunCompletesOnlyThroughFinish := by
  refine ⟨fun _ _ => step_completes, fun _ _ => step_completed, fun _ _ => step_stalled,
    fun s hst hf hin => ⟨status_noInput hst hf hin, step_noInput hin⟩,
    fun s hc hst hf hcls hbuf hin hretry hcan => ?retries⟩
  case retries =>
    have hrest : Resting s s := ⟨hst, hf, hcls, hbuf, hin, rfl, rfl, hretry, hcan⟩
    refine ⟨(alwaysFails_failsEvery s.cfg).retriesForEver hc (alwaysFails_rests hc hrest), fun hb => ⟨?_, ?_, ?_⟩⟩
    · refine (failsEveryText_failsEvery s.cfg).retriesForEver hc fun r => ?_
      obtain ⟨t, ht, hrest', -⟩ := failsEveryText_rests hc hrest hb r
      exact ⟨t, ht, hrest'⟩
    · exact failsEveryText_fair hc hrest hb
    · exact failsEveryText_accepts hin

end Sys2Proof.Machine
end
